-- ==== Sys2Proof/Word.lean ====
section
/-! DEFINITION. The words of the block and the IEEE-754 datum its datapath works on (spec 00_scope.md R7). -/

namespace Sys2Proof

/-- A 64-bit word: a configuration register, a buffer cell's pattern, one of the three words of a transaction. -/
abbrev Word := BitVec 64

/-- A byte of the output buffer. -/
abbrev Byte := BitVec 8

/-- The value of an IEEE-754 binary64 datum (R7 `F64`). `fin neg mant exp` is `(-1)^neg * mant * 2^exp`; both zeros
are `fin _ 0 _`. All NaNs are one value: no rule reads the sign or payload of a NaN (R9), and the patterns of NaNs live in the registers
and cells only (log entry 14). -/
inductive F64 where
  | nan
  | inf (neg : Bool)
  | fin (neg : Bool) (mant : Nat) (exp : Int)
  deriving DecidableEq, Repr, Inhabited

/-- The two channels of a frame, left then right (R5 `CHANNELS`, R8: 0 is left, 1 is right). -/
inductive Channel where
  | left
  | right
  deriving DecidableEq, Repr, Inhabited

/-- How a scaled sample becomes an integer: the value of `Q24_ROUND` and the alternative the spec names (R147, D20). -/
inductive RoundMode where
  | tiesToEven
  | towardZero
  deriving DecidableEq, Repr, Inhabited

end Sys2Proof
end

