-- ==== Sys2Proof/Syntax.lean ====
section
/-! DEFINITION. The syntax of the block's operations: one constructor of `Instr` per row of spec/opcode_table.json
(30_encoding.md R70 to R76). -/

namespace Sys2Proof

/-- The sixteen configuration registers, `CR[0]` to `CR[15]` in this order (10_state.md R20). -/
inductive Reg where
  | ctrl | duration | sampleRate | f0l | f1l | f0r | f1r | delay
  | volume | sblen | status | fault | dlen | flen | outlen | cmd
  deriving DecidableEq, Repr, Inhabited

/-- The operations of the block. The first five are the host's transactions (format T, R71), the next five the commands
(format CMD, R74), then the operations that the content of `CTRL` selects (format CTRL, R75) and those that are always performed in
their command (format SEQ, R76). -/
inductive Instr where
  /-- `WCR i, v` (R90). -/
  | wcr (r : Reg) (v : Word)
  /-- `RCR i` (R91). -/
  | rcr (r : Reg)
  /-- `WSB n, ch, v` (R92). -/
  | wsb (n : Word) (ch : Channel) (v : Word)
  /-- `RSB n, ch` (R93). -/
  | rsb (n : Word) (ch : Channel)
  /-- `ROUT j` (R94). -/
  | rout (j : Word)
  /-- `NOP` (R96). -/
  | nop
  /-- `GEN` (R97). -/
  | gen
  /-- `ENC` (R98). -/
  | enc
  /-- `RUN` (R99). -/
  | run
  /-- `CLR` (R100). -/
  | clr
  /-- `DERIVE.KLIN` (R114). -/
  | deriveKlin
  /-- `PHASE.LIN` (R118), of one channel. -/
  | phaseLin (ch : Channel)
  /-- `DERIVE.KLOG` (R115). -/
  | deriveKlog
  /-- `PHASE.LOG` (R119), of one channel. -/
  | phaseLog (ch : Channel)
  /-- `Q16` (R146). -/
  | q16
  /-- `PACK16` (R149). -/
  | pack16
  /-- `Q24` (R147). -/
  | q24
  /-- `PACK24` (R150). -/
  | pack24
  /-- `F32` (R148). -/
  | f32
  /-- `PACK32` (R151). -/
  | pack32
  /-- `VALIDATE` (R173). -/
  | validate
  /-- `DERIVE.N` (R110). -/
  | deriveN
  /-- `DERIVE.DT` (R111). -/
  | deriveDt
  /-- `DERIVE.D` (R112). -/
  | deriveD
  /-- `DERIVE.F` (R113). -/
  | deriveF
  /-- `TIME` (R116). -/
  | time
  /-- `TSHIFT` (R117). -/
  | tshift
  /-- `MUTE` (R130). -/
  | mute
  /-- `FADE` (R131). -/
  | fade
  /-- `FADE.APPLY` (R132), to one channel. -/
  | fadeApply (ch : Channel)
  /-- `VOL` (R133), to one channel. -/
  | vol (ch : Channel)
  /-- `FRAME` (R134). -/
  | frame
  /-- `CLIP` (R145). -/
  | clip
  /-- `FRAMEPACK` (R152). -/
  | framepack
  deriving DecidableEq, Repr, Inhabited

/-- The places in the sequences of `GEN` and `ENC` (R73, R97, R98): at each stands one SEQ operation, or the one that `CTRL`
selects among alternatives (`rate`, `phase`, `quantize`, `pack`). -/
inductive Stage where
  | validate | deriveN | deriveDt | deriveD | deriveF | rate
  | time | tshift | phase (ch : Channel) | mute | fade | fadeApply (ch : Channel) | vol (ch : Channel) | frame
  | clip | quantize | pack | framepack
  deriving DecidableEq, Repr, Inhabited

/-- What is encoded. `transaction` is the triple `(H, A, V)` of format T, which carries a command word when it writes `CR[15]` (R71, R74).
`place` is a place of a command's sequence with the content of `CTRL` there (formats CTRL and SEQ: R75, R76). -/
inductive Code where
  | transaction (h a v : Word)
  | place (st : Stage) (ctrl : Word)
  deriving DecidableEq, Repr, Inhabited

end Sys2Proof
end

