-- ==== Sys2Proof/WellFormed.lean ====
section
/-! DEFINITION. Which terms of `Instr` stand for something the host or the core can ask for under exactly that name. -/

namespace Sys2Proof

/-- The five legal command words (R74). -/
def isCommandWord (v : Word) : Bool :=
  v == 0 || v == 1 || v == 2 || v == 3 || v == 15

/-- Every term is well formed but one shape: a `WCR` of a legal command word to `CMD`, whose word is one of
`NOP`, `GEN`, `ENC`, `RUN`, `CLR` and is written so (R73, R74; log entry 15). A reserved command word stays a `WCR`. -/
def Instr.wellFormed : Instr → Bool
  | .wcr .cmd v => !isCommandWord v
  | _ => true

end Sys2Proof
end

