-- ==== Sys2Proof/Decode.lean ====
section
/-! DEFINITION. From encodings to operations, total and rejecting by name, and back (30_encoding.md R71 to R76, R81). -/

namespace Sys2Proof

/-- Why an encoding stands for no operation. Each is a refusal of the spec (R71, R81, 20_memory.md R59), but for the last. -/
inductive Reject where
  /-- `H.kind` is 5, 6 or 7. -/
  | reservedKind
  /-- A must-be-zero bit of `H` (bits 7:3, 63:9) is not zero. -/
  | headerBits
  /-- `H.ch` is set on a transaction that is neither `WSB` nor `RSB`. -/
  | channelBit
  /-- The data word of a read is not zero. -/
  | dataOnRead
  /-- The register index of a `WCR` or `RCR` is above 15. -/
  | registerIndex
  /-- `CTRL.BITDEPTH` selects no quantizer and no packer (R75): `ENC` never comes here, it faults first (R174). -/
  | noOperationSelected
  deriving DecidableEq, Repr

/-- What decoding answers. -/
inductive Decoded where
  | ok (i : Instr)
  | reject (r : Reject)
  deriving DecidableEq, Repr

/-- The index of a register (10_state.md R20). -/
def regIndex : Reg → Nat
  | .ctrl => 0 | .duration => 1 | .sampleRate => 2 | .f0l => 3 | .f1l => 4 | .f0r => 5 | .f1r => 6 | .delay => 7
  | .volume => 8 | .sblen => 9 | .status => 10 | .fault => 11 | .dlen => 12 | .flen => 13 | .outlen => 14 | .cmd => 15

/-- The register at an index, none above 15. -/
def regAt : Nat → Option Reg
  | 0 => some .ctrl | 1 => some .duration | 2 => some .sampleRate | 3 => some .f0l | 4 => some .f1l | 5 => some .f0r
  | 6 => some .f1r | 7 => some .delay | 8 => some .volume | 9 => some .sblen | 10 => some .status | 11 => some .fault
  | 12 => some .dlen | 13 => some .flen | 14 => some .outlen | 15 => some .cmd
  | _ => none

/-- The command a word of `CMD` encodes, all 64 bits compared; none for a reserved word (R74). -/
def decodeCommand (v : Word) : Option Instr :=
  if v = 0 then some .nop
  else if v = 1 then some .gen
  else if v = 2 then some .enc
  else if v = 3 then some .run
  else if v = 15 then some .clr
  else none

/-- The bits of `H` that must be zero in every transaction: 7:3 and 63:9 (R71). -/
def headerZeroMask : Word := 0xFFFFFFFFFFFFFEF8

/-- `H.kind` (R71). -/
def headerKind (h : Word) : Nat := (h.extractLsb' 0 3).toNat

/-- `H.ch` (R71). -/
def headerChannel (h : Word) : Channel := if h.getLsbD 8 then .right else .left

/-- A `WCR`: a legal command word written to `CMD` is the command (R73, R74). -/
def decodeWrite (a v : Word) : Decoded :=
  match regAt a.toNat with
  | none => .reject .registerIndex
  | some .cmd =>
    match decodeCommand v with
    | some i => .ok i
    | none => .ok (.wcr .cmd v)
  | some r => .ok (.wcr r v)

/-- An `RCR`. -/
def decodeRead (a : Word) : Decoded :=
  match regAt a.toNat with
  | none => .reject .registerIndex
  | some r => .ok (.rcr r)

/-- A transaction `(H, A, V)` (R71). -/
def decodeTransaction (h a v : Word) : Decoded :=
  if h &&& headerZeroMask ≠ 0 then .reject .headerBits
  else match headerKind h with
    | 0 => if headerChannel h = .right then .reject .channelBit else decodeWrite a v
    | 1 => if headerChannel h = .right then .reject .channelBit else if v ≠ 0 then .reject .dataOnRead else decodeRead a
    | 2 => .ok (.wsb a (headerChannel h) v)
    | 3 => if v ≠ 0 then .reject .dataOnRead else .ok (.rsb a (headerChannel h))
    | 4 =>
      if headerChannel h = .right then .reject .channelBit else if v ≠ 0 then .reject .dataOnRead else .ok (.rout a)
    | _ => .reject .reservedKind

/-- `CTRL.SWEEP` (R22), of the content of `CTRL`. -/
def ctrlSweep (ctrl : Word) : Bool := ctrl.getLsbD 0

/-- `CTRL.BITDEPTH` (R22), the number of bits itself (R72). -/
def ctrlDepth (ctrl : Word) : Nat := (ctrl.extractLsb' 8 8).toNat

/-- The operation at a place of a command's sequence: the one that stands there, or the one of its alternatives that the content of
`CTRL` selects (R75, R76). -/
def decodePlace (st : Stage) (ctrl : Word) : Decoded :=
  match st with
  | .validate => .ok .validate
  | .deriveN => .ok .deriveN
  | .deriveDt => .ok .deriveDt
  | .deriveD => .ok .deriveD
  | .deriveF => .ok .deriveF
  | .rate => .ok (if ctrlSweep ctrl then .deriveKlog else .deriveKlin)
  | .time => .ok .time
  | .tshift => .ok .tshift
  | .phase ch => .ok (if ctrlSweep ctrl then .phaseLog ch else .phaseLin ch)
  | .mute => .ok .mute
  | .fade => .ok .fade
  | .fadeApply ch => .ok (.fadeApply ch)
  | .vol ch => .ok (.vol ch)
  | .frame => .ok .frame
  | .clip => .ok .clip
  | .quantize =>
    match ctrlDepth ctrl with
    | 16 => .ok .q16
    | 24 => .ok .q24
    | 32 => .ok .f32
    | _ => .reject .noOperationSelected
  | .pack =>
    match ctrlDepth ctrl with
    | 16 => .ok .pack16
    | 24 => .ok .pack24
    | 32 => .ok .pack32
    | _ => .reject .noOperationSelected
  | .framepack => .ok .framepack

/-- The decoder. -/
def decode : Code → Decoded
  | .transaction h a v => decodeTransaction h a v
  | .place st ctrl => decodePlace st ctrl

/-- The header word of a buffer transaction: its kind and its channel bit (R71). -/
def bufferHeader (kind : Word) : Channel → Word
  | .left => kind
  | .right => kind ||| 0x100

/-- The index of a register as an address word. -/
def regWord (r : Reg) : Word := BitVec.ofNat 64 (regIndex r)

/-- The transaction that issues a command word. -/
def commandCode (v : Word) : Code := .transaction 0 15 v

/-- The encoder, written from the encodings of R71, R74, R75, R76. The bits of `CTRL` that select nothing are zero. -/
def encode : Instr → Code
  | .wcr r v => .transaction 0 (regWord r) v
  | .rcr r => .transaction 1 (regWord r) 0
  | .wsb n ch v => .transaction (bufferHeader 2 ch) n v
  | .rsb n ch => .transaction (bufferHeader 3 ch) n 0
  | .rout j => .transaction 4 j 0
  | .nop => commandCode 0
  | .gen => commandCode 1
  | .enc => commandCode 2
  | .run => commandCode 3
  | .clr => commandCode 15
  | .deriveKlin => .place .rate 0
  | .phaseLin ch => .place (.phase ch) 0
  | .deriveKlog => .place .rate 1
  | .phaseLog ch => .place (.phase ch) 1
  | .q16 => .place .quantize 0x1000
  | .pack16 => .place .pack 0x1000
  | .q24 => .place .quantize 0x1800
  | .pack24 => .place .pack 0x1800
  | .f32 => .place .quantize 0x2000
  | .pack32 => .place .pack 0x2000
  | .validate => .place .validate 0
  | .deriveN => .place .deriveN 0
  | .deriveDt => .place .deriveDt 0
  | .deriveD => .place .deriveD 0
  | .deriveF => .place .deriveF 0
  | .time => .place .time 0
  | .tshift => .place .tshift 0
  | .mute => .place .mute 0
  | .fade => .place .fade 0
  | .fadeApply ch => .place (.fadeApply ch) 0
  | .vol ch => .place (.vol ch) 0
  | .frame => .place .frame 0
  | .clip => .place .clip 0
  | .framepack => .place .framepack 0

/-- What a table word of `nbits` bits is laid out as (log entry 3): from 64 bits up the words `H`, `A`, `V` of a transaction, or, where
they are no legal transaction and the first word is a legal command word, that word written to `CMD`; 16 bits the depth field of `CTRL` at the quantizer; 1 to 15 bits
the sweep bit of `CTRL` at the sweep rate; no bits, nothing. -/
def tableCode (nbits w : Nat) : Option Code :=
  if 64 ≤ nbits then
    let h := BitVec.ofNat 64 w
    let a := BitVec.ofNat 64 (w >>> 64)
    let v := BitVec.ofNat 64 (w >>> 128)
    match decodeTransaction h a v, decodeCommand h with
    | .reject _, some _ => some (commandCode h)
    | _, _ => some (.transaction h a v)
  else if 16 ≤ nbits then some (.place .quantize (BitVec.ofNat 64 w))
  else if 1 ≤ nbits then some (.place .rate (BitVec.ofNat 64 w))
  else none

/-- The instruction the decoder reads from a table word (log entry 3). -/
def decodeTableWord (nbits w : Nat) : Option Instr :=
  match tableCode nbits w with
  | some c =>
    match decode c with
    | .ok i => some i
    | .reject _ => none
  | none => none

end Sys2Proof
end

