-- ==== Sys2Proof/Machine/State.lean ====
section
/-! DEFINITION. The state of the block as plain data, its value after reset, and the reasons a step can stop. -/

namespace Sys2Proof.Machine

/-- `SB` (10_state.md R29): pairs of a cell's address, `2n + ch`, and the pattern it holds, addresses strictly rising. A cell that is
not listed holds no value. -/
abbrev Memory := List (Nat × Word)

/-- The temporaries of a command (10_state.md R31, R32). The spec names them and says that they are not architectural: they are idle
between transactions, and no operation carries one from a command to the next (log entry 2). -/
structure Work where
  /-- The frame counter `n` and the channel index `ch` (R31). -/
  n : Nat
  ch : Channel
  /-- `N`, `D`, `F`, `DT`, `KL`, `KR` (41_synth_nco.md R110 to R115). -/
  bigN : Int
  bigD : Int
  bigF : Int
  dt : F64
  kl : F64
  kr : F64
  /-- `t`, `tR` (R116, R117). -/
  t : F64
  tR : F64
  /-- The sine values of the two channels (R118, R119, R130). -/
  sL : F64
  sR : F64
  /-- The fade gain (R131). -/
  g : F64
  /-- The faded values, the results of `FADE.APPLY` (R132). -/
  xL : F64
  xR : F64
  /-- The final values of the frame (R133, R134). -/
  vL : F64
  vR : F64
  /-- The encoder's sample, its clipped value, the quantized integer, the binary32 pattern and the sample's bytes
  (43_quantize_pack.md R145 to R151). -/
  x : F64
  c : F64
  q : Int
  w : BitVec 32
  bytes : List Byte
  deriving DecidableEq, Repr

/-- Positive zero, `+0.0`. -/
def posZero : F64 := .fin false 0 (-1074)

/-- No command is executing. The values are the model's (log entry 2): every command writes a temporary before it reads it. -/
def Work.idle : Work where
  n := 0
  ch := .left
  bigN := 0
  bigD := 0
  bigF := 0
  dt := posZero
  kl := posZero
  kr := posZero
  t := posZero
  tR := posZero
  sL := posZero
  sR := posZero
  g := posZero
  xL := posZero
  xR := posZero
  vL := posZero
  vR := posZero
  x := posZero
  c := posZero
  q := 0
  w := 0
  bytes := []

/-- What can happen to the block from outside: a reset, between transactions only (70_reset_and_hazards.md R190), or a transaction
of the host (30_encoding.md R71). -/
inductive Input where
  | reset
  | transaction (h a v : Word)
  deriving DecidableEq, Repr

/-- What the last transaction replied (R71): nothing, 64 bits (`RCR`, `RSB`) or 8 bits (`ROUT`). -/
inductive Reply where
  | none
  | word (v : Word)
  | byte (b : Byte)
  deriving DecidableEq, Repr

/-- The state. The registers `CR[0]` to `CR[14]` (`CR[15]`, `CMD`, holds nothing: 10_state.md R28), the two buffers, and the model's
own fields below them. -/
structure State where
  /-- `CR[0]` `CTRL` (R22). -/
  ctrl : Word
  /-- `CR[1]` to `CR[8]`, the operand registers (R21). -/
  duration : Word
  sampleRate : Word
  f0l : Word
  f1l : Word
  f0r : Word
  f1r : Word
  delay : Word
  volume : Word
  /-- `CR[9]` `SBLEN` (R23). -/
  sblen : Word
  /-- `CR[10]` `STATUS` (R24). -/
  status : Word
  /-- `CR[11]` `FAULT` (R25). -/
  fault : Word
  /-- `CR[12]` `DLEN` and `CR[13]` `FLEN` (R26). -/
  dlen : Word
  flen : Word
  /-- `CR[14]` `OUTLEN` (R27). -/
  outlen : Word
  /-- `SB` (R29). -/
  sb : Memory
  /-- `OUT` (R30). -/
  out : List Byte
  /-- MODEL's own: the temporaries of a command; idle between transactions (log entry 2). -/
  work : Work
  /-- MODEL's own: the place from which one operation is run alone; none between transactions (log entry 2). -/
  stage : Option Stage
  /-- MODEL's own: what the host and the platform have yet to do, in order (log entry 1). -/
  inbox : List Input
  /-- MODEL's own: the reply of the last transaction (log entry 4). -/
  reply : Reply
  /-- MODEL's own: how many free NaN patterns have been drawn (log entries 7, 8). -/
  draws : Nat
  deriving DecidableEq, Repr

/-- The block right after reset (10_state.md R35, 70_reset_and_hazards.md R191). -/
def State.reset : State where
  ctrl := 0
  duration := 0
  sampleRate := 0
  f0l := 0
  f1l := 0
  f0r := 0
  f1r := 0
  delay := 0
  volume := 0
  sblen := 0
  status := 0
  fault := 0
  dlen := 0
  flen := 0
  outlen := 0
  sb := []
  out := []
  work := Work.idle
  stage := .none
  inbox := []
  reply := .none
  draws := 0

/-- A stop of the machine with a fault. The block's own faults are no stops: they are recorded in `FAULT` and the machine goes on
(60_exceptions.md R180). -/
inductive Fault where
  /-- Raised by `FRAME` alone, when it is run outside `GEN` with a frame counter that `SB` does not have: an access to a cell that
  does not exist (20_memory.md R50). `GEN` never comes here (R134: `n < N <= SB_DEPTH`). Safe: the model stops. -/
  | noSuchCell
  deriving DecidableEq, Repr

/-- A stop of the machine without a step: the refusals of the spec, which has the model give them no step (20_memory.md R59,
40_host_commands.md R101, 70_reset_and_hazards.md R200). All are safe: the model stops where the spec says it is stuck. -/
inductive Refusal where
  /-- Answered by `exec` for an instruction that has no meaning yet. Safe. -/
  | notModelled (mnemonic : String)
  /-- Raised by `step`: the encoding stands for no operation (30_encoding.md R71, R81). -/
  | malformed (r : Reject)
  /-- Raised by `WSB` and `RSB`: the frame index is at or above `SB_DEPTH` (R59 b). -/
  | frameBeyondBuffer
  /-- Raised by `RSB`: the cell holds no value (R59 a). -/
  | cellHoldsNoValue
  /-- Raised by `ROUT`: the offset is at or above `OUTLEN` (R59 c). -/
  | offsetBeyondStream
  /-- Raised by `GEN`, `ENC`, `RUN` and a reserved command word while `STATUS.FAULTED` is 1 (R101). -/
  | commandWhileFaulted
  deriving DecidableEq, Repr

/-- How a piece of a command ends: it goes on, or a fault was raised and the command is over (60_exceptions.md R180). -/
inductive Flow where
  | go (s : State)
  | raised (s : State)
  deriving DecidableEq, Repr

end Sys2Proof.Machine
end

