-- ==== Sys2Proof/Machine/Flags.lean ====
section
/-! DEFINITION. The two flags of `STATUS` and the fields of `FAULT` (10_state.md R24, R25; 60_exceptions.md R171). No arithmetic
result sets a flag (R24). -/

namespace Sys2Proof.Machine

/-- `STATUS.FAULTED`, bit 0. -/
def faulted (s : State) : Bool := s.status.getLsbD 0

/-- `STATUS.OUTVALID`, bit 1. -/
def outValid (s : State) : Bool := s.status.getLsbD 1

/-- `STATUS` with `FAULTED` set. -/
def withFaulted (status : Word) : Word := status ||| 1

/-- `STATUS` with `FAULTED` cleared. -/
def withoutFaulted (status : Word) : Word := status &&& ~~~1

/-- `STATUS` with `OUTVALID` set. -/
def withOutValid (status : Word) : Word := status ||| 2

/-- `STATUS` with `OUTVALID` cleared. -/
def withoutOutValid (status : Word) : Word := status &&& ~~~2

/-- The causes (R171). `ioError` is reserved: nothing raises it (R175, log entry 20). -/
inductive Cause where
  | invalidFrequency
  | unsupportedBitDepth
  | configuration
  | ioError
  | illegalCommand
  | bufferFault
  | quantizeNaN
  deriving DecidableEq, Repr

/-- The cause codes (R171). -/
def causeCode : Cause → BitVec 8
  | .invalidFrequency => 1
  | .unsupportedBitDepth => 2
  | .configuration => 3
  | .ioError => 4
  | .illegalCommand => 5
  | .bufferFault => 6
  | .quantizeNaN => 7

/-- `FAULT.CH` of a channel: 0 left, 1 right. -/
def channelBit : Channel → BitVec 1
  | .left => 0
  | .right => 1

/-- The content of `FAULT` (R25): `INFO` in bits 63:32, reserved bits 31:17 zero, `CH` in bit 16, `SUB` in 15:8, `CAUSE` in 7:0. -/
def faultWord (cause : Cause) (sub : BitVec 8) (ch : Channel) (info : BitVec 32) : Word :=
  (info ++ (0 : BitVec 15)) ++ ((channelBit ch ++ sub) ++ causeCode cause)

/-- `FAULT.CAUSE`. -/
def faultCause (f : Word) : BitVec 8 := f.extractLsb' 0 8

/-- `FAULT.SUB`. -/
def faultSub (f : Word) : BitVec 8 := f.extractLsb' 8 8

/-- `FAULT.CH`. -/
def faultChannel (f : Word) : BitVec 1 := f.extractLsb' 16 1

/-- `FAULT.INFO`. -/
def faultInfo (f : Word) : BitVec 32 := f.extractLsb' 32 32

end Sys2Proof.Machine
end

