-- ==== Sys2Proof/Config.lean ====
section
/-! DEFINITION. The parameters that are fixed when the block is built (00_scope.md R5, R10) and the free values. Nothing here has
a value that Lean can see, but for the constants that the spec fixes. -/

namespace Sys2Proof

/-- The open parameters and free values of one built block, raw: the bounds and properties that the spec requires of them are put on
them by the accessors of Machine/Numerics.lean, which change no admissible choice.
* `sbDepth`: `SB_DEPTH` less 1 (R5).
* `sin`, `exp`, `ln`: the pattern of `SIN`, `EXP`, `LN` at an operand (R10).
* `nan32 k`: sign (bit 22) and payload (bits 21:0) of the `NAN32` of the `k`-th draw (R148).
* `nanBits k`: sign (bit 52) and fraction of the NaN pattern that `GEN` puts into a cell with the `k`-th draw (R9, R93).
* `dtOpen`: `DT` when there is no frame, which R111 leaves undefined.
* `f2intOpen x`: `f2int` at a value that is not an integral finite one, which R9 does not state. -/
structure Params where
  sbDepth : Nat
  sin : F64 → Word
  exp : F64 → Word
  ln : F64 → Word
  nan32 : Nat → BitVec 23
  nanBits : Nat → BitVec 53
  dtOpen : Word
  f2intOpen : F64 → Int
  deriving Inhabited

/-- The block that was built. No body: no proof can see a value of it (log entries 5, 6, 7, 8, 10). -/
opaque Config.params : Params

/-- The pattern of `u2f` at an integer that has no equal `F64` or is negative, where R9 states no result. No body: free (log entry 10). -/
opaque Config.u2fOpen : Int → Word

/-- `Q24_ROUND` (R5, R147): the spec's value; the alternative is carried by the type (log entry 9). -/
def Config.q24Round : RoundMode := .tiesToEven

/-- `TWO_PI` (R5). -/
def Config.twoPi : Word := 0x401921FB54442D18

/-- `FADE_SECONDS` (R5). -/
def Config.fadeSeconds : Word := 0x3FA999999999999A

end Sys2Proof
end

