-- ==== Sys2Proof/Machine/Float.lean ====
section
/-! DEFINITION. The floating-point primitives of 00_scope.md R9 (binary64, roundTiesToEven, no flags) and the conversion to binary32 of
43_quantize_pack.md R148, computed exactly on integers and rounded once. The layouts and the special cases are IEEE 754's, which the
spec marks as general knowledge (R7, R9; log entry 11). -/

namespace Sys2Proof.Machine

/-- `n / d` rounded to an integer, ties to the even one, for `d > 0`. -/
def divNearestEven (n d : Nat) : Nat :=
  let q := n / d
  let r := n % d
  if 2 * r < d then q
  else if d < 2 * r then q + 1
  else q + q % 2

/-- `2^k` for `k >= 0`, and 1 for `k < 0`. -/
def pow2 (k : Int) : Nat := 2 ^ k.toNat

/-- The integer `l` with `2^l <= n / d < 2^(l+1)`, for positive `n` and `d`. -/
def ratioLog2 (n d : Nat) : Int :=
  let l : Int := (Nat.log2 n : Int) - (Nat.log2 d : Int)
  if d * pow2 l ≤ n * pow2 (-l) then l else l - 1

/-- The unit in which `n / d * 2^e` is rounded to `prec` significant bits, no smaller than `2^qmin`: its exponent. -/
def roundUnit (prec : Nat) (qmin : Int) (n d : Nat) (e : Int) : Int :=
  max qmin (ratioLog2 n d + e - ((prec : Int) - 1))

/-- `(-1)^neg * (n / d) * 2^e`, `d > 0`, rounded once with ties to even to a format of `prec` significant bits whose values are multiples
of `2^qmin` and at most `(2^prec - 1) * 2^qmax`; beyond that an infinity, and gradual underflow (R9, R148). -/
def roundTo (prec : Nat) (qmin qmax : Int) (neg : Bool) (n d : Nat) (e : Int) : F64 :=
  if n = 0 then .fin neg 0 qmin
  else
    let q := roundUnit prec qmin n d e
    let m := divNearestEven (n * pow2 (e - q)) (d * pow2 (q - e))
    if m = 0 then .fin neg 0 qmin
    else if m = 2 ^ prec then
      if qmax < q + 1 then .inf neg else .fin neg (2 ^ (prec - 1)) (q + 1)
    else if qmax < q then .inf neg else .fin neg m q

/-- Rounding to binary64. -/
def round64 (neg : Bool) (n d : Nat) (e : Int) : F64 := roundTo 53 (-1074) 971 neg n d e

/-- `asF64(u)`: the value of a pattern (R7). -/
def asF64 (u : Word) : F64 :=
  let neg := u.getLsbD 63
  let be := (u.extractLsb' 52 11).toNat
  let frac := (u.extractLsb' 0 52).toNat
  if be = 2047 then (if frac = 0 then .inf neg else .nan)
  else if be = 0 then .fin neg frac (-1074)
  else .fin neg (frac + 2 ^ 52) ((be : Int) - 1075)

/-- The pattern with given sign, biased exponent and fraction (R7). -/
def packF64 (neg : Bool) (be frac : Nat) : Word :=
  BitVec.ofNat 64 ((if neg then 2 ^ 63 else 0) + be * 2 ^ 52 + frac)

/-- `bitsF64(x)`: the pattern of a value; `nanPattern` is the one it has if it is a NaN, which no rule fixes (R9). -/
def bitsF64 (nanPattern : Word) : F64 → Word
  | .nan => nanPattern
  | .inf neg => packF64 neg 2047 0
  | .fin neg m e => if m < 2 ^ 52 then packF64 neg 0 m else packF64 neg (e + 1075).toNat (m - 2 ^ 52)

/-- `isNaN(a)`. -/
def isNaN : F64 → Bool
  | .nan => true
  | _ => false

/-- `isFinite(a)`. -/
def isFinite : F64 → Bool
  | .fin _ _ _ => true
  | _ => false

/-- The sign of a value, false for a NaN. -/
def isNeg : F64 → Bool
  | .nan => false
  | .inf neg => neg
  | .fin neg _ _ => neg

/-- `(-1)^neg * m`. -/
def signedInt (neg : Bool) (m : Nat) : Int := if neg then -(m : Int) else (m : Int)

/-- The rational value of a finite datum, 0 for the others. -/
def value : F64 → ℚ
  | .fin neg m e => (signedInt neg m : ℚ) * 2 ^ e
  | _ => 0

/-- The data that binary64 has, each in its one form (00_scope.md R7). -/
def canonical : F64 → Prop
  | .nan => True
  | .inf _ => True
  | .fin _ m e => m < 2 ^ 53 ∧ -1074 ≤ e ∧ e ≤ 971 ∧ (2 ^ 52 ≤ m ∨ e = -1074)

/-- A finite value counted in units of `2^k`, for `k` at most its exponent. -/
def inUnits (neg : Bool) (m : Nat) (e k : Int) : Int := signedInt neg (m * pow2 (e - k))

/-- The other sign. -/
def fneg : F64 → F64
  | .nan => .nan
  | .inf neg => .inf (!neg)
  | .fin neg m e => .fin (!neg) m e

/-- `fadd(a, b)`. An exact sum of zero is `+0` unless both operands are negative zeros. -/
def fadd : F64 → F64 → F64
  | .nan, _ => .nan
  | .inf _, .nan => .nan
  | .fin _ _ _, .nan => .nan
  | .inf na, .inf nb => if na = nb then .inf na else .nan
  | .inf na, .fin _ _ _ => .inf na
  | .fin _ _ _, .inf nb => .inf nb
  | .fin na ma ea, .fin nb mb eb =>
    let k := min ea eb
    let sum := inUnits na ma ea k + inUnits nb mb eb k
    if sum = 0 then .fin (na && nb) 0 (-1074)
    else round64 (decide (sum < 0)) sum.natAbs 1 k

/-- `fsub(a, b)`. -/
def fsub (a b : F64) : F64 := fadd a (fneg b)

/-- `fmul(a, b)`. -/
def fmul : F64 → F64 → F64
  | .nan, _ => .nan
  | .inf _, .nan => .nan
  | .fin _ _ _, .nan => .nan
  | .inf na, .inf nb => .inf (na != nb)
  | .inf na, .fin nb mb _ => if mb = 0 then .nan else .inf (na != nb)
  | .fin na ma _, .inf nb => if ma = 0 then .nan else .inf (na != nb)
  | .fin na ma ea, .fin nb mb eb => round64 (na != nb) (ma * mb) 1 (ea + eb)

/-- `fdiv(a, b)`. -/
def fdiv : F64 → F64 → F64
  | .nan, _ => .nan
  | .inf _, .nan => .nan
  | .fin _ _ _, .nan => .nan
  | .inf _, .inf _ => .nan
  | .inf na, .fin nb _ _ => .inf (na != nb)
  | .fin na _ _, .inf nb => .fin (na != nb) 0 (-1074)
  | .fin na ma ea, .fin nb mb eb =>
    if mb = 0 then (if ma = 0 then .nan else .inf (na != nb))
    else round64 (na != nb) ma mb (ea - eb)

/-- `flt(a, b)`: quiet, false with a NaN. -/
def flt : F64 → F64 → Bool
  | .nan, _ => false
  | .inf _, .nan => false
  | .fin _ _ _, .nan => false
  | .inf na, .inf nb => na && !nb
  | .inf na, .fin _ _ _ => na
  | .fin _ _ _, .inf nb => !nb
  | .fin na ma ea, .fin nb mb eb =>
    decide (inUnits na ma ea (min ea eb) < inUnits nb mb eb (min ea eb))

/-- `feq(a, b)`: quiet, the two zeros equal. -/
def feq : F64 → F64 → Bool
  | .inf na, .inf nb => na == nb
  | .fin na ma ea, .fin nb mb eb =>
    decide (inUnits na ma ea (min ea eb) = inUnits nb mb eb (min ea eb))
  | _, _ => false

/-- `fle(a, b)`. -/
def fle (a b : F64) : Bool := flt a b || feq a b

/-- `fgt(a, b) = flt(b, a)`. -/
def fgt (a b : F64) : Bool := flt b a

/-- `fge(a, b) = fle(b, a)`. -/
def fge (a b : F64) : Bool := fle b a

/-- `u2f(i)`: the `F64` equal to the unsigned integer `i` (R9), which every integer below `2^53` has. At a negative integer, and where no `F64` is
equal, R9 states no result and it is free (log entry 10); no command gets there. -/
def u2f (i : Int) : F64 :=
  let x := round64 false i.toNat 1 0
  if 0 ≤ i ∧ feq x (.fin false i.toNat 0) = true then x else asF64 (Config.u2fOpen i)

/-- `ffloor(a)`: the largest integral value not above `a`; a zero keeps its sign. A value that is not finite stays as it is (IEEE 754;
R9 states finite operands only, log entry 11). -/
def ffloor : F64 → F64
  | .nan => .nan
  | .inf neg => .inf neg
  | .fin neg m e =>
    if 0 ≤ e then .fin neg m e
    else
      let d := pow2 (-e)
      round64 neg (if neg = true ∧ m % d ≠ 0 then m / d + 1 else m / d) 1 0

/-- `frne(a)`: to an integral value, ties to the even integer, the sign kept (`frne(-0.5) = -0`). -/
def frne : F64 → F64
  | .nan => .nan
  | .inf neg => .inf neg
  | .fin neg m e =>
    if 0 ≤ e then .fin neg m e else round64 neg (divNearestEven m (pow2 (-e))) 1 0

/-- To an integral value toward zero: the alternative of `Q24_ROUND` (R147). -/
def ftrunc : F64 → F64
  | .nan => .nan
  | .inf neg => .inf neg
  | .fin neg m e => if 0 ≤ e then .fin neg m e else round64 neg (m / pow2 (-e)) 1 0

/-- `f2int(a)`: the integer equal to an integral finite value; elsewhere R9 states no result and it is free (log entry 10). -/
def f2int (p : Params) : F64 → Int
  | .fin neg m e =>
    if 0 ≤ e then signedInt neg (m * pow2 e)
    else if m % pow2 (-e) = 0 then signedInt neg (m / pow2 (-e))
    else p.f2intOpen (.fin neg m e)
  | x => p.f2intOpen x

/-- The binary32 pattern with given sign, biased exponent and fraction (R7). -/
def packF32 (neg : Bool) (be frac : Nat) : BitVec 32 :=
  BitVec.ofNat 32 ((if neg then 2 ^ 31 else 0) + be * 2 ^ 23 + frac)

/-- The binary32 pattern of a value that binary32 has; `nan32` is the one of a NaN. -/
def bitsF32 (nan32 : BitVec 32) : F64 → BitVec 32
  | .nan => nan32
  | .inf neg => packF32 neg 255 0
  | .fin neg m e => if m < 2 ^ 23 then packF32 neg 0 m else packF32 neg (e + 150).toNat (m - 2 ^ 23)

/-- A value rounded to binary32 (R148): 24 significant bits, multiples of `2^-149`, largest exponent 104. -/
def narrow32 : F64 → F64
  | .nan => .nan
  | .inf neg => .inf neg
  | .fin neg m e => roundTo 24 (-149) 104 neg m 1 e

/-- `f64to32(a)` (R148). -/
def f64to32 (nan32 : BitVec 32) (x : F64) : BitVec 32 := bitsF32 nan32 (narrow32 x)

/-- The value of a binary32 pattern, as a binary64 value: what a reader of the 32-bit stream decodes (R79, R156). -/
def asF32 (w : BitVec 32) : F64 :=
  let neg := w.getLsbD 31
  let be := (w.extractLsb' 23 8).toNat
  let frac := (w.extractLsb' 0 23).toNat
  if be = 255 then (if frac = 0 then .inf neg else .nan)
  else if be = 0 then round64 neg frac 1 (-149)
  else round64 neg (frac + 2 ^ 23) 1 ((be : Int) - 150)

end Sys2Proof.Machine
end

