-- ==== Sys2Proof/Machine/Numerics.lean ====
section
/-! DEFINITION. The open parameters of 00_scope.md R5 and R10 with the bounds and properties the spec requires of them. Each accessor
ranges over exactly the admissible choices: it gives the raw parameter wherever that is admissible, and an admissible value elsewhere
(`sbDepth` counts from 1; log entries 5, 6, 7, 8). -/

namespace Sys2Proof.Machine

/-- `1.0`. -/
def one : F64 := asF64 0x3FF0000000000000

/-- `-1.0`. -/
def negOne : F64 := asF64 0xBFF0000000000000

/-- `2.0`. -/
def two : F64 := asF64 0x4000000000000000

/-- `32767.0` (43_quantize_pack.md R146). -/
def scale16 : F64 := asF64 0x40DFFFC000000000

/-- `8388607.0` (R147). -/
def scale24 : F64 := asF64 0x415FFFFFC0000000

/-- `TWO_PI` (R5). -/
def twoPi : F64 := asF64 Config.twoPi

/-- `FADE_SECONDS` (R5). -/
def fadeSeconds : F64 := asF64 Config.fadeSeconds

/-- `SB_DEPTH`, from 1 to `2^32 - 1` (R5): every one of these values, and no other, is that of some `p`. -/
def sbDepth (p : Params) : Nat := p.sbDepth % (2 ^ 32 - 1) + 1

/-- `x` is a zero of either sign. -/
def isZero : F64 → Bool
  | .fin _ 0 _ => true
  | _ => false

/-- What `SIN_BOUND` allows at a finite operand (R10). -/
def sinAdmits (r : F64) : Bool := isFinite r && fle negOne r && fle r one

/-- `SIN` with `SIN_ZERO`, `SIN_BOUND`, `SIN_NONFINITE` (R10). -/
def sinFn (p : Params) (x : F64) : F64 :=
  if !isFinite x then .nan
  else if isZero x then x
  else if sinAdmits (asF64 (p.sin x)) then asF64 (p.sin x) else posZero

/-- `EXP` with `EXP_ZERO`, `EXP_POS` (R10); at an infinity or a NaN no property is required. -/
def expFn (p : Params) (x : F64) : F64 :=
  if isZero x then one
  else if isFinite x && !fge (asF64 (p.exp x)) posZero then one
  else asF64 (p.exp x)

/-- What `LN_SIGN` allows at a positive finite operand other than 1 (R10). -/
def lnAdmits (x r : F64) : Bool := isFinite r && (if fgt x one then fgt r posZero else flt r posZero)

/-- `LN` with `LN_ONE`, `LN_SIGN`, `LN_EDGE` (R10). -/
def lnFn (p : Params) (x : F64) : F64 :=
  match x with
  | .nan => .nan
  | .inf neg => if neg then .nan else .inf false
  | .fin _ _ _ =>
    if isZero x then .inf true
    else if flt x posZero then .nan
    else if feq x one then posZero
    else if lnAdmits x (asF64 (p.ln x)) then asF64 (p.ln x)
    else if fgt x one then one else negOne

/-- `NAN32` of the `k`-th draw: exponent `0xFF`, fraction bit 22 set, sign and payload open (R5, R148). -/
def nan32 (p : Params) (k : Nat) : BitVec 32 :=
  ((p.nan32 k).extractLsb' 22 1 ++ (0xFF : BitVec 8)) ++ ((1 : BitVec 1) ++ (p.nan32 k).extractLsb' 0 22)

/-- A NaN pattern with given sign and fraction bits; a fraction of zero would be an infinity and becomes the quiet bit. -/
def nanPattern (b : BitVec 53) : Word :=
  let frac := b.extractLsb' 0 52
  (b.extractLsb' 52 1 ++ (0x7FF : BitVec 11)) ++ (if frac = 0 then (1 : BitVec 52) <<< 51 else frac)

/-- The NaN pattern of a cell of the `k`-th draw (R9, R93). -/
def nanDraw (p : Params) (k : Nat) : Word := nanPattern (p.nanBits k)

end Sys2Proof.Machine
end

