-- ==== Sys2Proof/Machine/Operands.lean ====
section
/-! DEFINITION. How the operations name their operands: registers, fields of `CTRL`, cells, and the per-channel operands of the datapath
(10_state.md R20 to R23; 20_memory.md R50; 41_synth_nco.md R118). -/

namespace Sys2Proof.Machine

/-- `CTRL.SWEEP` as the core reads it: false Linear, true Logarithmic (R22). -/
def sweepLog (s : State) : Bool := ctrlSweep s.ctrl

/-- `CTRL.BITDEPTH` as the core reads it (R22). -/
def bitDepth (s : State) : Nat := ctrlDepth s.ctrl

/-- The number of a channel: 0 left, 1 right (00_scope.md R8). -/
def channelIndex : Channel → Nat
  | .left => 0
  | .right => 1

/-- The address of cell `(n, ch)` of `SB` (log entry 19). -/
def cellAddress (n : Nat) (ch : Channel) : Nat := 2 * n + channelIndex ch

/-- The start frequency of a channel: `F0L` or `F0R` (R118). -/
def startFrequency (s : State) : Channel → F64
  | .left => asF64 s.f0l
  | .right => asF64 s.f0r

/-- The sweep rate of a channel: `KL` or `KR` (R118). -/
def sweepRate (s : State) : Channel → F64
  | .left => s.work.kl
  | .right => s.work.kr

/-- The time of a channel: `t` for the left, `tR` for the right (R118). -/
def channelTime (s : State) : Channel → F64
  | .left => s.work.t
  | .right => s.work.tR

/-- The sine value of a channel. -/
def sineValue (s : State) : Channel → F64
  | .left => s.work.sL
  | .right => s.work.sR

/-- The faded value of a channel. -/
def fadedValue (s : State) : Channel → F64
  | .left => s.work.xL
  | .right => s.work.xR

/-- The temporaries with the sine value of a channel set. -/
def setSine (w : Work) (v : F64) : Channel → Work
  | .left => { w with sL := v }
  | .right => { w with sR := v }

/-- The temporaries with the faded value of a channel set. -/
def setFaded (w : Work) (v : F64) : Channel → Work
  | .left => { w with xL := v }
  | .right => { w with xR := v }

/-- The temporaries with the final value of a channel set. -/
def setFinal (w : Work) (v : F64) : Channel → Work
  | .left => { w with vL := v }
  | .right => { w with vR := v }

/-- A count as a `U32`, zero-extended to a register (R23, R26, 00_scope.md R11). -/
def countWord (i : Int) : Word := (BitVec.ofInt 32 i).setWidth 64

end Sys2Proof.Machine
end

