-- ==== Sys2Proof/Machine/Ops.lean ====
section
/-! DEFINITION. The named operations over registers, buffers and faults: every access of the model goes through one of them. -/

namespace Sys2Proof.Machine

/-- The canonical form of `SB`: addresses strictly rising. -/
abbrev Memory.wf (m : Memory) : Prop := (m.map Prod.fst).Pairwise (· < ·)

/-- The cell at an address, none where it holds no value (10_state.md R29). -/
def Memory.read : Memory → Nat → Option Word
  | [], _ => none
  | (b, w) :: m, a => if a = b then some w else Memory.read m a

/-- The memory with a cell written; the canonical form is kept. -/
def Memory.write : Memory → Nat → Word → Memory
  | [], a, v => [(a, v)]
  | (b, w) :: m, a, v =>
    if a < b then (a, v) :: (b, w) :: m
    else if a = b then (a, v) :: m
    else (b, w) :: Memory.write m a v

/-- `CR[i]` as the host reads it; `CMD` reads 0 (40_host_commands.md R91). -/
def readReg (s : State) : Reg → Word
  | .ctrl => s.ctrl
  | .duration => s.duration
  | .sampleRate => s.sampleRate
  | .f0l => s.f0l
  | .f1l => s.f1l
  | .f0r => s.f0r
  | .f1r => s.f1r
  | .delay => s.delay
  | .volume => s.volume
  | .sblen => s.sblen
  | .status => s.status
  | .fault => s.fault
  | .dlen => s.dlen
  | .flen => s.flen
  | .outlen => s.outlen
  | .cmd => 0

/-- The implemented bits of `CTRL` (R22, R90). -/
def ctrlMask : Word := 0xFF01

/-- The host's write of a register other than `CMD` (R90): `CTRL` and `SBLEN` keep their implemented bits, the operand registers the whole
pattern, the read-only registers ignore the write. (`CMD` holds nothing: its write is a command, `execWcr`.) -/
def writeReg (s : State) (r : Reg) (v : Word) : State :=
  match r with
  | .ctrl => { s with ctrl := v &&& ctrlMask }
  | .duration => { s with duration := v }
  | .sampleRate => { s with sampleRate := v }
  | .f0l => { s with f0l := v }
  | .f1l => { s with f1l := v }
  | .f0r => { s with f0r := v }
  | .f1r => { s with f1r := v }
  | .delay => { s with delay := v }
  | .volume => { s with volume := v }
  | .sblen => { s with sblen := (v.extractLsb' 0 32).setWidth 64 }
  | .status => s
  | .fault => s
  | .dlen => s
  | .flen => s
  | .outlen => s
  | .cmd => s

/-- `MemRead(SB, n, ch)` (00_scope.md R8). -/
def readCell (s : State) (n : Nat) (ch : Channel) : Option Word := Memory.read s.sb (cellAddress n ch)

/-- `MemWrite(SB, n, ch, v)` of a pattern (00_scope.md R8). -/
def writeCell (s : State) (n : Nat) (ch : Channel) (v : Word) : State :=
  { s with sb := Memory.write s.sb (cellAddress n ch) v }

/-- `MemRead(OUT, j, 1)` (00_scope.md R8), none at or above the number of bytes. -/
def readOut (s : State) (j : Nat) : Option Byte := s.out[j]?

/-- `OutAppend(b)` (00_scope.md R8). -/
def appendOut (s : State) (b : List Byte) : State := { s with out := s.out ++ b }

/-- `OUT <- empty ; OUTLEN <- 0 ; STATUS.OUTVALID <- 0`: the start of `ENC` and its fault entry (40_host_commands.md R98,
60_exceptions.md R180). -/
def emptyOut (s : State) : State := { s with out := [], outlen := 0, status := withoutOutValid s.status }

/-- Fault entry, `raise X(sub, info) with CH = ch` (60_exceptions.md R180): the cause is recorded, `FAULTED` set, and out of `ENC` the
output is emptied. Nothing else changes: no state is saved, no mode changes, control goes nowhere. -/
def raiseFault (inEnc : Bool) (cause : Cause) (sub : BitVec 8) (ch : Channel) (info : BitVec 32) (s : State) : State :=
  let s1 := { s with fault := faultWord cause sub ch info, status := withFaulted s.status }
  if inEnc then emptyOut s1 else s1

/-- Fault return, the effect of `CLR` (60_exceptions.md R181, 40_host_commands.md R100). -/
def clearFault (s : State) : State := { s with fault := 0, status := withoutFaulted s.status }

/-- The state a piece of a command left, whether it went on or raised a fault. -/
def Flow.state : Flow → State
  | .go s => s
  | .raised s => s

/-- What follows is performed only if no fault was raised (60_exceptions.md R180). -/
def Flow.bind (f : Flow) (k : State → Flow) : Flow :=
  match f with
  | .go s => k s
  | .raised s => .raised s

/-- The command is over: none of its temporaries is carried on (10_state.md R32). -/
def endCommand (s : State) : State := { s with work := Work.idle }

end Sys2Proof.Machine
end

