-- ==== Sys2Proof/Machine/Envelope.lean ====
section
/-! DEFINITION. The envelope multiplier: mute, fade, volume, frame assembly (42_envelope.md). -/

namespace Sys2Proof.Machine

/-- `MUTE` (R130), of the right channel only. The first frame it leaves alone is evaluated at the time that `TSHIFT` gives, which is above 0
where frame `D` comes later than the delay (`D` rounded up, or `DT` above one period of the rate), though R138 infers that its sample is a
zero of the sine (log entry 23). -/
def mute (s : State) : State :=
  { s with work := { s.work with sR := if (s.work.n : Int) < s.work.bigD then posZero else s.work.sR } }

/-- The fade gain of frame `n` of `N` frames with a window of `F` (R131). -/
def fadeGain (n bigN bigF : Int) : F64 :=
  if bigF = 0 then one
  else if n < bigF then
    if bigF = 1 then posZero else fdiv (u2f n) (u2f (bigF - 1))
  else if bigN - bigF ≤ n then
    if bigF = 1 then posZero else fdiv (u2f (bigF - 1 - (n - (bigN - bigF)))) (u2f (bigF - 1))
  else one

/-- `FADE` (R131). -/
def fade (s : State) : State := { s with work := { s.work with g := fadeGain s.work.n s.work.bigN s.work.bigF } }

/-- `FADE.APPLY` to a channel (R132). -/
def fadeApply (ch : Channel) (s : State) : State :=
  { s with work := setFaded s.work (fmul (sineValue s ch) s.work.g) ch }

/-- `VOL` of a channel (R133). What its corner cases, R130 and R135 say of a zero volume is in log entry 23. -/
def vol (ch : Channel) (s : State) : State :=
  { s with work := setFinal s.work (fmul (fadedValue s ch) (asF64 s.volume)) ch }

/-- The pattern in which the datapath's value enters a cell; the pattern of a NaN is the `k`-th draw (00_scope.md R9, log entry 8). -/
def storedPattern (p : Params) (k : Nat) (v : F64) : Word := bitsF64 (nanDraw p k) v

/-- `FRAME` (R134): both cells of frame `n`. Each of the two stores has a draw of its own. -/
def frameStore (p : Params) (s : State) : State :=
  let s1 := writeCell s s.work.n .left (storedPattern p s.draws s.work.vL)
  let s2 := writeCell s1 s.work.n .right (storedPattern p (s.draws + 1) s.work.vR)
  { s2 with draws := s.draws + 2 }

/-- `MUTE` alone. -/
def execMute (s : State) : Host.Outcome State Fault Refusal := .next (mute s)

/-- `FADE` alone. -/
def execFade (s : State) : Host.Outcome State Fault Refusal := .next (fade s)

/-- `FADE.APPLY` alone. -/
def execFadeApply (ch : Channel) (s : State) : Host.Outcome State Fault Refusal := .next (fadeApply ch s)

/-- `VOL` alone. -/
def execVol (ch : Channel) (s : State) : Host.Outcome State Fault Refusal := .next (vol ch s)

/-- `FRAME` alone. `GEN` performs it only with `n < N <= SB_DEPTH` (R134); with another frame counter the cell does not exist
(log entry 16). -/
def execFrame (s : State) : Host.Outcome State Fault Refusal :=
  if s.work.n < sbDepth Config.params then .next (frameStore Config.params s) else .fault .noSuchCell

end Sys2Proof.Machine
end

