-- ==== Sys2Proof/Machine/Quantize.lean ====
section
/-! DEFINITION. The quantizer and the PCM byte packer (43_quantize_pack.md, 30_encoding.md R77 to R80). -/

namespace Sys2Proof.Machine

/-- The clipped value of a value that is not a NaN (R145). -/
def clipValue (x : F64) : F64 := if fgt x one then one else if flt x negOne then negOne else x

/-- `CLIP` (R145). -/
def clip (s : State) : State := { s with work := { s.work with c := clipValue s.work.x } }

/-- An integral value by a conversion mode (R146, R147). -/
def toIntegral : RoundMode → F64 → F64
  | .tiesToEven, y => frne y
  | .towardZero, y => ftrunc y

/-- The integer of a clipped value: scaled, rounded to binary64 by `fmul`, then converted (R146, R147). -/
def quantizeValue (p : Params) (mode : RoundMode) (scale c : F64) : Int := f2int p (toIntegral mode (fmul c scale))

/-- The NaN check of the integer depths, then `CLIP`, then the conversion (R146, R147, R155). A NaN raises QuantizeNaN out of `ENC` at the
sample `(n, ch)` (60_exceptions.md R178). -/
def quantize (p : Params) (mode : RoundMode) (scale : F64) (s : State) : Flow :=
  if isNaN s.work.x then .raised (raiseFault true .quantizeNaN 0 s.work.ch (BitVec.ofNat 32 s.work.n) s)
  else
    let s1 := clip s
    .go { s1 with work := { s1.work with q := quantizeValue p mode scale s1.work.c } }

/-- `Q16` (R146). -/
def q16 (p : Params) (s : State) : Flow := quantize p .tiesToEven scale16 s

/-- `Q24` (R147). -/
def q24 (p : Params) (s : State) : Flow := quantize p Config.q24Round scale24 s

/-- `F32` (R148). The pattern of a NaN is a draw (log entry 7). -/
def f32 (p : Params) (s : State) : State :=
  { s with work := { s.work with w := f64to32 (nan32 p s.draws) s.work.x }, draws := s.draws + 1 }

/-- The first `k` bytes of a word, the least significant first (20_memory.md R52). -/
def littleEndian (k : Nat) {w : Nat} (u : BitVec w) : List Byte :=
  (List.range k).map fun i => u.extractLsb' (8 * i) 8

/-- `PACK16` (R149): the two bytes of `q mod 2^16`. -/
def pack16 (s : State) : State := { s with work := { s.work with bytes := littleEndian 2 (BitVec.ofInt 16 s.work.q) } }

/-- `PACK24` (R150): the first three of the four bytes of `q mod 2^32`. -/
def pack24 (s : State) : State :=
  { s with work := { s.work with bytes := (littleEndian 4 (BitVec.ofInt 32 s.work.q)).take 3 } }

/-- `PACK32` (R151). -/
def pack32 (s : State) : State := { s with work := { s.work with bytes := littleEndian 4 s.work.w } }

/-- `FRAMEPACK` (R152): the sample's bytes are appended to `OUT`. -/
def framepack (s : State) : State := appendOut s s.work.bytes

/-- `CLIP` alone. -/
def execClip (s : State) : Host.Outcome State Fault Refusal := .next (clip s)

/-- `Q16` alone. -/
def execQ16 (s : State) : Host.Outcome State Fault Refusal := .next (q16 Config.params s).state

/-- `Q24` alone. -/
def execQ24 (s : State) : Host.Outcome State Fault Refusal := .next (q24 Config.params s).state

/-- `F32` alone. -/
def execF32 (s : State) : Host.Outcome State Fault Refusal := .next (f32 Config.params s)

/-- `PACK16` alone. -/
def execPack16 (s : State) : Host.Outcome State Fault Refusal := .next (pack16 s)

/-- `PACK24` alone. -/
def execPack24 (s : State) : Host.Outcome State Fault Refusal := .next (pack24 s)

/-- `PACK32` alone. -/
def execPack32 (s : State) : Host.Outcome State Fault Refusal := .next (pack32 s)

/-- `FRAMEPACK` alone. -/
def execFramepack (s : State) : Host.Outcome State Fault Refusal := .next (framepack s)

end Sys2Proof.Machine
end

