-- ==== Sys2Proof/Machine/Synth.lean ====
section
/-! DEFINITION. `VALIDATE` (60_exceptions.md R172, R173) and the NCO: counts, sweep rate, time axis, phase and sine (41_synth_nco.md).
Each operation is a function of the parameters and the state; `exec…` runs it alone. -/

namespace Sys2Proof.Machine

/-- The four frequencies in the order in which the clauses test them (R173). -/
def frequencies (s : State) : List F64 := [asF64 s.f0l, asF64 s.f1l, asF64 s.f0r, asF64 s.f1r]

/-- The first clause of the input contract that fails, with the cause and sub-code it raises (R172, R173); none if all hold. -/
def failedClause (p : Params) (s : State) : Option (Cause × BitVec 8) :=
  if !(isFinite (asF64 s.duration) && fgt (asF64 s.duration) posZero) then some (.configuration, 1)
  else if !(isFinite (asF64 s.sampleRate) && fgt (asF64 s.sampleRate) posZero) then some (.configuration, 2)
  else if !(isFinite (asF64 s.delay) && fge (asF64 s.delay) posZero) then some (.configuration, 3)
  else if !(fge (asF64 s.volume) posZero && fle (asF64 s.volume) one) then some (.configuration, 4)
  else if sweepLog s && (frequencies s).any (fun f => !fgt f posZero) then some (.invalidFrequency, 0)
  else if (frequencies s).any (fun f => !(isFinite f && fgt f posZero)) then some (.configuration, 5)
  else if feq (asF64 s.f0l) (asF64 s.f1l) || feq (asF64 s.f0r) (asF64 s.f1r) then some (.configuration, 6)
  else if fge (fmul (asF64 s.sampleRate) (asF64 s.duration)) (u2f ((sbDepth p : Int) + 1)) then some (.configuration, 7)
  else none

/-- `VALIDATE`, the first step of `GEN` (R173). -/
def validate (p : Params) (s : State) : Flow :=
  match failedClause p s with
  | some (cause, sub) => .raised (raiseFault false cause sub .left 0 s)
  | none => .go s

/-- `DERIVE.N` (R110). -/
def deriveN (p : Params) (s : State) : State :=
  { s with work := { s.work with bigN := f2int p (ffloor (fmul (asF64 s.sampleRate) (asF64 s.duration))) } }

/-- `DERIVE.DT` (R111); with no frame `DT` is undefined and free (log entry 10). -/
def deriveDt (p : Params) (s : State) : State :=
  { s with work :=
    { s.work with dt := if 0 < s.work.bigN then fdiv (asF64 s.duration) (u2f s.work.bigN) else asF64 p.dtOpen } }

/-- `DERIVE.D` (R112): `D` is rounded to the nearest frame, up or down (log entry 23). -/
def deriveD (p : Params) (s : State) : State :=
  let prod := fmul (asF64 s.delay) (asF64 s.sampleRate)
  { s with work := { s.work with bigD := if fge prod (u2f s.work.bigN) then s.work.bigN else f2int p (frne prod) } }

/-- `DERIVE.F` (R113); the quarter is rounded down. -/
def deriveF (p : Params) (s : State) : State :=
  let fn := ffloor (fmul fadeSeconds (asF64 s.sampleRate))
  { s with work :=
    { s.work with bigF := if fgt (fmul two fn) (u2f s.work.bigN) then s.work.bigN.fdiv 4 else f2int p fn } }

/-- `DERIVE.KLIN` (R114). The quotient underflows to zero for extreme operands, though R114's corner cases say that the rate is never zero
(log entry 23). -/
def deriveKlin (s : State) : State :=
  { s with work := { s.work with
    kl := fdiv (fsub (asF64 s.f1l) (asF64 s.f0l)) (asF64 s.duration)
    kr := fdiv (fsub (asF64 s.f1r) (asF64 s.f0r)) (asF64 s.duration) } }

/-- `DERIVE.KLOG` (R115). For extreme operands the rate is a zero or an infinity; what `PHASE.LOG` makes of it is log entry 23. -/
def deriveKlog (p : Params) (s : State) : State :=
  { s with work := { s.work with
    kl := fdiv (lnFn p (fdiv (asF64 s.f1l) (asF64 s.f0l))) (asF64 s.duration)
    kr := fdiv (lnFn p (fdiv (asF64 s.f1r) (asF64 s.f0r))) (asF64 s.duration) } }

/-- The sweep rate by `CTRL.SWEEP` (30_encoding.md R75, 40_host_commands.md R97). -/
def deriveRate (p : Params) (s : State) : State := if sweepLog s then deriveKlog p s else deriveKlin s

/-- `TIME` (R116): a product, nothing accumulates. -/
def timeOp (s : State) : State := { s with work := { s.work with t := fmul (u2f s.work.n) s.work.dt } }

/-- The right channel's effective time at time `t` under delay `dl` (R117): the delay itself is subtracted, not the `D` frames of `MUTE`
(log entry 23). -/
def shiftedTime (dl t : F64) : F64 :=
  if fgt dl posZero then
    let d := fsub t dl
    if flt d posZero then posZero else d
  else t

/-- `TSHIFT` (R117). -/
def tshift (s : State) : State := { s with work := { s.work with tR := shiftedTime (asF64 s.delay) s.work.t } }

/-- The linear-sweep sample of start frequency `f0` and rate `k` at time `tc` (R118). With an infinite rate the sample at time 0, and with a
phase that overflows any sample, is a NaN, beside R118's corner cases (log entry 23). -/
def phaseLinValue (p : Params) (f0 k tc : F64) : F64 :=
  let a := fmul f0 tc
  let b := fdiv (fmul k (fmul tc tc)) two
  let ph := fadd a b
  sinFn p (fmul twoPi ph)

/-- The logarithmic-sweep sample of start frequency `f0` and rate `k` at time `tc` (R119). With an infinite rate `EXP` is taken at an infinity or a
NaN, where R10 leaves it open, and a finite value of it gives a zero sample, though R115 says an infinity or a NaN (log entry 23). -/
def phaseLogValue (p : Params) (f0 k tc : F64) : F64 :=
  let e := expFn p (fmul k tc)
  let u := fsub e one
  sinFn p (fdiv (fmul (fmul twoPi f0) u) k)

/-- `PHASE.LIN` of a channel (R118). -/
def phaseLin (p : Params) (ch : Channel) (s : State) : State :=
  { s with work := setSine s.work (phaseLinValue p (startFrequency s ch) (sweepRate s ch) (channelTime s ch)) ch }

/-- `PHASE.LOG` of a channel (R119). -/
def phaseLog (p : Params) (ch : Channel) (s : State) : State :=
  { s with work := setSine s.work (phaseLogValue p (startFrequency s ch) (sweepRate s ch) (channelTime s ch)) ch }

/-- The phase and sine of a channel by `CTRL.SWEEP` (30_encoding.md R75, 40_host_commands.md R97). -/
def phaseOp (p : Params) (ch : Channel) (s : State) : State := if sweepLog s then phaseLog p ch s else phaseLin p ch s

/-- `VALIDATE` alone. -/
def execValidate (s : State) : Host.Outcome State Fault Refusal := .next (validate Config.params s).state

/-- `DERIVE.N` alone. -/
def execDeriveN (s : State) : Host.Outcome State Fault Refusal := .next (deriveN Config.params s)

/-- `DERIVE.DT` alone. -/
def execDeriveDt (s : State) : Host.Outcome State Fault Refusal := .next (deriveDt Config.params s)

/-- `DERIVE.D` alone. -/
def execDeriveD (s : State) : Host.Outcome State Fault Refusal := .next (deriveD Config.params s)

/-- `DERIVE.F` alone. -/
def execDeriveF (s : State) : Host.Outcome State Fault Refusal := .next (deriveF Config.params s)

/-- `DERIVE.KLIN` alone. -/
def execDeriveKlin (s : State) : Host.Outcome State Fault Refusal := .next (deriveKlin s)

/-- `DERIVE.KLOG` alone. -/
def execDeriveKlog (s : State) : Host.Outcome State Fault Refusal := .next (deriveKlog Config.params s)

/-- `TIME` alone. -/
def execTime (s : State) : Host.Outcome State Fault Refusal := .next (timeOp s)

/-- `TSHIFT` alone. -/
def execTshift (s : State) : Host.Outcome State Fault Refusal := .next (tshift s)

/-- `PHASE.LIN` alone. -/
def execPhaseLin (ch : Channel) (s : State) : Host.Outcome State Fault Refusal := .next (phaseLin Config.params ch s)

/-- `PHASE.LOG` alone. -/
def execPhaseLog (ch : Channel) (s : State) : Host.Outcome State Fault Refusal := .next (phaseLog Config.params ch s)

end Sys2Proof.Machine
end

