-- ==== Sys2Proof/Machine/Commands.lean ====
section
/-! DEFINITION. The commands: `NOP`, `GEN`, `ENC`, `RUN`, `CLR`, and command dispatch (40_host_commands.md R95 to R102). `GEN` and `ENC`
are the sequences of R97 and R98 over the operations of the other families. -/

namespace Sys2Proof.Machine

/-- The loop body of `GEN`: one frame at the frame counter (R97). -/
def genFrame (p : Params) (s : State) : State :=
  let s := tshift (timeOp s)
  let s := phaseOp p .right (phaseOp p .left s)
  let s := fade (mute s)
  let s := vol .left (fadeApply .left s)
  let s := vol .right (fadeApply .right s)
  frameStore p s

/-- The temporaries at the next frame: the counter rises by one (10_state.md R31). -/
def nextFrame (s : State) : State := { s with work := { s.work with n := s.work.n + 1 } }

/-- `k` frames from the frame counter on. -/
def genFrames (p : Params) : Nat → State → State
  | 0, s => s
  | k + 1, s => genFrames p k (nextFrame (genFrame p s))

/-- The derived values of a `GEN` (R97). -/
def genDerive (p : Params) (s : State) : State :=
  deriveRate p (deriveF p (deriveD p (deriveDt p (deriveN p s))))

/-- `SBLEN <- N ; DLEN <- D ; FLEN <- F`, and the frame counter at 0 (R97). -/
def latchCounts (s : State) : State :=
  { s with
    sblen := countWord s.work.bigN
    dlen := countWord s.work.bigD
    flen := countWord s.work.bigF
    work := { s.work with n := 0 } }

/-- What `GEN` does once `VALIDATE` has passed (R97). -/
def genBody (p : Params) (s : State) : State :=
  let s1 := latchCounts (genDerive p s)
  genFrames p s1.work.bigN.toNat s1

/-- `GEN` (R97). -/
def gen (p : Params) (s : State) : State :=
  match validate p s with
  | .raised s1 => endCommand s1
  | .go s1 => endCommand (genBody p s1)

/-- The quantizer and packer that a depth selects, for the depths that have one (30_encoding.md R75, R98). -/
def encodeOp (p : Params) (b : Nat) (s : State) : Flow :=
  if b = 16 then (q16 p s).bind fun s1 => .go (pack16 s1)
  else if b = 24 then (q24 p s).bind fun s1 => .go (pack24 s1)
  else .go (pack32 (f32 p s))

/-- One sample of `ENC` at the frame counter (R98): a cell that holds no value raises BufferFault 2 (60_exceptions.md R177). -/
def encSample (p : Params) (b : Nat) (ch : Channel) (s : State) : Flow :=
  let s := { s with work := { s.work with ch := ch } }
  match readCell s s.work.n ch with
  | none => .raised (raiseFault true .bufferFault 2 ch (BitVec.ofNat 32 s.work.n) s)
  | some c =>
    (encodeOp p b { s with work := { s.work with x := asF64 c } }).bind fun s1 => .go (framepack s1)

/-- One frame of `ENC`: left, then right (R98). -/
def encFrame (p : Params) (b : Nat) (s : State) : Flow :=
  (encSample p b .left s).bind (encSample p b .right)

/-- `k` frames of `ENC` from the frame counter on. -/
def encFrames (p : Params) (b : Nat) : Nat → State → Flow
  | 0, s => .go s
  | k + 1, s => (encFrame p b s).bind fun s1 => encFrames p b k (nextFrame s1)

/-- The successful end of `ENC` (R98, 43_quantize_pack.md R153). -/
def finishEnc (b : Nat) (s : State) : State :=
  { s with
    outlen := BitVec.ofNat 64 (s.sblen.toNat * 2 * (b / 8))
    status := withOutValid s.status }

/-- `ENC` after it has emptied the output (R98). -/
def encBody (p : Params) (s : State) : Flow :=
  let b := bitDepth s
  if b = 16 ∨ b = 24 ∨ b = 32 then
    if sbDepth p < s.sblen.toNat then .raised (raiseFault true .bufferFault 1 .left 0 s)
    else
      (encFrames p b s.sblen.toNat { s with work := { s.work with n := 0 } }).bind fun s1 => .go (finishEnc b s1)
  else .raised (raiseFault true .unsupportedBitDepth 0 .left 0 s)

/-- `ENC` (R98). -/
def enc (p : Params) (s : State) : State := endCommand (encBody p (emptyOut s)).state

/-- `RUN`: `GEN`, then `ENC` if `GEN` did not fault (R99). -/
def run (p : Params) (s : State) : State :=
  let s1 := gen p s
  if faulted s1 then s1 else enc p s1

/-- `NOP` (R96): accepted in every state, changes nothing. -/
def execNop (s : State) : Host.Outcome State Fault Refusal := .next s

/-- `GEN` as a command: refused while faulted (R95, R101). -/
def execGen (s : State) : Host.Outcome State Fault Refusal :=
  if faulted s then .refused .commandWhileFaulted else .next (gen Config.params s)

/-- `ENC` as a command: refused while faulted (R95, R101). -/
def execEnc (s : State) : Host.Outcome State Fault Refusal :=
  if faulted s then .refused .commandWhileFaulted else .next (enc Config.params s)

/-- `RUN` as a command: refused while faulted (R95, R101). -/
def execRun (s : State) : Host.Outcome State Fault Refusal :=
  if faulted s then .refused .commandWhileFaulted else .next (run Config.params s)

/-- `CLR` (R100): accepted in every state. -/
def execClr (s : State) : Host.Outcome State Fault Refusal := .next (clearFault s)

/-- A reserved command word: IllegalCommand with the word's low half, refused while faulted (R95, 60_exceptions.md R176). -/
def reservedCommand (v : Word) (s : State) : Host.Outcome State Fault Refusal :=
  if faulted s then .refused .commandWhileFaulted
  else .next (raiseFault false .illegalCommand 0 .left (v.extractLsb' 0 32) s)

/-- Command dispatch (R95): the command a word written to `CMD` encodes. -/
def dispatchCommand (v : Word) (s : State) : Host.Outcome State Fault Refusal :=
  if v = 0 then execNop s
  else if v = 1 then execGen s
  else if v = 2 then execEnc s
  else if v = 3 then execRun s
  else if v = 15 then execClr s
  else reservedCommand v s

end Sys2Proof.Machine
end

