-- ==== Sys2Proof/Machine/HostPort.lean ====
section
/-! DEFINITION. The host's transactions: `WCR`, `RCR`, `WSB`, `RSB`, `ROUT` (40_host_commands.md R90 to R94). A transaction that is not
admitted is refused and performs nothing (20_memory.md R57, R59). -/

namespace Sys2Proof.Machine

/-- `WCR` (R90): accepted in every state; no value is checked; a write of `CMD` executes the command. -/
def execWcr (r : Reg) (v : Word) (s : State) : Host.Outcome State Fault Refusal :=
  match r with
  | .cmd => dispatchCommand v s
  | _ => .next (writeReg s r v)

/-- `RCR` (R91): the reply is the register; nothing else changes. -/
def execRcr (r : Reg) (s : State) : Host.Outcome State Fault Refusal :=
  .next { s with reply := .word (readReg s r) }

/-- `WSB` (R92): any pattern may be written. -/
def execWsb (n : Word) (ch : Channel) (v : Word) (s : State) : Host.Outcome State Fault Refusal :=
  if n.toNat < sbDepth Config.params then .next (writeCell s n.toNat ch v) else .refused .frameBeyondBuffer

/-- `RSB` (R93): the reply is the exact pattern; a cell that holds no value cannot be read. -/
def execRsb (n : Word) (ch : Channel) (s : State) : Host.Outcome State Fault Refusal :=
  if n.toNat < sbDepth Config.params then
    match readCell s n.toNat ch with
    | some v => .next { s with reply := .word v }
    | none => .refused .cellHoldsNoValue
  else .refused .frameBeyondBuffer

/-- `ROUT` (R94): refused at or above `OUTLEN`; between commands `OUT` has `OUTLEN` bytes (10_state.md R27, R30). -/
def execRout (j : Word) (s : State) : Host.Outcome State Fault Refusal :=
  if j.toNat < s.outlen.toNat then
    match readOut s j.toNat with
    | some b => .next { s with reply := .byte b }
    | none => .refused .offsetBeyondStream
  else .refused .offsetBeyondStream

end Sys2Proof.Machine
end

