-- ==== Sys2Proof/Machine/Dispatch.lean ====
section
/-! DEFINITION. The meaning of every operation: one arm per constructor of `Instr`. -/

namespace Sys2Proof.Machine

/-- One operation. The commands and transactions are the host's; the other operations are those a command is made of, run alone. -/
def exec (i : Instr) (s : State) : Host.Outcome State Fault Refusal :=
  match i with
  | .wcr r v => Sys2Proof.Machine.execWcr r v s
  | .rcr r => Sys2Proof.Machine.execRcr r s
  | .wsb n ch v => Sys2Proof.Machine.execWsb n ch v s
  | .rsb n ch => Sys2Proof.Machine.execRsb n ch s
  | .rout j => Sys2Proof.Machine.execRout j s
  | .nop => Sys2Proof.Machine.execNop s
  | .gen => Sys2Proof.Machine.execGen s
  | .enc => Sys2Proof.Machine.execEnc s
  | .run => Sys2Proof.Machine.execRun s
  | .clr => Sys2Proof.Machine.execClr s
  | .deriveKlin => Sys2Proof.Machine.execDeriveKlin s
  | .phaseLin ch => Sys2Proof.Machine.execPhaseLin ch s
  | .deriveKlog => Sys2Proof.Machine.execDeriveKlog s
  | .phaseLog ch => Sys2Proof.Machine.execPhaseLog ch s
  | .q16 => Sys2Proof.Machine.execQ16 s
  | .pack16 => Sys2Proof.Machine.execPack16 s
  | .q24 => Sys2Proof.Machine.execQ24 s
  | .pack24 => Sys2Proof.Machine.execPack24 s
  | .f32 => Sys2Proof.Machine.execF32 s
  | .pack32 => Sys2Proof.Machine.execPack32 s
  | .validate => Sys2Proof.Machine.execValidate s
  | .deriveN => Sys2Proof.Machine.execDeriveN s
  | .deriveDt => Sys2Proof.Machine.execDeriveDt s
  | .deriveD => Sys2Proof.Machine.execDeriveD s
  | .deriveF => Sys2Proof.Machine.execDeriveF s
  | .time => Sys2Proof.Machine.execTime s
  | .tshift => Sys2Proof.Machine.execTshift s
  | .mute => Sys2Proof.Machine.execMute s
  | .fade => Sys2Proof.Machine.execFade s
  | .fadeApply ch => Sys2Proof.Machine.execFadeApply ch s
  | .vol ch => Sys2Proof.Machine.execVol ch s
  | .frame => Sys2Proof.Machine.execFrame s
  | .clip => Sys2Proof.Machine.execClip s
  | .framepack => Sys2Proof.Machine.execFramepack s

end Sys2Proof.Machine
end

