-- ==== Sys2Proof/Machine/Step.lean ====
section
/-! DEFINITION. One step of the machine: the next thing that happens to the block, whole (00_scope.md R6, 20_memory.md R57). -/

namespace Sys2Proof.Machine

/-- The operation of an encoding, or the refusal of one that stands for none (30_encoding.md R71, R81). -/
def execCode (c : Code) (s : State) : Host.Outcome State Fault Refusal :=
  match decode c with
  | .ok i => exec i s
  | .reject r => .refused (.malformed r)

/-- The block right after a reset: what the host and the platform have yet to do, and the count of draws, are not the block's and stay
(70_reset_and_hazards.md R190, R191; log entry 12). -/
def resetBlock (s : State) (rest : List Input) : State := { State.reset with inbox := rest, draws := s.draws }

/-- One step. At a place of a command's sequence (which no transaction leaves behind: log entry 2), that one operation. Else the next
input: a reset, or a transaction with the command it starts. With no input the block is idle and keeps all its state
(60_exceptions.md R185). -/
def step (s : State) : Host.Outcome State Fault Refusal :=
  match s.stage, s.inbox with
  | some st, _ => execCode (.place st s.ctrl) { s with stage := none }
  | none, [] => .next s
  | none, .reset :: rest => .next (resetBlock s rest)
  | none, .transaction h a v :: rest => execCode (.transaction h a v) { s with inbox := rest, reply := .none }

/-- The state with an encoding placed where the next step takes it: a transaction at the head of the inbox, or a place of a
command's sequence with the content of `CTRL` that selects the operation there (log entries 1, 2, 3). -/
def State.withCode (s : State) (c : Code) : State :=
  match c with
  | .transaction h a v => { s with stage := none, inbox := .transaction h a v :: s.inbox }
  | .place st ctrl => { s with stage := some st, ctrl := ctrl &&& ctrlMask }

/-- The state with a table word placed where the next step takes it (log entry 3). -/
def State.withFetchWord (s : State) (nbits w : Nat) : State :=
  match tableCode nbits w with
  | some c => s.withCode c
  | none => s

end Sys2Proof.Machine
end

