-- ==== Sys2Proof/Machine/ClosedForm.lean ====
section
/-! DEFINITION. What the commands compute, without their loops: every frame of `GEN` and every sample of `ENC` is a pure function of its
index and of the state in which the command starts (10_state.md R31, R33). The statements speak in these terms. -/

namespace Sys2Proof.Machine

/-- `N` of the configuration in `s` (41_synth_nco.md R110). -/
def countN (p : Params) (s : State) : Int := f2int p (ffloor (fmul (asF64 s.sampleRate) (asF64 s.duration)))

/-- `DT` (R111), used only where there is a frame. -/
def stepDt (p : Params) (s : State) : F64 := fdiv (asF64 s.duration) (u2f (countN p s))

/-- `D` (R112). -/
def countD (p : Params) (s : State) : Int :=
  if fge (fmul (asF64 s.delay) (asF64 s.sampleRate)) (u2f (countN p s)) then countN p s
  else f2int p (frne (fmul (asF64 s.delay) (asF64 s.sampleRate)))

/-- `F` (R113). -/
def countF (p : Params) (s : State) : Int :=
  if fgt (fmul two (ffloor (fmul fadeSeconds (asF64 s.sampleRate)))) (u2f (countN p s)) then (countN p s).fdiv 4
  else f2int p (ffloor (fmul fadeSeconds (asF64 s.sampleRate)))

/-- The end frequency of a channel: `F1L` or `F1R`. -/
def endFrequency (s : State) : Channel → F64
  | .left => asF64 s.f1l
  | .right => asF64 s.f1r

/-- The sweep rate of a channel in the configuration of `s` (R114, R115). -/
def configuredRate (p : Params) (s : State) (ch : Channel) : F64 :=
  if sweepLog s then fdiv (lnFn p (fdiv (endFrequency s ch) (startFrequency s ch))) (asF64 s.duration)
  else fdiv (fsub (endFrequency s ch) (startFrequency s ch)) (asF64 s.duration)

/-- The time at which frame `n` of a channel is evaluated (R116, R117). -/
def frameTime (p : Params) (s : State) (n : Nat) : Channel → F64
  | .left => fmul (u2f n) (stepDt p s)
  | .right => shiftedTime (asF64 s.delay) (fmul (u2f n) (stepDt p s))

/-- The sine value of frame `n` of a channel, before muting (R118, R119). -/
def frameSine (p : Params) (s : State) (n : Nat) (ch : Channel) : F64 :=
  if sweepLog s then phaseLogValue p (startFrequency s ch) (configuredRate p s ch) (frameTime p s n ch)
  else phaseLinValue p (startFrequency s ch) (configuredRate p s ch) (frameTime p s n ch)

/-- The sine value after `MUTE` (42_envelope.md R130). -/
def frameMuted (p : Params) (s : State) (n : Nat) : Channel → F64
  | .left => frameSine p s n .left
  | .right => if (n : Int) < countD p s then posZero else frameSine p s n .right

/-- The value that `GEN` stores in cell `(n, ch)` (R131 to R135, 40_host_commands.md R97). -/
def frameValue (p : Params) (s : State) (n : Nat) (ch : Channel) : F64 :=
  fmul (fmul (frameMuted p s n ch) (fadeGain n (countN p s) (countF p s))) (asF64 s.volume)

/-- The depths that `ENC` supports (R174). -/
def legalDepth (b : Nat) : Bool := b == 16 || b == 24 || b == 32

/-- A quiet NaN of binary32: exponent `0xFF`, fraction bit 22 set (R148). -/
def isQuietNan32 (w : BitVec 32) : Bool := w.extractLsb' 23 8 == 0xFF && w.getLsbD 22

/-- The bytes of one sample `x` at a supported depth, where `x` is not a NaN or the depth is 32; `nan` is the pattern of a NaN
(43_quantize_pack.md R146 to R151). -/
def sampleBytes (p : Params) (nan : BitVec 32) (b : Nat) (x : F64) : List Byte :=
  if b = 16 then littleEndian 2 (BitVec.ofInt 16 (quantizeValue p .tiesToEven scale16 (clipValue x)))
  else if b = 24 then (littleEndian 4 (BitVec.ofInt 32 (quantizeValue p Config.q24Round scale24 (clipValue x)))).take 3
  else littleEndian 4 (f64to32 nan x)

/-- A cell that `ENC` can encode at a depth: it holds a value, and not a NaN at the integer depths (R155, R177, R178). -/
def encodable (s : State) (b n : Nat) (ch : Channel) : Bool :=
  match readCell s n ch with
  | none => false
  | some v => b == 32 || !isNaN (asF64 v)

/-- The content of `FAULT` that a cell which cannot be encoded gives (R177, R178). -/
def cellFault (s : State) (n : Nat) (ch : Channel) : Word :=
  match readCell s n ch with
  | none => faultWord .bufferFault 2 ch (BitVec.ofNat 32 n)
  | some _ => faultWord .quantizeNaN 0 ch (BitVec.ofNat 32 n)

end Sys2Proof.Machine
end

