-- ==== Sys2Proof/Safety.lean ====
section
/-! DEFINITION. What holds of the block between two transactions, in the terms the statements use. -/

namespace Sys2Proof.Machine

/-- The causes, sub-codes, channels and `INFO` that the block records (60_exceptions.md R171): sub-codes 1 to 7 for ConfigurationError,
1 or 2 for BufferFault, a channel and a frame only where a sample is named, and never IOError. -/
def recordable (cause : Cause) (sub : BitVec 8) (ch : Channel) (info : BitVec 32) : Prop :=
  match cause with
  | .invalidFrequency => sub = 0 ∧ ch = .left ∧ info = 0
  | .unsupportedBitDepth => sub = 0 ∧ ch = .left ∧ info = 0
  | .configuration => 1 ≤ sub.toNat ∧ sub.toNat ≤ 7 ∧ ch = .left ∧ info = 0
  | .ioError => False
  | .illegalCommand => sub = 0 ∧ ch = .left
  | .bufferFault => (sub = 1 ∧ ch = .left ∧ info = 0) ∨ sub = 2
  | .quantizeNaN => sub = 0

/-- `FAULT` is a word that the block records. -/
def faultLegal (f : Word) : Prop := ∃ cause sub ch info, recordable cause sub ch info ∧ f = faultWord cause sub ch info

/-- The invariant of the block between two transactions. -/
structure Inv (s : State) : Prop where
  /-- Reserved bits of `CTRL` read 0 (10_state.md R22). -/
  ctrlReserved : s.ctrl &&& ~~~ctrlMask = 0
  /-- `SBLEN`, `DLEN`, `FLEN` are 32-bit counts (R23, R26). -/
  sblenBound : s.sblen.toNat < 2 ^ 32
  dlenBound : s.dlen.toNat < 2 ^ 32
  flenBound : s.flen.toNat < 2 ^ 32
  /-- Reserved bits of `STATUS` read 0 (R24). -/
  statusReserved : s.status.toNat < 4
  /-- `FAULT` is non-zero exactly when `FAULTED` is 1 (R25). -/
  faultIff : faulted s = true ↔ s.fault ≠ 0
  /-- What `FAULT` records (60_exceptions.md R171). -/
  faultRecord : s.fault = 0 ∨ faultLegal s.fault
  /-- `OUTLEN` is the number of bytes of `OUT` (R27, R30). -/
  outLength : s.outlen.toNat = s.out.length
  /-- `OUT` fits its buffer (20_memory.md R66). -/
  outBound : s.out.length ≤ 8 * sbDepth Config.params
  /-- Without a completed `ENC` there is no byte (R24, R98). -/
  outInvalid : outValid s = false → s.out = []
  /-- `SB` has its canonical form, and cells of frames below `SB_DEPTH` only (R29). -/
  cellsSorted : Memory.wf s.sb
  cellsBound : ∀ c ∈ s.sb, c.1 < 2 * sbDepth Config.params
  /-- No command is in progress (00_scope.md R6, 10_state.md R32); the idle temporaries are the model's choice (log entry 2). -/
  betweenCommands : s.stage = none ∧ s.work = Work.idle

/-- The outcome the source calls success: `STATUS = 0x2` with the stream in `OUT` (70_reset_and_hazards.md R200). -/
def streamReady (s : State) : Prop := s.status = 2 ∧ s.outlen.toNat = s.out.length

end Sys2Proof.Machine
end

