-- ==== Sys2Proof/Certificates/Slice0/Obligations.lean ====
section
/-! DEFINITION. The statements for the provers. Each docstring names the rules it formalises, or says what of it is the model's own. -/

open Sys2Proof Sys2Proof.Machine

/-! ## Encoding -/

/-- Decoding an encoded well-formed instruction gives it back, for every instruction and every operand (30_encoding.md R71, R74 to R76).
That a legal command word is written as the command is the model's choice (log entry 15). -/
def Obligations.DecodeOfEncode : Prop :=
  ∀ i : Instr, i.wellFormed = true → decode (encode i) = .ok i

/-- Every transaction that decodes is the one encoding of a well-formed instruction: no bit of `(H, A, V)` is dropped (R71). -/
def Obligations.EncodeOfDecode : Prop :=
  ∀ (h a v : Word) (i : Instr), decodeTransaction h a v = .ok i → i.wellFormed = true ∧ encode i = .transaction h a v

/-- Words written out from R71, R74, R75, R76 decode to the operations they stand for. -/
def Obligations.WrittenWordsDecode : Prop :=
  decode (.transaction 0x0 1 0x3FF0000000000000) = .ok (.wcr .duration 0x3FF0000000000000) ∧
  decode (.transaction 0x1 10 0) = .ok (.rcr .status) ∧
  decode (.transaction 0x102 0 0xBFF0000000000000) = .ok (.wsb 0 .right 0xBFF0000000000000) ∧
  decode (.transaction 0x3 1 0) = .ok (.rsb 1 .left) ∧
  decode (.transaction 0x4 31999 0) = .ok (.rout 31999) ∧
  decode (.transaction 0x0 15 0x2) = .ok .enc ∧
  decode (.transaction 0x0 15 0xF) = .ok .clr ∧
  decode (.place .rate 0x1801) = .ok .deriveKlog ∧
  decode (.place (.phase .left) 0x1000) = .ok (.phaseLin .left) ∧
  decode (.place .quantize 0x1801) = .ok .q24 ∧
  decode (.place .mute 0) = .ok .mute

/-- A transaction that format T does not admit, or whose address is out of range, is refused and gives no step (R71, 20_memory.md R59). -/
def Obligations.InadmissibleTransactionsRefused : Prop :=
  ∀ (s : State) (h a v : Word) (rest : List Input), s.stage = none → s.inbox = .transaction h a v :: rest →
    (h &&& 0xFFFFFFFFFFFFFEF8 ≠ 0 ∨ 5 ≤ headerKind h ∨
      (headerChannel h = .right ∧ headerKind h ≠ 2 ∧ headerKind h ≠ 3) ∨
      (v ≠ 0 ∧ (headerKind h = 1 ∨ headerKind h = 3 ∨ headerKind h = 4)) ∨
      (15 < a.toNat ∧ (headerKind h = 0 ∨ headerKind h = 1)) ∨
      (sbDepth Config.params ≤ a.toNat ∧ (headerKind h = 2 ∨ headerKind h = 3)) ∨
      (s.outlen.toNat ≤ a.toNat ∧ headerKind h = 4)) →
    ∃ r, step s = .refused r

/-! ## The step -/

/-- The next transaction of the host is taken whole: the step is the operation it decodes to, at the state whose inbox has lost it and
whose last reply is gone; a transaction that stands for nothing is refused (00_scope.md R6, 20_memory.md R57, R60). The inbox is the
model's form of the host (log entry 1), and that a reply stands until the next transaction, which finds it gone, is the model's choice
(log entry 4). -/
def Obligations.StepRunsDecodedTransaction : Prop :=
  ∀ (s : State) (h a v : Word) (rest : List Input), s.stage = none → s.inbox = .transaction h a v :: rest →
    (∀ i, decode (.transaction h a v) = .ok i → step s = exec i { s with inbox := rest, reply := .none }) ∧
    (∀ r, decode (.transaction h a v) = .reject r → step s = .refused (.malformed r))

/-- At a place of a command's sequence the step is the operation that the content of `CTRL` selects there (30_encoding.md R75, R76). That an
operation can be run alone is the model's choice (log entry 2). -/
def Obligations.StepRunsSelectedOperation : Prop :=
  ∀ (s : State) (st : Stage), s.stage = some st →
    (∀ i, decode (.place st s.ctrl) = .ok i → step s = exec i { s with stage := none }) ∧
    (∀ r, decode (.place st s.ctrl) = .reject r → step s = .refused (.malformed r))

/-- With nothing to take the block is idle and keeps all its state (60_exceptions.md R185); a reset between transactions leaves every item
of state at its reset value (70_reset_and_hazards.md R190, R191). The inbox and the count of draws are the model's (log entries 1,
12); that the temporaries are idle, no place is set (log entry 2) and no reply stands (log entry 4) after a reset is the model's choice. -/
def Obligations.StepIdlesAndResets : Prop :=
  ∀ s : State, s.stage = none →
    (s.inbox = [] → step s = .next s) ∧
    (∀ rest, s.inbox = .reset :: rest → step s = .next { State.reset with inbox := rest, draws := s.draws })

/-- Every step keeps the invariant of the block (10_state.md R22 to R30, 20_memory.md R66, 60_exceptions.md R171): reserved bits read 0, counts
fit 32 bits, `FAULT` is recorded exactly when `FAULTED` is set and holds a listed cause, `OUTLEN` is the number of bytes of `OUT`, `SB` is
canonical and within `SB_DEPTH`, and no command is in progress (that the temporaries are idle then is the model's choice, log entry 2). -/
def Obligations.StepKeepsInvariant : Prop :=
  ∀ s t : State, Inv s → step s = .next t → Inv t

/-- The invariant holds after reset (10_state.md R35; the idle temporaries are the model's, log entry 2). -/
def Obligations.ResetMeetsInvariant : Prop := Inv State.reset

/-- From a state between two commands the machine never stops with a fault, and it refuses a command only while a fault is recorded
(60_exceptions.md R170, R179, 40_host_commands.md R101). -/
def Obligations.StopsAreTheRefusals : Prop :=
  ∀ s : State, Inv s →
    (∀ f, step s ≠ .fault f) ∧ (∀ m, step s ≠ .refused (.notModelled m)) ∧
    (faulted s = false → step s ≠ .refused .commandWhileFaulted)

/-! ## Reset -/

/-- After reset every register reads 0, no cell holds a value and `OUT` is empty (10_state.md R35, 70_reset_and_hazards.md R191). -/
def Obligations.ResetLeavesEverythingZero : Prop :=
  (∀ r, readReg State.reset r = 0) ∧ (∀ n ch, readCell State.reset n ch = none) ∧ State.reset.out = []

/-- What the first command after reset does: the spec's own inference from the reset values (R192, from R35, 60_exceptions.md R173, R174). -/
def Obligations.FirstCommandAfterReset : Prop :=
  exec .nop State.reset = .next State.reset ∧
  exec .clr State.reset = .next State.reset ∧
  exec .gen State.reset = .next { State.reset with fault := 0x103, status := 1 } ∧
  exec .enc State.reset = .next { State.reset with fault := 0x2, status := 1 } ∧
  exec .run State.reset = .next { State.reset with fault := 0x103, status := 1 } ∧
  (∀ n ch, ∃ r, exec (.rsb n ch) State.reset = .refused r) ∧
  (∀ j, exec (.rout j) State.reset = .refused .offsetBeyondStream)

/-! ## Transactions -/

/-- `WCR` (40_host_commands.md R90): what each register keeps of a write, and that nothing else changes; a write of `CMD` executes the command,
see `CommandDispatch`. -/
def Obligations.WriteRegister : Prop :=
  ∀ (v : Word) (s : State),
    exec (.wcr .ctrl v) s = .next { s with ctrl := v &&& 0x000000000000FF01 } ∧
    exec (.wcr .duration v) s = .next { s with duration := v } ∧
    exec (.wcr .sampleRate v) s = .next { s with sampleRate := v } ∧
    exec (.wcr .f0l v) s = .next { s with f0l := v } ∧
    exec (.wcr .f1l v) s = .next { s with f1l := v } ∧
    exec (.wcr .f0r v) s = .next { s with f0r := v } ∧
    exec (.wcr .f1r v) s = .next { s with f1r := v } ∧
    exec (.wcr .delay v) s = .next { s with delay := v } ∧
    exec (.wcr .volume v) s = .next { s with volume := v } ∧
    exec (.wcr .sblen v) s = .next { s with sblen := BitVec.ofNat 64 (v.toNat % 2 ^ 32) } ∧
    exec (.wcr .status v) s = .next s ∧
    exec (.wcr .fault v) s = .next s ∧
    exec (.wcr .dlen v) s = .next s ∧
    exec (.wcr .flen v) s = .next s ∧
    exec (.wcr .outlen v) s = .next s

/-- Command dispatch (R95, 60_exceptions.md R176): a legal word written to `CMD` is its command; while a fault is recorded every word but those of
`NOP` and `CLR` is refused; otherwise a reserved word raises IllegalCommand with its low half and changes nothing else. -/
def Obligations.CommandDispatch : Prop :=
  ∀ s : State,
    exec (.wcr .cmd 0) s = exec .nop s ∧ exec (.wcr .cmd 1) s = exec .gen s ∧ exec (.wcr .cmd 2) s = exec .enc s ∧
    exec (.wcr .cmd 3) s = exec .run s ∧ exec (.wcr .cmd 15) s = exec .clr s ∧
    (faulted s = true → ∀ v, v ≠ 0 → v ≠ 15 → exec (.wcr .cmd v) s = .refused .commandWhileFaulted) ∧
    (faulted s = false → ∀ v, v ≠ 0 → v ≠ 1 → v ≠ 2 → v ≠ 3 → v ≠ 15 → exec (.wcr .cmd v) s =
      .next { s with fault := BitVec.ofNat 64 (v.toNat % 2 ^ 32 * 2 ^ 32 + 5), status := s.status ||| 1 })

/-- `RCR` (R91): the reply is the register, 0 for `CMD`, nothing else changes, and there is no register above index 15. Where
the reply stands is the model's choice (log entry 4). -/
def Obligations.ReadRegister : Prop :=
  (∀ (r : Reg) (s : State), exec (.rcr r) s = .next { s with reply := .word (match r with
    | .ctrl => s.ctrl | .duration => s.duration | .sampleRate => s.sampleRate | .f0l => s.f0l | .f1l => s.f1l
    | .f0r => s.f0r | .f1r => s.f1r | .delay => s.delay | .volume => s.volume | .sblen => s.sblen | .status => s.status
    | .fault => s.fault | .dlen => s.dlen | .flen => s.flen | .outlen => s.outlen | .cmd => 0) }) ∧
  (∀ a : Word, 15 < a.toNat → decode (.transaction 1 a 0) = .reject .registerIndex)

/-- `WSB` (R92): the cell holds the value, every other cell and everything else is as before; at or above `SB_DEPTH` it is refused. -/
def Obligations.WriteCell : Prop :=
  ∀ (n : Word) (ch : Channel) (v : Word) (s : State),
    (n.toNat < sbDepth Config.params → ∃ t, exec (.wsb n ch v) s = .next t ∧
      readCell t n.toNat ch = some v ∧
      (∀ a, a ≠ cellAddress n.toNat ch → Memory.read t.sb a = Memory.read s.sb a) ∧
      t = { s with sb := t.sb }) ∧
    (sbDepth Config.params ≤ n.toNat → exec (.wsb n ch v) s = .refused .frameBeyondBuffer)

/-- `RSB` (R93): the reply is the exact pattern; a cell with no value, or a frame at or above `SB_DEPTH`, is refused. Where the reply stands is
the model's choice (log entry 4). -/
def Obligations.ReadCell : Prop :=
  ∀ (n : Word) (ch : Channel) (s : State),
    (n.toNat < sbDepth Config.params → ∀ v, readCell s n.toNat ch = some v →
      exec (.rsb n ch) s = .next { s with reply := .word v }) ∧
    (n.toNat < sbDepth Config.params → readCell s n.toNat ch = none → exec (.rsb n ch) s = .refused .cellHoldsNoValue) ∧
    (sbDepth Config.params ≤ n.toNat → exec (.rsb n ch) s = .refused .frameBeyondBuffer)

/-- `ROUT` (R94): the reply is the byte at the offset; at or above `OUTLEN` it is refused. `OUTLEN` is the number of bytes in every state between
commands (`StepKeepsInvariant`). Where the reply stands is the model's choice (log entry 4). -/
def Obligations.ReadOutputByte : Prop :=
  ∀ (j : Word) (s : State), s.outlen.toNat = s.out.length →
    (∀ h : j.toNat < s.out.length, exec (.rout j) s = .next { s with reply := .byte s.out[j.toNat] }) ∧
    (s.outlen.toNat ≤ j.toNat → exec (.rout j) s = .refused .offsetBeyondStream)

/-! ## Commands and faults -/

/-- `NOP` (R96) changes nothing, in every state. -/
def Obligations.NopChangesNothing : Prop := ∀ s : State, exec .nop s = .next s

/-- `CLR` (R100, 60_exceptions.md R181): `FAULT` is 0, `FAULTED` is cleared, nothing else changes. -/
def Obligations.ClearForgetsTheFault : Prop :=
  ∀ s : State, exec .clr s = .next { s with fault := 0, status := s.status &&& ~~~1 }

/-- While a fault is recorded `GEN`, `ENC`, `RUN` and every reserved command word are refused, and `NOP` and `CLR` are accepted (R101). -/
def Obligations.FaultedRefusesCommands : Prop :=
  ∀ s : State, faulted s = true →
    exec .gen s = .refused .commandWhileFaulted ∧ exec .enc s = .refused .commandWhileFaulted ∧
    exec .run s = .refused .commandWhileFaulted ∧
    (∀ v, isCommandWord v = false → exec (.wcr .cmd v) s = .refused .commandWhileFaulted) ∧
    (∃ t, exec .nop s = .next t) ∧ (∃ t, exec .clr s = .next t)

/-- Fault entry (60_exceptions.md R180, 10_state.md R25): the fields of `FAULT` read back as what was raised, `FAULTED` is set, out of `ENC` the
output is emptied, and nothing else changes. -/
def Obligations.FaultEntry : Prop :=
  ∀ (inEnc : Bool) (cause : Cause) (sub : BitVec 8) (ch : Channel) (info : BitVec 32) (s : State),
    let t := raiseFault inEnc cause sub ch info s
    faultCause t.fault = causeCode cause ∧ faultSub t.fault = sub ∧ faultChannel t.fault = channelBit ch ∧
    t.fault.extractLsb' 17 15 = 0 ∧ faultInfo t.fault = info ∧ faulted t = true ∧
    (inEnc = true → t.out = [] ∧ t.outlen = 0 ∧ outValid t = false) ∧
    (inEnc = false → t.out = s.out ∧ t.outlen = s.outlen ∧ outValid t = outValid s) ∧
    t.status &&& ~~~3 = s.status &&& ~~~3 ∧
    t = { s with fault := t.fault, status := t.status, out := t.out, outlen := t.outlen }

/-- `VALIDATE` (60_exceptions.md R173, R172): the first clause that fails raises its fault, with these contents of `FAULT`, and nothing else is
written; if all hold, and then only, no clause is reported failed, and nothing changes. That `VALIDATE` can be run
alone, and raises as in `GEN` then, is the model's choice (log entries 2, 17). -/
def Obligations.ValidateRaisesFirstFailure : Prop :=
  ∀ s : State,
    let raises := fun (w : Word) => exec .validate s = .next { s with fault := w, status := s.status ||| 1 }
    let f := [asF64 s.f0l, asF64 s.f1l, asF64 s.f0r, asF64 s.f1r]
    let c1 := isFinite (asF64 s.duration) = true ∧ fgt (asF64 s.duration) (asF64 0) = true
    let c2 := isFinite (asF64 s.sampleRate) = true ∧ fgt (asF64 s.sampleRate) (asF64 0) = true
    let c3 := isFinite (asF64 s.delay) = true ∧ fge (asF64 s.delay) (asF64 0) = true
    let c4 := fge (asF64 s.volume) (asF64 0) = true ∧ fle (asF64 s.volume) (asF64 0x3FF0000000000000) = true
    let c5log := sweepLog s = true → ∀ x ∈ f, fgt x (asF64 0) = true
    let c5 := ∀ x ∈ f, isFinite x = true ∧ fgt x (asF64 0) = true
    let c6 := feq (asF64 s.f0l) (asF64 s.f1l) = false ∧ feq (asF64 s.f0r) (asF64 s.f1r) = false
    let c7 := fge (fmul (asF64 s.sampleRate) (asF64 s.duration)) (u2f ((sbDepth Config.params : Int) + 1)) = false
    (¬c1 → raises 0x103) ∧
    (c1 → ¬c2 → raises 0x203) ∧
    (c1 → c2 → ¬c3 → raises 0x303) ∧
    (c1 → c2 → c3 → ¬c4 → raises 0x403) ∧
    (c1 → c2 → c3 → c4 → ¬c5log → raises 0x1) ∧
    (c1 → c2 → c3 → c4 → c5log → ¬c5 → raises 0x503) ∧
    (c1 → c2 → c3 → c4 → c5log → c5 → ¬c6 → raises 0x603) ∧
    (c1 → c2 → c3 → c4 → c5log → c5 → c6 → ¬c7 → raises 0x703) ∧
    (c1 → c2 → c3 → c4 → c5log → c5 → c6 → c7 → exec .validate s = .next s) ∧
    (failedClause Config.params s = none ↔ c1 ∧ c2 ∧ c3 ∧ c4 ∧ c5log ∧ c5 ∧ c6 ∧ c7)

/-- A `GEN` whose configuration fails `VALIDATE` records that fault and leaves everything else as it was, and a `RUN` ends there too: `ENC` does
not start (40_host_commands.md R97, R99). That the temporaries are idle after a command is the model's choice (log entry 2). -/
def Obligations.GenFaultLeavesTheRest : Prop :=
  ∀ s t : State, faulted s = false → exec .validate s = .next t → faulted t = true →
    exec .gen s = .next { s with fault := t.fault, status := s.status ||| 1, work := Work.idle } ∧
    exec .run s = .next { s with fault := t.fault, status := s.status ||| 1, work := Work.idle }

/-- `GEN` (40_host_commands.md R97, 41_synth_nco.md R110 to R119, 42_envelope.md R130 to R135): with no fault recorded and a configuration that passes
`VALIDATE`, the counts are set, every cell of frames `0 .. N-1` holds the value that the closed form gives its frame and channel (its exact
pattern, or some NaN pattern for a NaN) and every other cell is as before. Nothing else of the block changes; of the model's own fields the
count of draws may advance (log entry 8) and the temporaries are idle afterwards (log entry 2). -/
def Obligations.GenStoresTheSweep : Prop :=
  ∀ s : State, faulted s = false → failedClause Config.params s = none →
    ∃ t, exec .gen s = .next t ∧
      t = { s with
        sblen := BitVec.ofInt 64 (countN Config.params s), dlen := BitVec.ofInt 64 (countD Config.params s)
        flen := BitVec.ofInt 64 (countF Config.params s), sb := t.sb, draws := t.draws, work := Work.idle } ∧
      (∀ (n : Nat) (ch : Channel), n < (countN Config.params s).toNat →
        (isNaN (frameValue Config.params s n ch) = false →
          readCell t n ch = some (bitsF64 0 (frameValue Config.params s n ch))) ∧
        (isNaN (frameValue Config.params s n ch) = true → ∃ u, readCell t n ch = some u ∧ isNaN (asF64 u) = true)) ∧
      (∀ a, 2 * (countN Config.params s).toNat ≤ a → Memory.read t.sb a = Memory.read s.sb a)

/-- The counts of a configuration that passes `VALIDATE`: `0 <= N <= SB_DEPTH`, `0 <= D <= N`, and the two fade windows fit the buffer without
overlap (R110, R112, R113, 00_scope.md R11). -/
def Obligations.GenCountsInRange : Prop :=
  ∀ s : State, failedClause Config.params s = none →
    0 ≤ countN Config.params s ∧ countN Config.params s ≤ sbDepth Config.params ∧
    0 ≤ countD Config.params s ∧ countD Config.params s ≤ countN Config.params s ∧
    0 ≤ countF Config.params s ∧ 2 * countF Config.params s ≤ countN Config.params s

/-- The right cells of the first `D` frames hold exactly `+0.0` (R130), unless `VOLUME` is `-0.0`: R130's sentence takes a volume `>= 0` to keep
the sign, which `-0.0` does not, and the model follows the pseudocode there (log entry 23). What such a `GEN` stores is in
`GenStoresTheSweep`. -/
def Obligations.DelayedCellsAreZero : Prop :=
  ∀ s : State, faulted s = false → failedClause Config.params s = none → isNeg (asF64 s.volume) = false →
    ∃ t, exec .gen s = .next t ∧ ∀ n : Nat, (n : Int) < countD Config.params s → readCell t n .right = some 0

/-- Every value that `GEN` stores lies in [-1, 1] where its sine value is finite (42_envelope.md R136). -/
def Obligations.CellsInRange : Prop :=
  ∀ (s : State) (n : Nat) (ch : Channel), failedClause Config.params s = none →
    (n : Int) < countN Config.params s → isFinite (frameSine Config.params s n ch) = true →
    fle (asF64 0xBFF0000000000000) (frameValue Config.params s n ch) = true ∧
    fle (frameValue Config.params s n ch) (asF64 0x3FF0000000000000) = true

/-- `GEN` does not read `BITDEPTH`: with the same sweep kind it does the same whatever the depth (10_state.md R22, 40_host_commands.md R97). -/
def Obligations.GenIgnoresDepth : Prop :=
  ∀ (s : State) (c : Word), faulted s = false → ctrlSweep c = ctrlSweep s.ctrl →
    ∃ t, exec .gen s = .next t ∧ exec .gen { s with ctrl := c } = .next { t with ctrl := c }

/-! ## The operations of `GEN`

Each run alone, on the temporaries as they stand: the model's choice, log entry 2. -/

/-- `DERIVE.N`, `DERIVE.DT`, `DERIVE.D`, `DERIVE.F` (41_synth_nco.md R110 to R113) set their count or step and nothing else. `DT` with no frame is
free (log entry 10): nothing is said of it. `FADE_SECONDS` is `0x3FA999999999999A` (00_scope.md R5). For a negative count, which
no command has, `u2f` is free too. -/
def Obligations.CountOperations : Prop :=
  ∀ s : State,
    let two := asF64 0x4000000000000000
    let fadeSeconds := asF64 0x3FA999999999999A
    exec .deriveN s = .next { s with work := { s.work with
      bigN := f2int Config.params (ffloor (fmul (asF64 s.sampleRate) (asF64 s.duration))) } } ∧
    (0 < s.work.bigN →
      exec .deriveDt s = .next { s with work := { s.work with dt := fdiv (asF64 s.duration) (u2f s.work.bigN) } }) ∧
    (s.work.bigN ≤ 0 → ∃ x, exec .deriveDt s = .next { s with work := { s.work with dt := x } }) ∧
    (fge (fmul (asF64 s.delay) (asF64 s.sampleRate)) (u2f s.work.bigN) = true →
      exec .deriveD s = .next { s with work := { s.work with bigD := s.work.bigN } }) ∧
    (fge (fmul (asF64 s.delay) (asF64 s.sampleRate)) (u2f s.work.bigN) = false →
      exec .deriveD s = .next { s with work := { s.work with
        bigD := f2int Config.params (frne (fmul (asF64 s.delay) (asF64 s.sampleRate))) } }) ∧
    (fgt (fmul two (ffloor (fmul fadeSeconds (asF64 s.sampleRate)))) (u2f s.work.bigN) = true →
      exec .deriveF s = .next { s with work := { s.work with bigF := s.work.bigN.fdiv 4 } }) ∧
    (fgt (fmul two (ffloor (fmul fadeSeconds (asF64 s.sampleRate)))) (u2f s.work.bigN) = false →
      exec .deriveF s = .next { s with work := { s.work with
        bigF := f2int Config.params (ffloor (fmul fadeSeconds (asF64 s.sampleRate))) } })

/-- `DERIVE.KLIN` (R114) and `DERIVE.KLOG` (R115) set both channels' rates and nothing else. `lnFn` is the parameter `LN`, of which nothing but
`NumericsProperties` is known. -/
def Obligations.SweepRates : Prop :=
  ∀ s : State,
    exec .deriveKlin s = .next { s with work := { s.work with
      kl := fdiv (fsub (asF64 s.f1l) (asF64 s.f0l)) (asF64 s.duration)
      kr := fdiv (fsub (asF64 s.f1r) (asF64 s.f0r)) (asF64 s.duration) } } ∧
    exec .deriveKlog s = .next { s with work := { s.work with
      kl := fdiv (lnFn Config.params (fdiv (asF64 s.f1l) (asF64 s.f0l))) (asF64 s.duration)
      kr := fdiv (lnFn Config.params (fdiv (asF64 s.f1r) (asF64 s.f0r))) (asF64 s.duration) } }

/-- `TIME` (R116) sets the time of the frame; `TSHIFT` (R117) the right channel's, shifted by a positive delay and clamped at zero; nothing
else changes. -/
def Obligations.TimeAxis : Prop :=
  ∀ s : State,
    exec .time s = .next { s with work := { s.work with t := fmul (u2f s.work.n) s.work.dt } } ∧
    (fgt (asF64 s.delay) (asF64 0) = true → flt (fsub s.work.t (asF64 s.delay)) (asF64 0) = true →
      exec .tshift s = .next { s with work := { s.work with tR := asF64 0 } }) ∧
    (fgt (asF64 s.delay) (asF64 0) = true → flt (fsub s.work.t (asF64 s.delay)) (asF64 0) = false →
      exec .tshift s = .next { s with work := { s.work with tR := fsub s.work.t (asF64 s.delay) } }) ∧
    (fgt (asF64 s.delay) (asF64 0) = false → exec .tshift s = .next { s with work := { s.work with tR := s.work.t } })

/-- `PHASE.LIN` (R118) and `PHASE.LOG` (R119) of each channel set that channel's sine value and nothing else. `TWO_PI` is
`0x401921FB54442D18` (00_scope.md R5). -/
def Obligations.SineOfThePhase : Prop :=
  ∀ s : State,
    let one := asF64 0x3FF0000000000000
    let two := asF64 0x4000000000000000
    let twoPi := asF64 0x401921FB54442D18
    exec (.phaseLin .left) s = .next { s with work := { s.work with sL := sinFn Config.params (fmul twoPi
      (fadd (fmul (asF64 s.f0l) s.work.t) (fdiv (fmul s.work.kl (fmul s.work.t s.work.t)) two))) } } ∧
    exec (.phaseLin .right) s = .next { s with work := { s.work with sR := sinFn Config.params (fmul twoPi
      (fadd (fmul (asF64 s.f0r) s.work.tR) (fdiv (fmul s.work.kr (fmul s.work.tR s.work.tR)) two))) } } ∧
    exec (.phaseLog .left) s = .next { s with work := { s.work with sL := sinFn Config.params (fdiv
      (fmul (fmul twoPi (asF64 s.f0l)) (fsub (expFn Config.params (fmul s.work.kl s.work.t)) one)) s.work.kl) } } ∧
    exec (.phaseLog .right) s = .next { s with work := { s.work with sR := sinFn Config.params (fdiv
      (fmul (fmul twoPi (asF64 s.f0r)) (fsub (expFn Config.params (fmul s.work.kr s.work.tR)) one)) s.work.kr) } }

/-- `MUTE` (42_envelope.md R130): the right value of a frame before the delay is `+0.0`; nothing else changes. -/
def Obligations.MuteBeforeDelay : Prop :=
  ∀ s : State,
    ((s.work.n : Int) < s.work.bigD → exec .mute s = .next { s with work := { s.work with sR := asF64 0 } }) ∧
    (s.work.bigD ≤ (s.work.n : Int) → exec .mute s = .next s)

/-- `FADE` (R131): the gain in each of the five cases of the rule; nothing else changes. -/
def Obligations.FadeGainByCases : Prop :=
  ∀ s : State,
    let n : Int := s.work.n
    let bigN := s.work.bigN
    let bigF := s.work.bigF
    let gives := fun (g : F64) => exec .fade s = .next { s with work := { s.work with g := g } }
    (bigF = 0 → gives (asF64 0x3FF0000000000000)) ∧
    (bigF = 1 → n < 1 → gives (asF64 0)) ∧
    (bigF ≠ 0 → bigF ≠ 1 → n < bigF → gives (fdiv (u2f n) (u2f (bigF - 1)))) ∧
    (bigF = 1 → 1 ≤ n → bigN - 1 ≤ n → gives (asF64 0)) ∧
    (bigF ≠ 0 → bigF ≠ 1 → bigF ≤ n → bigN - bigF ≤ n →
      gives (fdiv (u2f (bigF - 1 - (n - (bigN - bigF)))) (u2f (bigF - 1)))) ∧
    (bigF ≠ 0 → bigF ≤ n → n < bigN - bigF → gives (asF64 0x3FF0000000000000))

/-- The gain of every frame of a buffer lies in [0, 1] (R131: `0 <= g <= 1`). -/
def Obligations.FadeGainInRange : Prop :=
  ∀ n bigN bigF : Int, 0 ≤ n → n < bigN → 0 ≤ bigF → 2 * bigF ≤ bigN → bigN < 2 ^ 32 →
    fle (asF64 0) (fadeGain n bigN bigF) = true ∧ fle (fadeGain n bigN bigF) (asF64 0x3FF0000000000000) = true

/-- The ramps reach their ends inside their windows: exactly 0 at the first and last frame of the buffer, exactly 1 at the inner ends and
between the windows (R131, R137). -/
def Obligations.FadeGainEndPoints : Prop :=
  ∀ bigN bigF : Int, 1 ≤ bigF → 2 * bigF ≤ bigN → bigN < 2 ^ 32 →
    fadeGain 0 bigN bigF = asF64 0 ∧ fadeGain (bigN - 1) bigN bigF = asF64 0 ∧
    (2 ≤ bigF → fadeGain (bigF - 1) bigN bigF = asF64 0x3FF0000000000000 ∧
      fadeGain (bigN - bigF) bigN bigF = asF64 0x3FF0000000000000) ∧
    (∀ n, bigF ≤ n → n < bigN - bigF → fadeGain n bigN bigF = asF64 0x3FF0000000000000)

/-- `FADE.APPLY` and `VOL` (R132, R133) of each channel are one multiplication each, and change nothing else. -/
def Obligations.GainsMultiply : Prop :=
  ∀ s : State,
    exec (.fadeApply .left) s = .next { s with work := { s.work with xL := fmul s.work.sL s.work.g } } ∧
    exec (.fadeApply .right) s = .next { s with work := { s.work with xR := fmul s.work.sR s.work.g } } ∧
    exec (.vol .left) s = .next { s with work := { s.work with vL := fmul s.work.xL (asF64 s.volume) } } ∧
    exec (.vol .right) s = .next { s with work := { s.work with vR := fmul s.work.xR (asF64 s.volume) } }

/-- `FRAME` (R134): both cells of the frame hold the final values (a NaN with some NaN pattern), every other cell is as before; nothing else
changes but the count of draws (log entry 8). A frame counter that `SB` does not have stops the model (log entry 16). -/
def Obligations.FrameStoresBothCells : Prop :=
  ∀ s : State, canonical s.work.vL → canonical s.work.vR →
    (s.work.n < sbDepth Config.params → ∃ t u v, exec .frame s = .next t ∧
      t = { s with sb := t.sb, draws := t.draws } ∧
      readCell t s.work.n .left = some u ∧ asF64 u = s.work.vL ∧
      readCell t s.work.n .right = some v ∧ asF64 v = s.work.vR ∧
      (∀ a, a ≠ cellAddress s.work.n .left → a ≠ cellAddress s.work.n .right →
        Memory.read t.sb a = Memory.read s.sb a)) ∧
    (sbDepth Config.params ≤ s.work.n → exec .frame s = .fault .noSuchCell)

/-! ## The operations of `ENC`

Each run alone, on the temporaries as they stand: the model's choice, log entry 2. -/

/-- `CLIP` (43_quantize_pack.md R145); nothing else changes. `clipValue` names the clipped value in the statements that follow. -/
def Obligations.ClipLimitsToUnit : Prop :=
  ∀ s : State,
    let one := asF64 0x3FF0000000000000
    let negOne := asF64 0xBFF0000000000000
    let gives := fun (x : F64) => exec .clip s = .next { s with work := { s.work with c := x } }
    (fgt s.work.x one = true → gives one) ∧
    (flt s.work.x negOne = true → gives negOne) ∧
    (fgt s.work.x one = false → flt s.work.x negOne = false → gives s.work.x) ∧
    gives (clipValue s.work.x)

/-- `Q16` and `Q24` (R146, R147): the clipped value is scaled and rounded to the nearest integer, ties to even; a NaN raises QuantizeNaN at the
sample and empties the output (60_exceptions.md R178, R180). Nothing else changes. That they can be run alone, and raise as in `ENC` then, is the
model's choice (log entries 2, 17). -/
def Obligations.IntegerQuantizers : Prop :=
  ∀ s : State,
    (isNaN s.work.x = false →
      exec .q16 s = .next { s with work := { s.work with
        c := clipValue s.work.x
        q := f2int Config.params (frne (fmul (clipValue s.work.x) (asF64 0x40DFFFC000000000))) } } ∧
      exec .q24 s = .next { s with work := { s.work with
        c := clipValue s.work.x
        q := f2int Config.params (frne (fmul (clipValue s.work.x) (asF64 0x415FFFFFC0000000))) } }) ∧
    (isNaN s.work.x = true →
      exec .q16 s = .next (raiseFault true .quantizeNaN 0 s.work.ch (BitVec.ofNat 32 s.work.n) s) ∧
      exec .q24 s = .next (raiseFault true .quantizeNaN 0 s.work.ch (BitVec.ofNat 32 s.work.n) s))

/-- A quantized sample stays within the scale: `-32768` and `-8388608` are never produced (R146, R147, 00_scope.md R11). -/
def Obligations.QuantizedRange : Prop :=
  ∀ (p : Params) (x : F64), isNaN x = false →
    let q := fun (scale : F64) => f2int p (frne (fmul (clipValue x) scale))
    (-32767 ≤ q (asF64 0x40DFFFC000000000) ∧ q (asF64 0x40DFFFC000000000) ≤ 32767) ∧
    (-8388607 ≤ q (asF64 0x415FFFFFC0000000) ∧ q (asF64 0x415FFFFFC0000000) ≤ 8388607)

/-- The integer quantizers are odd functions (R154). -/
def Obligations.QuantizersAreOdd : Prop :=
  ∀ (p : Params) (x : F64), isNaN x = false →
    let q := fun (scale x : F64) => f2int p (frne (fmul (clipValue x) scale))
    q (asF64 0x40DFFFC000000000) (fneg x) = -q (asF64 0x40DFFFC000000000) x ∧
    q (asF64 0x415FFFFFC0000000) (fneg x) = -q (asF64 0x415FFFFFC0000000) x

/-- The integer quantizers are monotone (R154: `x <= x'` implies `Q(x) <= Q(x')`). -/
def Obligations.QuantizersAreMonotone : Prop :=
  ∀ (p : Params) (x y : F64), fle x y = true →
    let q := fun (scale x : F64) => f2int p (frne (fmul (clipValue x) scale))
    q (asF64 0x40DFFFC000000000) x ≤ q (asF64 0x40DFFFC000000000) y ∧
    q (asF64 0x415FFFFFC0000000) x ≤ q (asF64 0x415FFFFFC0000000) y

/-- `F32` (R148): the sample is rounded once to binary32. A magnitude at or above `2^128 - 2^103` gives the infinity of its sign; any other finite
sample a finite pattern of its sign, whose value no other binary32 value beats, and whose fraction is even where another is as near;
infinities and zeros keep their sign; a NaN becomes a quiet NaN of binary32: exponent `0xFF`, fraction bit 22 set. Nothing else of the block
changes; that each conversion advances a count of draws is the model's choice (log entry 7). -/
def Obligations.Float32Conversion : Prop :=
  (∀ s : State, exec .f32 s = .next { s with
    work := { s.work with w := f64to32 (nan32 Config.params s.draws) s.work.x }, draws := s.draws + 1 }) ∧
  (∀ (p : Params) (k : Nat), isQuietNan32 (f64to32 (nan32 p k) .nan) = true) ∧
  (∀ w : BitVec 32, f64to32 w (.inf false) = 0x7F800000 ∧ f64to32 w (.inf true) = 0xFF800000 ∧
    f64to32 w (asF64 0) = 0 ∧ f64to32 w (asF64 0x8000000000000000) = 0x80000000) ∧
  (∀ (nan : BitVec 32) (x : F64), isFinite x = true →
    let w := f64to32 nan x
    ((2 : ℚ) ^ 128 - 2 ^ 103 ≤ |value x| → w = if isNeg x then 0xFF800000 else 0x7F800000) ∧
    (|value x| < (2 : ℚ) ^ 128 - 2 ^ 103 → isFinite (asF32 w) = true ∧ isNeg (asF32 w) = isNeg x ∧
      ∀ u : BitVec 32, isFinite (asF32 u) = true →
        |value (asF32 w) - value x| ≤ |value (asF32 u) - value x| ∧
        (|value (asF32 w) - value x| = |value (asF32 u) - value x| → value (asF32 w) ≠ value (asF32 u) →
          w.getLsbD 0 = false)))

/-- Converting the decoded value of a binary32 pattern again gives the pattern, if it is not a NaN (R156, for one sample's pattern). -/
def Obligations.Binary32RoundTrip : Prop :=
  ∀ w nan : BitVec 32, isNaN (asF32 w) = false → f64to32 nan (asF32 w) = w

/-- `PACK16`, `PACK24`, `PACK32` (R149 to R151): the bytes of the two's complement or binary32 pattern, least significant first.
`FRAMEPACK` (R152) appends the sample's bytes to `OUT`. Nothing else changes. -/
def Obligations.PackersAndFramepack : Prop :=
  ∀ s : State,
    let u16 := BitVec.ofInt 16 s.work.q
    let u32 := BitVec.ofInt 32 s.work.q
    let w := s.work.w
    exec .pack16 s = .next { s with work := { s.work with bytes := [u16.extractLsb' 0 8, u16.extractLsb' 8 8] } } ∧
    exec .pack24 s = .next { s with work := { s.work with
      bytes := [u32.extractLsb' 0 8, u32.extractLsb' 8 8, u32.extractLsb' 16 8] } } ∧
    exec .pack32 s = .next { s with work := { s.work with
      bytes := [w.extractLsb' 0 8, w.extractLsb' 8 8, w.extractLsb' 16 8, w.extractLsb' 24 8] } } ∧
    exec .framepack s = .next { s with out := s.out ++ s.work.bytes }

/-- The packed bytes, read as little-endian two's complement, are the quantized integer; the 24-bit form loses nothing with the byte it drops
(30_encoding.md R77, R78). -/
def Obligations.PackedBytesReadBack : Prop :=
  ∀ s : State,
    (-32767 ≤ s.work.q → s.work.q ≤ 32767 → ∃ t b0 b1, exec .pack16 s = .next t ∧ t.work.bytes = [b0, b1] ∧
      (b1 ++ b0).toInt = s.work.q) ∧
    (-8388607 ≤ s.work.q → s.work.q ≤ 8388607 → ∃ t b0 b1 b2, exec .pack24 s = .next t ∧ t.work.bytes = [b0, b1, b2] ∧
      (b2 ++ b1 ++ b0).toInt = s.work.q)

/-! ## The stream -/

/-- `ENC` (40_host_commands.md R98, R152, R153): with no fault recorded, a supported depth and every cell encodable, the stream has
`SBLEN x 2 x B` bytes, the bytes of sample `(n, ch)` stand at `(2n + ch) x B` on and `OUTVALID` is set. Nothing else of the block changes; of
the model's own fields the count of draws may advance (log entry 7) and the temporaries are idle afterwards (log entry 2). -/
def Obligations.EncPacksTheBuffer : Prop :=
  ∀ s : State, faulted s = false → legalDepth (bitDepth s) = true → s.sblen.toNat ≤ sbDepth Config.params →
    (∀ n ch, n < s.sblen.toNat → encodable s (bitDepth s) n ch = true) →
    ∃ t, exec .enc s = .next t ∧
      t = { s with
        out := t.out, outlen := BitVec.ofNat 64 (s.sblen.toNat * 2 * (bitDepth s / 8))
        status := s.status ||| 2, work := Work.idle, draws := t.draws } ∧
      t.out.length = s.sblen.toNat * 2 * (bitDepth s / 8) ∧
      (∀ n ch v, n < s.sblen.toNat → readCell s n ch = some v → ∃ nan, isQuietNan32 nan = true ∧ ∀ i, i < bitDepth s / 8 →
        t.out[(2 * n + channelIndex ch) * (bitDepth s / 8) + i]? =
          (sampleBytes Config.params nan (bitDepth s) (asF64 v))[i]?)

/-- An unsupported depth, and then a length beyond `SB_DEPTH`, faults `ENC` before it reads a cell; the old stream is gone
(60_exceptions.md R174, R177, R180). That the temporaries are idle after a command is the model's choice (log entry 2). -/
def Obligations.EncChecksDepthThenLength : Prop :=
  ∀ s : State, faulted s = false →
    (legalDepth (bitDepth s) = false → exec .enc s = .next { s with
      fault := 0x2, status := (s.status &&& ~~~2) ||| 1, out := [], outlen := 0, work := Work.idle }) ∧
    (legalDepth (bitDepth s) = true → sbDepth Config.params < s.sblen.toNat → exec .enc s = .next { s with
      fault := 0x106, status := (s.status &&& ~~~2) ||| 1, out := [], outlen := 0, work := Work.idle })

/-- The first cell in stream order that holds no value, or a NaN at an integer depth, faults `ENC` with its channel and frame, and no byte of the
stream is left (R177, R178, R180, R182). Of the model's own fields the count of draws may have advanced (log entry 7) and the temporaries are
idle afterwards (log entry 2). -/
def Obligations.EncFaultsAtFirstBadCell : Prop :=
  ∀ (s : State) (n : Nat) (ch : Channel), faulted s = false → legalDepth (bitDepth s) = true →
    s.sblen.toNat ≤ sbDepth Config.params → n < s.sblen.toNat → encodable s (bitDepth s) n ch = false →
    (∀ n' ch', cellAddress n' ch' < cellAddress n ch → encodable s (bitDepth s) n' ch' = true) →
    let faults := fun (w : Word) => ∃ k, exec .enc s = .next { s with
      fault := w, status := (s.status &&& ~~~2) ||| 1, out := [], outlen := 0, work := Work.idle, draws := k }
    (readCell s n ch = none → faults (BitVec.ofNat 64 (n * 2 ^ 32 + channelIndex ch * 2 ^ 16 + 0x206))) ∧
    (∀ v, readCell s n ch = some v → faults (BitVec.ofNat 64 (n * 2 ^ 32 + channelIndex ch * 2 ^ 16 + 0x7)))

/-- `ENC` reads `CTRL.BITDEPTH`, `SBLEN` and `SB` only: two states that agree on them give the same stream or the same fault, the patterns drawn
for NaN samples being the same (20_memory.md R64, 40_host_commands.md R98; the draws are the model's, log entry 7). -/
def Obligations.EncReadsDepthLengthAndCells : Prop :=
  ∀ s s' : State, faulted s = false → faulted s' = false → bitDepth s' = bitDepth s → s'.sblen = s.sblen → s'.sb = s.sb →
    s'.draws = s.draws →
    ∃ t t', exec .enc s = .next t ∧ exec .enc s' = .next t' ∧ t'.out = t.out ∧ t'.outlen = t.outlen ∧
      outValid t' = outValid t ∧ faulted t' = faulted t ∧ (faulted t = true → t'.fault = t.fault)

/-- `RUN` is `GEN`, then `ENC` if `GEN` did not fault (R99). -/
def Obligations.RunIsGenThenEnc : Prop :=
  ∀ s : State, faulted s = false → ∃ g t, exec .gen s = .next g ∧ exec .run s = .next t ∧
    (faulted g = true → t = g) ∧ (faulted g = false → exec .enc g = .next t)

/-- The whole pipeline (R97 to R99, R134, R152, R153): with a configuration that passes `VALIDATE`, a supported depth, and no NaN value at an integer
depth, `RUN` leaves a valid stream in which the bytes of sample `(n, ch)` are those of the value that the closed form gives frame `n`. -/
def Obligations.RunProducesTheStream : Prop :=
  ∀ s : State, faulted s = false → failedClause Config.params s = none → legalDepth (bitDepth s) = true →
    (∀ n ch, n < (countN Config.params s).toNat →
      bitDepth s = 32 ∨ isNaN (frameValue Config.params s n ch) = false) →
    ∃ t, exec .run s = .next t ∧ outValid t = true ∧ faulted t = false ∧ t.fault = s.fault ∧
      t.sblen = BitVec.ofInt 64 (countN Config.params s) ∧
      t.outlen.toNat = (countN Config.params s).toNat * 2 * (bitDepth s / 8) ∧ t.out.length = t.outlen.toNat ∧
      (∀ n ch, n < (countN Config.params s).toNat → ∃ nan, isQuietNan32 nan = true ∧ ∀ i, i < bitDepth s / 8 →
        t.out[(2 * n + channelIndex ch) * (bitDepth s / 8) + i]? =
          (sampleBytes Config.params nan (bitDepth s) (frameValue Config.params s n ch))[i]?)

/-! ## Numerics -/

/-- `SIN`, `EXP`, `LN` have the named properties, whatever the block that was built (00_scope.md R10). -/
def Obligations.NumericsProperties : Prop :=
  ∀ p : Params,
    let zero := asF64 0
    let negZero := asF64 0x8000000000000000
    let one := asF64 0x3FF0000000000000
    let negOne := asF64 0xBFF0000000000000
    (sinFn p zero = zero ∧ sinFn p negZero = negZero) ∧
    (∀ x, isFinite x = true →
      isFinite (sinFn p x) = true ∧ fle negOne (sinFn p x) = true ∧ fle (sinFn p x) one = true) ∧
    (∀ x, isFinite x = false → isNaN (sinFn p x) = true) ∧
    (expFn p zero = one ∧ expFn p negZero = one) ∧
    (∀ x, isFinite x = true → fge (expFn p x) zero = true ∧ isNaN (expFn p x) = false) ∧
    lnFn p one = zero ∧
    (∀ x, isFinite x = true → fgt x one = true → fgt (lnFn p x) zero = true ∧ isFinite (lnFn p x) = true) ∧
    (∀ x, isFinite x = true → fgt x zero = true → flt x one = true →
      flt (lnFn p x) zero = true ∧ isFinite (lnFn p x) = true) ∧
    (lnFn p zero = .inf true ∧ lnFn p negZero = .inf true ∧ lnFn p (.inf false) = .inf false) ∧
    (∀ x, flt x zero = true → isNaN (lnFn p x) = true) ∧ isNaN (lnFn p .nan) = true

/-- Each value that is not a NaN has one pattern: the pattern of the value of a pattern is that pattern (00_scope.md R7). -/
def Obligations.PatternsRoundTrip : Prop :=
  ∀ u nanPattern : Word, isNaN (asF64 u) = false → bitsF64 nanPattern (asF64 u) = u

/-- The quiet comparisons (00_scope.md R9): false with a NaN, the two zeros equal; on finite data `flt`, `fle`, `feq` are the order and the equality
of the values; the infinities stand at the two ends; `fgt` and `fge` are `flt` and `fle` turned round; and of data that are not NaNs exactly
one of less, equal, greater holds, less and less-or-equal being transitive. -/
def Obligations.ComparisonsAreAnOrder : Prop :=
  (∀ x, flt x .nan = false ∧ flt .nan x = false ∧ fle x .nan = false ∧ fle .nan x = false ∧
    feq x .nan = false ∧ feq .nan x = false) ∧
  feq (asF64 0) (asF64 0x8000000000000000) = true ∧
  (∀ x y, isFinite x = true → isFinite y = true →
    (flt x y = true ↔ value x < value y) ∧ (fle x y = true ↔ value x ≤ value y) ∧ (feq x y = true ↔ value x = value y)) ∧
  (∀ x, isFinite x = true →
    flt (.inf true) x = true ∧ flt x (.inf true) = false ∧ flt x (.inf false) = true ∧ flt (.inf false) x = false ∧
    ∀ n, feq x (.inf n) = false ∧ feq (.inf n) x = false) ∧
  (∀ n m, (flt (.inf n) (.inf m) = true ↔ n = true ∧ m = false) ∧ (feq (.inf n) (.inf m) = true ↔ n = m)) ∧
  (∀ x y, (fle x y = true ↔ flt x y = true ∨ feq x y = true) ∧ fgt x y = flt y x ∧ fge x y = fle y x) ∧
  (∀ x y, isNaN x = false → isNaN y = false →
    (flt x y = true ∧ feq x y = false ∧ flt y x = false) ∨ (flt x y = false ∧ feq x y = true ∧ flt y x = false) ∨
    (flt x y = false ∧ feq x y = false ∧ flt y x = true)) ∧
  (∀ x y z, (flt x y = true → flt y z = true → flt x z = true) ∧ (fle x y = true → fle y z = true → fle x z = true))

/-- Rounding is correct (R9, R148): in a format of `prec` bits whose values are multiples of `2^qmin`, the result of rounding `n / d * 2^e` is a
value of the format at least as near as every other one, even where another is as near; and it is an infinity exactly from the midpoint
above the largest value on. Binary64 and binary32 are two such formats. -/
def Obligations.RoundingIsNearestEven : Prop :=
  ∀ (prec : Nat) (qmin qmax : Int) (neg : Bool) (n d : Nat) (e : Int), 2 ≤ prec → qmin ≤ qmax → 0 < d →
    let exact : ℚ := (n : ℚ) / d * 2 ^ e
    (roundTo prec qmin qmax neg n d e = .inf neg ↔ ((2 : ℚ) ^ (prec + 1) - 1) * 2 ^ (qmax - 1) ≤ exact) ∧
    (roundTo prec qmin qmax neg n d e ≠ .inf neg → ∃ m q, roundTo prec qmin qmax neg n d e = .fin neg m q ∧
      m < 2 ^ prec ∧ qmin ≤ q ∧ q ≤ qmax ∧
      ∀ (m' : Nat) (q' : Int), m' < 2 ^ prec → qmin ≤ q' →
        |(m : ℚ) * 2 ^ q - exact| ≤ |(m' : ℚ) * 2 ^ q' - exact| ∧
        (|(m : ℚ) * 2 ^ q - exact| = |(m' : ℚ) * 2 ^ q' - exact| → (m : ℚ) * 2 ^ q ≠ (m' : ℚ) * 2 ^ q' → m % 2 = 0))

/-- `fadd`, `fsub`, `fmul`, `fdiv` (R9): of finite operands the exact result rounded to binary64, `fdiv` by a zero an infinity of the product sign, or
a NaN for `0/0`; a NaN operand gives a NaN, the invalid operations `inf - inf`, `0 x inf`, `inf/inf` give a NaN, any other sum or product with
an infinity is an infinity, a finite value over an infinity is a zero. The sign of an exact zero sum is presumed from IEEE 754 (log entry 11). -/
def Obligations.ArithmeticRoundsTheExactResult : Prop :=
  (∀ a b : F64, isFinite a = true → isFinite b = true →
    (∃ (n d : Nat) (e : Int), 0 < d ∧ ((n : ℚ) / d * 2 ^ e = |value a * value b|) ∧
      fmul a b = roundTo 53 (-1074) 971 (isNeg a != isNeg b) n d e) ∧
    (value a + value b ≠ 0 → ∃ (n d : Nat) (e : Int), 0 < d ∧ ((n : ℚ) / d * 2 ^ e = |value a + value b|) ∧
      fadd a b = roundTo 53 (-1074) 971 (decide (value a + value b < 0)) n d e) ∧
    (value a + value b = 0 → fadd a b = .fin (isNeg a && isNeg b) 0 (-1074)) ∧
    (value b ≠ 0 → ∃ (n d : Nat) (e : Int), 0 < d ∧ ((n : ℚ) / d * 2 ^ e = |value a / value b|) ∧
      fdiv a b = roundTo 53 (-1074) 971 (isNeg a != isNeg b) n d e) ∧
    (value b = 0 → fdiv a b = if value a = 0 then .nan else .inf (isNeg a != isNeg b))) ∧
  (∀ a b : F64, fsub a b = fadd a (fneg b) ∧ value (fneg b) = -value b ∧ (isNaN b = false → isNeg (fneg b) = !isNeg b)) ∧
  (∀ x : F64, (fadd x .nan = .nan ∧ fsub x .nan = .nan ∧ fmul x .nan = .nan ∧ fdiv x .nan = .nan) ∧
    (fadd .nan x = .nan ∧ fsub .nan x = .nan ∧ fmul .nan x = .nan ∧ fdiv .nan x = .nan)) ∧
  (∀ n m : Bool, fadd (.inf n) (.inf m) = (if n = m then .inf n else .nan) ∧
    fsub (.inf n) (.inf m) = (if n = m then .nan else .inf n) ∧
    fmul (.inf n) (.inf m) = .inf (n != m) ∧ fdiv (.inf n) (.inf m) = .nan) ∧
  (∀ (n : Bool) (b : F64), isFinite b = true →
    (fadd (.inf n) b = .inf n ∧ fadd b (.inf n) = .inf n ∧ fsub (.inf n) b = .inf n ∧ fsub b (.inf n) = .inf (!n)) ∧
    (value b = 0 → fmul (.inf n) b = .nan ∧ fmul b (.inf n) = .nan) ∧
    (value b ≠ 0 → fmul (.inf n) b = .inf (n != isNeg b) ∧ fmul b (.inf n) = .inf (n != isNeg b)) ∧
    fdiv (.inf n) b = .inf (n != isNeg b) ∧ fdiv b (.inf n) = .fin (n != isNeg b) 0 (-1074))

/-- `u2f` of an unsigned integer below `2^53` is the value equal to it. `ffloor` and `frne` of the finite value of a pattern are exact: the largest integral value not above it, and the nearest integral value, ties to
the even integer; both keep the sign, a zero result of `frne` included (R9: `frne(-0.5) = -0`; for `ffloor` of a zero and the other zeros of
`frne` it is presumed from IEEE 754, log entry 11). -/
def Obligations.IntegralRounding : Prop :=
  (∀ n : Nat, n < 2 ^ 53 → isFinite (u2f n) = true ∧ isNeg (u2f n) = false ∧ value (u2f n) = n) ∧
  ∀ (p : Params) (u : Word), isFinite (asF64 u) = true →
    isFinite (ffloor (asF64 u)) = true ∧ value (ffloor (asF64 u)) = ⌊value (asF64 u)⌋ ∧
    f2int p (ffloor (asF64 u)) = ⌊value (asF64 u)⌋ ∧
    isFinite (frne (asF64 u)) = true ∧ value (frne (asF64 u)) = f2int p (frne (asF64 u)) ∧
    |value (asF64 u) - f2int p (frne (asF64 u))| ≤ 1 / 2 ∧
    (|value (asF64 u) - f2int p (frne (asF64 u))| = 1 / 2 → f2int p (frne (asF64 u)) % 2 = 0) ∧
    isNeg (ffloor (asF64 u)) = isNeg (asF64 u) ∧ isNeg (frne (asF64 u)) = isNeg (asF64 u)
end

