-- ==== Sys2Proof/Laws/Float.lean ====
section
/-! SUPPORT. What the floating-point primitives compute, said once over the rationals: values, comparisons, rounding of exact
integers, canonical results, patterns. -/

namespace Sys2Proof.Machine

theorem pow2_cast {k : Int} (h : 0 ≤ k) : ((pow2 k : Nat) : ℚ) = 2 ^ k := by
  obtain ⟨n, rfl⟩ := Int.eq_ofNat_of_zero_le h
  simp [pow2]

theorem pow2_pos (k : Int) : 0 < pow2 k := Nat.pow_pos (by norm_num)

theorem pow2_of_nonpos {k : Int} (h : k ≤ 0) : pow2 k = 1 := by
  simp [pow2, Int.toNat_of_nonpos h]

theorem two_zpow_pos (k : Int) : (0 : ℚ) < 2 ^ k := zpow_pos (by norm_num) k

/-- One factor is 1: the difference of the two is the power itself. -/
theorem pow2_div (k : Int) : ((pow2 k : Nat) : ℚ) / (pow2 (-k) : Nat) = 2 ^ k := by
  rcases le_total 0 k with h | h
  · rw [pow2_cast h, pow2_of_nonpos (by omega : -k ≤ 0)]; simp
  · rw [pow2_of_nonpos h, pow2_cast (by omega : 0 ≤ -k)]; simp

theorem inUnits_value {neg : Bool} {m : Nat} {e k : Int} (h : k ≤ e) :
    (inUnits neg m e k : ℚ) * 2 ^ k = value (.fin neg m e) := by
  have hp : ((m * pow2 (e - k) : Nat) : ℚ) * 2 ^ k = (m : ℚ) * 2 ^ e := by
    rw [Nat.cast_mul, pow2_cast (by omega), mul_assoc, ← zpow_add₀ (by norm_num)]
    congr 2
    omega
  cases neg <;> simp only [inUnits, signedInt, value, Bool.false_eq_true, if_true, if_false] <;> push_cast at hp ⊢ <;> linarith

/-- `flt` on finite data is the order of their values. -/
theorem flt_fin {na nb : Bool} {ma mb : Nat} {ea eb : Int} :
    flt (.fin na ma ea) (.fin nb mb eb) = true ↔ value (.fin na ma ea) < value (.fin nb mb eb) := by
  rw [← inUnits_value (min_le_left ea eb), ← inUnits_value (min_le_right ea eb),
    mul_lt_mul_iff_of_pos_right (two_zpow_pos _)]
  simp [flt]

/-- `feq` on finite data is equality of their values. -/
theorem feq_fin {na nb : Bool} {ma mb : Nat} {ea eb : Int} :
    feq (.fin na ma ea) (.fin nb mb eb) = true ↔ value (.fin na ma ea) = value (.fin nb mb eb) := by
  rw [← inUnits_value (min_le_left ea eb), ← inUnits_value (min_le_right ea eb),
    mul_left_inj' (two_zpow_pos _).ne']
  simp [feq]

/-- `fle` on finite data is the order of their values. -/
theorem fle_fin {na nb : Bool} {ma mb : Nat} {ea eb : Int} :
    fle (.fin na ma ea) (.fin nb mb eb) = true ↔ value (.fin na ma ea) ≤ value (.fin nb mb eb) := by
  rw [fle, Bool.or_eq_true, flt_fin, feq_fin, ← le_iff_lt_or_eq]

theorem divNearestEven_le {n d k : Nat} (hd : 0 < d) (h : n ≤ k * d) : divNearestEven n d ≤ k := by
  have hdm := Nat.div_add_mod n d
  have hr := Nat.mod_lt n hd
  have hq : n / d ≤ k := Nat.div_le_of_le_mul (by rwa [Nat.mul_comm])
  rcases Nat.lt_or_ge (n / d) k with hlt | hge
  · have : n / d % 2 ≤ 1 := by omega
    simp only [divNearestEven]
    split <;> [omega; split <;> omega]
  · have heq : n / d = k := le_antisymm hq hge
    have h0 : n % d = 0 := by rw [heq, Nat.mul_comm] at hdm; exact Nat.le_zero.1 (by linarith)
    simp [divNearestEven, h0, hd, heq]

theorem le_divNearestEven {n d k : Nat} (hd : 0 < d) (h : k * d ≤ n) : k ≤ divNearestEven n d := by
  have hq : k ≤ n / d := (Nat.le_div_iff_mul_le hd).2 h
  simp only [divNearestEven]
  split <;> [omega; split <;> omega]

theorem divNearestEven_mul {k d : Nat} (hd : 0 < d) : divNearestEven (k * d) d = k :=
  le_antisymm (divNearestEven_le hd le_rfl) (le_divNearestEven hd le_rfl)

theorem ratioLog2_spec {n d : Nat} (hn : 0 < n) (hd : 0 < d) :
    (2 : ℚ) ^ ratioLog2 n d ≤ (n : ℚ) / d ∧ (n : ℚ) / d < 2 ^ (ratioLog2 n d + 1) := by
  have hn1 : (2 : ℚ) ^ (Nat.log2 n : Int) ≤ n := by exact_mod_cast Nat.log2_self_le hn.ne'
  have hn2 : (n : ℚ) < 2 ^ ((Nat.log2 n : Int) + 1) := by exact_mod_cast Nat.lt_log2_self
  have hd1 : (2 : ℚ) ^ (Nat.log2 d : Int) ≤ d := by exact_mod_cast Nat.log2_self_le hd.ne'
  have hd2 : (d : ℚ) < 2 ^ ((Nat.log2 d : Int) + 1) := by exact_mod_cast Nat.lt_log2_self
  have hdq : (0 : ℚ) < d := by exact_mod_cast hd
  set l : Int := (Nat.log2 n : Int) - (Nat.log2 d : Int) with hl
  have hup : (n : ℚ) / d < 2 ^ (l + 1) := by
    rw [div_lt_iff₀ hdq]
    calc (n : ℚ) < 2 ^ ((Nat.log2 n : Int) + 1) := hn2
      _ = 2 ^ (l + 1) * 2 ^ (Nat.log2 d : Int) := by rw [← zpow_add₀ (by norm_num)]; congr 1; omega
      _ ≤ 2 ^ (l + 1) * d := by gcongr
  have hlo : (2 : ℚ) ^ (l - 1) ≤ n / d := by
    rw [le_div_iff₀ hdq]
    calc (2 : ℚ) ^ (l - 1) * d ≤ 2 ^ (l - 1) * 2 ^ ((Nat.log2 d : Int) + 1) := by gcongr
      _ = 2 ^ (Nat.log2 n : Int) := by rw [← zpow_add₀ (by norm_num)]; congr 1; omega
      _ ≤ n := hn1
  have htest : (d * pow2 l ≤ n * pow2 (-l)) ↔ (2 : ℚ) ^ l ≤ n / d := by
    have hp : (0 : ℚ) < (pow2 (-l) : Nat) := by exact_mod_cast pow2_pos _
    rw [← pow2_div l, div_le_div_iff₀ hp hdq, ← Nat.cast_mul, ← Nat.cast_mul, Nat.cast_le, Nat.mul_comm d]
  simp only [ratioLog2]
  rw [← hl]
  split
  · exact ⟨htest.1 ‹_›, hup⟩
  · rename_i hnot
    exact ⟨hlo, by rw [sub_add_cancel]; exact not_le.1 (fun h => hnot (htest.2 h))⟩

/-- The exact quotient that `roundTo` rounds, in units of `2^q`, is the value divided by the unit. -/
theorem units_value {n d : Nat} {e q : Int} (hd : 0 < d) :
    ((n * pow2 (e - q) : Nat) : ℚ) / (d * pow2 (q - e) : Nat) * 2 ^ q = (n : ℚ) / d * 2 ^ e := by
  have h := pow2_div (e - q)
  rw [neg_sub] at h
  have hz : (2 : ℚ) ^ e = 2 ^ (e - q) * 2 ^ q := by rw [← zpow_add₀ (by norm_num)]; congr 1; omega
  rw [hz, ← h]
  push_cast
  have hdq : (d : ℚ) ≠ 0 := by exact_mod_cast hd.ne'
  have hp : ((pow2 (q - e) : Nat) : ℚ) ≠ 0 := by exact_mod_cast (pow2_pos _).ne'
  field_simp

/-- A mantissa of `roundTo` has at most `prec` bits, or is the power of two just above. -/
theorem mantissa_le {prec : Nat} {qmin e : Int} {n d : Nat} (hn : 0 < n) (hd : 0 < d) :
    let q := roundUnit prec qmin n d e
    divNearestEven (n * pow2 (e - q)) (d * pow2 (q - e)) ≤ 2 ^ prec := by
  intro q
  have hdd : 0 < d * pow2 (q - e) := Nat.mul_pos hd (pow2_pos _)
  apply divNearestEven_le hdd
  have hlog := (ratioLog2_spec hn hd).2
  have hq : ratioLog2 n d + e + 1 ≤ q + prec := by
    have : ratioLog2 n d + e - ((prec : Int) - 1) ≤ q := le_max_right _ _
    omega
  have hv : (n : ℚ) / d * 2 ^ e < 2 ^ (q + (prec : Int)) := by
    calc (n : ℚ) / d * 2 ^ e < 2 ^ (ratioLog2 n d + 1) * 2 ^ e := by gcongr
      _ = 2 ^ (ratioLog2 n d + e + 1) := by rw [← zpow_add₀ (by norm_num)]; congr 1; omega
      _ ≤ 2 ^ (q + (prec : Int)) := zpow_le_zpow_right₀ (by norm_num) hq
  rw [← units_value (q := q) hd, zpow_add₀ (by norm_num), mul_comm ((2 : ℚ) ^ q)] at hv
  have hlt := lt_of_mul_lt_mul_right hv (two_zpow_pos q).le
  rw [div_lt_iff₀ (by exact_mod_cast hdd)] at hlt
  exact_mod_cast hlt.le

/-- Above the smallest unit a mantissa of `roundTo` has its top bit set. -/
theorem le_mantissa {prec : Nat} {qmin e : Int} {n d : Nat} (hp : 0 < prec) (hn : 0 < n) (hd : 0 < d)
    (hq : roundUnit prec qmin n d e ≠ qmin) :
    let q := roundUnit prec qmin n d e
    2 ^ (prec - 1) ≤ divNearestEven (n * pow2 (e - q)) (d * pow2 (q - e)) := by
  intro q
  have hdd : 0 < d * pow2 (q - e) := Nat.mul_pos hd (pow2_pos _)
  apply le_divNearestEven hdd
  have hlog := (ratioLog2_spec hn hd).1
  have hq' : q + ((prec - 1 : Nat) : Int) = ratioLog2 n d + e := by
    have : q = max qmin (ratioLog2 n d + e - ((prec : Int) - 1)) := rfl
    have hne : q ≠ qmin := hq
    omega
  have hv : (2 : ℚ) ^ (q + ((prec - 1 : Nat) : Int)) ≤ (n : ℚ) / d * 2 ^ e := by
    rw [hq', zpow_add₀ (by norm_num)]
    gcongr
  rw [← units_value (q := q) hd, zpow_add₀ (by norm_num), mul_comm ((2 : ℚ) ^ q)] at hv
  have hle := le_of_mul_le_mul_right hv (two_zpow_pos q)
  rw [le_div_iff₀ (by exact_mod_cast hdd)] at hle
  exact_mod_cast hle

/-- Every result of a rounding to binary64 is a binary64 datum. -/
theorem round64_canonical (neg : Bool) {n d : Nat} (hd : 0 < d) (e : Int) : canonical (round64 neg n d e) := by
  rw [round64, roundTo]
  split
  · simp [canonical]
  · rename_i hn
    have hn' : 0 < n := Nat.pos_of_ne_zero hn
    have hle := mantissa_le (prec := 53) (qmin := -1074) (e := e) hn' hd
    have hge := le_mantissa (prec := 53) (qmin := -1074) (e := e) (by norm_num) hn' hd
    have hq : (-1074 : Int) ≤ roundUnit 53 (-1074) n d e := le_max_left _ _
    simp only at hle hge ⊢
    generalize roundUnit 53 (-1074) n d e = q at *
    generalize divNearestEven (n * pow2 (e - q)) (d * pow2 (q - e)) = m at *
    by_cases hqe : q = -1074
    · split <;> [simp [canonical]; split <;> split <;> simp [canonical] <;> omega]
    · have := hge hqe
      split <;> [simp [canonical]; split <;> split <;> simp [canonical] <;> omega]

theorem posZero_canonical : canonical posZero := by simp [posZero, canonical]

theorem fmul_canonical (a b : F64) : canonical (fmul a b) := by
  cases a <;> cases b <;> simp only [fmul] <;> (try split) <;> first | trivial | exact round64_canonical _ one_pos _

theorem fadd_canonical (a b : F64) : canonical (fadd a b) := by
  cases a <;> cases b <;> simp only [fadd] <;> (try split) <;>
    first | trivial | exact round64_canonical _ one_pos _

theorem fdiv_canonical (a b : F64) : canonical (fdiv a b) := by
  cases a <;> cases b <;> simp only [fdiv]
  case fin.fin na ma ea nb mb eb =>
    split
    · split <;> trivial
    · exact round64_canonical _ (Nat.pos_of_ne_zero ‹_›) _
  all_goals simp [canonical]

/-- The value of a pattern is a binary64 datum. -/
theorem asF64_canonical (u : Word) : canonical (asF64 u) := by
  have hf : (u.extractLsb' 0 52).toNat < 2 ^ 52 := BitVec.isLt _
  have he : (u.extractLsb' 52 11).toNat < 2 ^ 11 := BitVec.isLt _
  simp only [asF64]
  generalize (u.extractLsb' 0 52).toNat = f at *
  generalize (u.extractLsb' 52 11).toNat = b at *
  split
  · split <;> simp [canonical]
  · split <;> simp [canonical] <;> omega

/-- An integer of at most 53 bits is rounded to itself. -/
theorem value_round64_nat (neg : Bool) {n : Nat} (h : n < 2 ^ 53) :
    ∃ m e, round64 neg n 1 0 = .fin neg m e ∧ value (.fin neg m e) = signedInt neg n ∧
      (0 ≤ e → m * pow2 e = n) ∧ (e < 0 → m = n * pow2 (-e)) := by
  rw [round64, roundTo]
  split
  · rename_i h0
    subst h0
    refine ⟨0, -1074, rfl, ?_, by omega, by simp⟩
    simp [value, signedInt]
  · rename_i hn
    have hn' : 0 < n := Nat.pos_of_ne_zero hn
    have hl1 : (2 : Nat) ^ Nat.log2 n ≤ n := Nat.log2_self_le hn
    have hl2 : Nat.log2 n < 53 := by
      by_contra hc
      exact absurd (lt_of_le_of_lt hl1 h) (not_lt.2 (Nat.pow_le_pow_right (by norm_num) (by omega)))
    have hq : roundUnit 53 (-1074) n 1 0 ≤ 0 ∧ -1074 ≤ roundUnit 53 (-1074) n 1 0 := by
      have hr := (ratioLog2_spec hn' one_pos).1
      have hlt : ratioLog2 n 1 < 53 := by
        by_contra hc
        have h53 : (2 : ℚ) ^ (53 : Int) ≤ 2 ^ ratioLog2 n 1 := zpow_le_zpow_right₀ (by norm_num) (by omega)
        have hnq : (n : ℚ) < 2 ^ 53 := by exact_mod_cast h
        have : (2 : ℚ) ^ (53 : Int) ≤ n := by simpa using h53.trans hr
        exact absurd this (not_le.2 (by simpa using hnq))
      simp only [roundUnit]
      omega
    have hle := mantissa_le (prec := 53) (qmin := -1074) (e := 0) hn' one_pos
    simp only at hle ⊢
    generalize roundUnit 53 (-1074) n 1 0 = q at *
    have hm : divNearestEven (n * pow2 (0 - q)) (1 * pow2 (q - 0)) = n * pow2 (-q) := by
      rw [pow2_of_nonpos (by omega : q - 0 ≤ 0), zero_sub]
      simpa using divNearestEven_mul (k := n * pow2 (-q)) one_pos
    rw [hm] at hle ⊢
    have hval : ((n * pow2 (-q) : Nat) : ℚ) * 2 ^ q = n := by
      rw [Nat.cast_mul, pow2_cast (by omega), mul_assoc, ← zpow_add₀ (by norm_num)]
      simp
    have hpos : 0 < n * pow2 (-q) := Nat.mul_pos hn' (pow2_pos _)
    rw [if_neg hpos.ne']
    split
    · rename_i htop
      rw [if_neg (by omega)]
      have hq1 : q + 1 ≤ 0 := by
        by_contra hc
        have : q = 0 := by omega
        subst this
        simp [pow2] at htop
        omega
      have hv1 : ((2 ^ (53 - 1) : Nat) : ℚ) * 2 ^ (q + 1) = n := by
        rw [← hval, htop, zpow_add₀ (by norm_num)]
        push_cast
        ring
      refine ⟨_, _, rfl, ?_, ?_, ?_⟩
      · cases neg <;> simp only [value, signedInt, Bool.false_eq_true, if_true, if_false] <;> push_cast at hv1 ⊢ <;> linarith
      · intro h0
        have : q + 1 = 0 := by omega
        rw [this] at hv1 ⊢
        simp only [zpow_zero, mul_one] at hv1
        have hv2 : 2 ^ (53 - 1) = n := by exact_mod_cast hv1
        simp [pow2, hv2]
      · intro _
        have hq2 : ((pow2 (-(q + 1)) : Nat) : ℚ) = 2 ^ (-(q + 1)) := pow2_cast (by omega)
        have : ((2 ^ (53 - 1) : Nat) : ℚ) = (n * pow2 (-(q + 1)) : Nat) := by
          rw [Nat.cast_mul, hq2, ← hv1, mul_assoc, ← zpow_add₀ (by norm_num)]
          simp
        exact_mod_cast this
    · rw [if_neg (by omega)]
      refine ⟨_, _, rfl, ?_, ?_, fun _ => rfl⟩
      · cases neg <;> simp only [value, signedInt, Bool.false_eq_true, if_true, if_false] <;> push_cast at hval ⊢ <;> linarith
      · intro h0
        have : q = 0 := by omega
        subst this
        simp [pow2]

/-- `u2f` is exact below `2^53` (00_scope.md R9). -/
theorem value_u2f {n : Nat} (h : n < 2 ^ 53) : ∃ m e, u2f n = .fin false m e ∧ value (.fin false m e) = n := by
  obtain ⟨m, e, h1, h2, -⟩ := value_round64_nat false h
  have heq : feq (.fin false m e) (.fin false n 0) = true := by rw [feq_fin, h2]; simp [value]
  refine ⟨m, e, ?_, by simpa [signedInt] using h2⟩
  simp [u2f, h1, heq]

/-- `f2int` undoes the rounding of an integer of at most 53 bits. -/
theorem f2int_round64_nat (p : Params) (neg : Bool) {n : Nat} (h : n < 2 ^ 53) :
    f2int p (round64 neg n 1 0) = signedInt neg n := by
  obtain ⟨m, e, h1, -, h3, h4⟩ := value_round64_nat neg h
  rw [h1]
  simp only [f2int]
  split
  · rw [h3 ‹_›]
  · have hm := h4 (by omega)
    rw [hm, Nat.mul_mod_left, if_pos rfl, Nat.mul_div_cancel _ (pow2_pos _)]

end Sys2Proof.Machine
end

