-- ==== Sys2Proof/Laws/Memory.lean ====
section
/-! SUPPORT. Read after write, and the canonical form of `SB`. -/

namespace Sys2Proof.Machine

/-- A cell reads as what was last written to it (20_memory.md R60). -/
@[simp] theorem read_write_same (m : Memory) (a : Nat) (v : Word) : Memory.read (Memory.write m a v) a = some v := by
  induction m with
  | nil => simp [Memory.write, Memory.read]
  | cons c m ih =>
    obtain ⟨b, w⟩ := c
    simp only [Memory.write]
    split
    · simp [Memory.read]
    · split
      · simp [Memory.read]
      · simp [Memory.read, *]

/-- A write leaves every other cell alone. -/
theorem read_write_other (m : Memory) {a b : Nat} (v : Word) (h : b ≠ a) :
    Memory.read (Memory.write m a v) b = Memory.read m b := by
  induction m with
  | nil => simp [Memory.write, Memory.read, h]
  | cons c m ih =>
    obtain ⟨k, w⟩ := c
    simp only [Memory.write]
    split
    · simp [Memory.read, h]
    · split
      · subst ‹a = k›; simp [Memory.read, h]
      · simp [Memory.read, ih]

/-- The addresses of a memory after a write. -/
theorem mem_write {m : Memory} {a : Nat} {v : Word} {c : Nat × Word} (h : c ∈ Memory.write m a v) : c = (a, v) ∨ c ∈ m := by
  induction m with
  | nil => simpa [Memory.write] using h
  | cons k m ih =>
    obtain ⟨b, w⟩ := k
    simp only [Memory.write] at h
    split at h
    · simpa using h
    · split at h
      · rcases List.mem_cons.1 h with h | h <;> simp [h]
      · rcases List.mem_cons.1 h with h | h
        · simp [h]
        · rcases ih h with h | h <;> simp [h]

/-- A write keeps the canonical form. -/
theorem wf_write {m : Memory} (h : Memory.wf m) (a : Nat) (v : Word) : Memory.wf (Memory.write m a v) := by
  induction m with
  | nil => simp [Memory.write, Memory.wf]
  | cons k m ih =>
    obtain ⟨b, w⟩ := k
    have hcons : (∀ x ∈ m.map Prod.fst, b < x) ∧ Memory.wf m := by simpa [Memory.wf] using h
    simp only [Memory.write]
    split
    · rename_i hab
      simp only [Memory.wf, List.map_cons, List.pairwise_cons]
      exact ⟨by simpa using ⟨hab, fun x y hxy => hab.trans (hcons.1 x (List.mem_map_of_mem (f := Prod.fst) hxy))⟩, hcons⟩
    · split
      · rename_i hab
        subst hab
        simpa [Memory.wf] using h
      · simp only [Memory.wf, List.map_cons, List.pairwise_cons]
        refine ⟨fun x hx => ?_, ih hcons.2⟩
        obtain ⟨c, hc, rfl⟩ := List.mem_map.1 hx
        rcases mem_write hc with rfl | hc
        · exact lt_of_le_of_ne (by omega) (fun h => by omega)
        · exact hcons.1 _ (List.mem_map_of_mem hc)

/-- Different cells have different addresses. -/
theorem cellAddress_injective {n n' : Nat} {ch ch' : Channel} (h : cellAddress n ch = cellAddress n' ch') : n = n' ∧ ch = ch' := by
  cases ch <;> cases ch' <;> simp [cellAddress, channelIndex] at h ⊢ <;> omega

/-- The address of a cell of a frame that `SB` has. -/
theorem cellAddress_lt {n d : Nat} (ch : Channel) (h : n < d) : cellAddress n ch < 2 * d := by
  cases ch <;> simp [cellAddress, channelIndex] <;> omega

/-- `MemRead` after `MemWrite` of the same cell. -/
@[simp] theorem readCell_writeCell_same (s : State) (n : Nat) (ch : Channel) (v : Word) :
    readCell (writeCell s n ch v) n ch = some v := by
  simp [readCell, writeCell]

/-- `MemRead` after `MemWrite` of another cell. -/
theorem readCell_writeCell_other (s : State) {n n' : Nat} {ch ch' : Channel} (v : Word) (h : n' ≠ n ∨ ch' ≠ ch) :
    readCell (writeCell s n ch v) n' ch' = readCell s n' ch' := by
  apply read_write_other
  intro hc
  obtain ⟨h1, h2⟩ := cellAddress_injective hc
  cases h <;> contradiction

/-- `SB` after reset is in canonical form. -/
theorem reset_memory_wf : Memory.wf State.reset.sb := by simp [State.reset, Memory.wf]

end Sys2Proof.Machine
end

