-- ==== Sys2Proof/Laws/State.lean ====
section
/-! SUPPORT. One lemma per field per named update of the state, true by unfolding, so that no later proof unfolds a record update. For an
operation that only sets temporaries, one lemma says so. -/

namespace Sys2Proof.Machine

@[simp] theorem writeCell_ctrl (s : State) (n : Nat) (ch : Channel) (v : Word) : (writeCell s n ch v).ctrl = s.ctrl := rfl
@[simp] theorem writeCell_duration (s : State) (n : Nat) (ch : Channel) (v : Word) : (writeCell s n ch v).duration = s.duration := rfl
@[simp] theorem writeCell_sampleRate (s : State) (n : Nat) (ch : Channel) (v : Word) : (writeCell s n ch v).sampleRate = s.sampleRate := rfl
@[simp] theorem writeCell_f0l (s : State) (n : Nat) (ch : Channel) (v : Word) : (writeCell s n ch v).f0l = s.f0l := rfl
@[simp] theorem writeCell_f1l (s : State) (n : Nat) (ch : Channel) (v : Word) : (writeCell s n ch v).f1l = s.f1l := rfl
@[simp] theorem writeCell_f0r (s : State) (n : Nat) (ch : Channel) (v : Word) : (writeCell s n ch v).f0r = s.f0r := rfl
@[simp] theorem writeCell_f1r (s : State) (n : Nat) (ch : Channel) (v : Word) : (writeCell s n ch v).f1r = s.f1r := rfl
@[simp] theorem writeCell_delay (s : State) (n : Nat) (ch : Channel) (v : Word) : (writeCell s n ch v).delay = s.delay := rfl
@[simp] theorem writeCell_volume (s : State) (n : Nat) (ch : Channel) (v : Word) : (writeCell s n ch v).volume = s.volume := rfl
@[simp] theorem writeCell_sblen (s : State) (n : Nat) (ch : Channel) (v : Word) : (writeCell s n ch v).sblen = s.sblen := rfl
@[simp] theorem writeCell_status (s : State) (n : Nat) (ch : Channel) (v : Word) : (writeCell s n ch v).status = s.status := rfl
@[simp] theorem writeCell_fault (s : State) (n : Nat) (ch : Channel) (v : Word) : (writeCell s n ch v).fault = s.fault := rfl
@[simp] theorem writeCell_dlen (s : State) (n : Nat) (ch : Channel) (v : Word) : (writeCell s n ch v).dlen = s.dlen := rfl
@[simp] theorem writeCell_flen (s : State) (n : Nat) (ch : Channel) (v : Word) : (writeCell s n ch v).flen = s.flen := rfl
@[simp] theorem writeCell_outlen (s : State) (n : Nat) (ch : Channel) (v : Word) : (writeCell s n ch v).outlen = s.outlen := rfl
@[simp] theorem writeCell_sb (s : State) (n : Nat) (ch : Channel) (v : Word) : (writeCell s n ch v).sb = Memory.write s.sb (cellAddress n ch) v := rfl
@[simp] theorem writeCell_out (s : State) (n : Nat) (ch : Channel) (v : Word) : (writeCell s n ch v).out = s.out := rfl
@[simp] theorem writeCell_work (s : State) (n : Nat) (ch : Channel) (v : Word) : (writeCell s n ch v).work = s.work := rfl
@[simp] theorem writeCell_stage (s : State) (n : Nat) (ch : Channel) (v : Word) : (writeCell s n ch v).stage = s.stage := rfl
@[simp] theorem writeCell_inbox (s : State) (n : Nat) (ch : Channel) (v : Word) : (writeCell s n ch v).inbox = s.inbox := rfl
@[simp] theorem writeCell_reply (s : State) (n : Nat) (ch : Channel) (v : Word) : (writeCell s n ch v).reply = s.reply := rfl
@[simp] theorem writeCell_draws (s : State) (n : Nat) (ch : Channel) (v : Word) : (writeCell s n ch v).draws = s.draws := rfl

@[simp] theorem appendOut_ctrl (s : State) (b : List Byte) : (appendOut s b).ctrl = s.ctrl := rfl
@[simp] theorem appendOut_duration (s : State) (b : List Byte) : (appendOut s b).duration = s.duration := rfl
@[simp] theorem appendOut_sampleRate (s : State) (b : List Byte) : (appendOut s b).sampleRate = s.sampleRate := rfl
@[simp] theorem appendOut_f0l (s : State) (b : List Byte) : (appendOut s b).f0l = s.f0l := rfl
@[simp] theorem appendOut_f1l (s : State) (b : List Byte) : (appendOut s b).f1l = s.f1l := rfl
@[simp] theorem appendOut_f0r (s : State) (b : List Byte) : (appendOut s b).f0r = s.f0r := rfl
@[simp] theorem appendOut_f1r (s : State) (b : List Byte) : (appendOut s b).f1r = s.f1r := rfl
@[simp] theorem appendOut_delay (s : State) (b : List Byte) : (appendOut s b).delay = s.delay := rfl
@[simp] theorem appendOut_volume (s : State) (b : List Byte) : (appendOut s b).volume = s.volume := rfl
@[simp] theorem appendOut_sblen (s : State) (b : List Byte) : (appendOut s b).sblen = s.sblen := rfl
@[simp] theorem appendOut_status (s : State) (b : List Byte) : (appendOut s b).status = s.status := rfl
@[simp] theorem appendOut_fault (s : State) (b : List Byte) : (appendOut s b).fault = s.fault := rfl
@[simp] theorem appendOut_dlen (s : State) (b : List Byte) : (appendOut s b).dlen = s.dlen := rfl
@[simp] theorem appendOut_flen (s : State) (b : List Byte) : (appendOut s b).flen = s.flen := rfl
@[simp] theorem appendOut_outlen (s : State) (b : List Byte) : (appendOut s b).outlen = s.outlen := rfl
@[simp] theorem appendOut_sb (s : State) (b : List Byte) : (appendOut s b).sb = s.sb := rfl
@[simp] theorem appendOut_out (s : State) (b : List Byte) : (appendOut s b).out = s.out ++ b := rfl
@[simp] theorem appendOut_work (s : State) (b : List Byte) : (appendOut s b).work = s.work := rfl
@[simp] theorem appendOut_stage (s : State) (b : List Byte) : (appendOut s b).stage = s.stage := rfl
@[simp] theorem appendOut_inbox (s : State) (b : List Byte) : (appendOut s b).inbox = s.inbox := rfl
@[simp] theorem appendOut_reply (s : State) (b : List Byte) : (appendOut s b).reply = s.reply := rfl
@[simp] theorem appendOut_draws (s : State) (b : List Byte) : (appendOut s b).draws = s.draws := rfl

@[simp] theorem emptyOut_ctrl (s : State) : (emptyOut s).ctrl = s.ctrl := rfl
@[simp] theorem emptyOut_duration (s : State) : (emptyOut s).duration = s.duration := rfl
@[simp] theorem emptyOut_sampleRate (s : State) : (emptyOut s).sampleRate = s.sampleRate := rfl
@[simp] theorem emptyOut_f0l (s : State) : (emptyOut s).f0l = s.f0l := rfl
@[simp] theorem emptyOut_f1l (s : State) : (emptyOut s).f1l = s.f1l := rfl
@[simp] theorem emptyOut_f0r (s : State) : (emptyOut s).f0r = s.f0r := rfl
@[simp] theorem emptyOut_f1r (s : State) : (emptyOut s).f1r = s.f1r := rfl
@[simp] theorem emptyOut_delay (s : State) : (emptyOut s).delay = s.delay := rfl
@[simp] theorem emptyOut_volume (s : State) : (emptyOut s).volume = s.volume := rfl
@[simp] theorem emptyOut_sblen (s : State) : (emptyOut s).sblen = s.sblen := rfl
@[simp] theorem emptyOut_status (s : State) : (emptyOut s).status = withoutOutValid s.status := rfl
@[simp] theorem emptyOut_fault (s : State) : (emptyOut s).fault = s.fault := rfl
@[simp] theorem emptyOut_dlen (s : State) : (emptyOut s).dlen = s.dlen := rfl
@[simp] theorem emptyOut_flen (s : State) : (emptyOut s).flen = s.flen := rfl
@[simp] theorem emptyOut_outlen (s : State) : (emptyOut s).outlen = 0 := rfl
@[simp] theorem emptyOut_sb (s : State) : (emptyOut s).sb = s.sb := rfl
@[simp] theorem emptyOut_out (s : State) : (emptyOut s).out = [] := rfl
@[simp] theorem emptyOut_work (s : State) : (emptyOut s).work = s.work := rfl
@[simp] theorem emptyOut_stage (s : State) : (emptyOut s).stage = s.stage := rfl
@[simp] theorem emptyOut_inbox (s : State) : (emptyOut s).inbox = s.inbox := rfl
@[simp] theorem emptyOut_reply (s : State) : (emptyOut s).reply = s.reply := rfl
@[simp] theorem emptyOut_draws (s : State) : (emptyOut s).draws = s.draws := rfl

@[simp] theorem clearFault_ctrl (s : State) : (clearFault s).ctrl = s.ctrl := rfl
@[simp] theorem clearFault_duration (s : State) : (clearFault s).duration = s.duration := rfl
@[simp] theorem clearFault_sampleRate (s : State) : (clearFault s).sampleRate = s.sampleRate := rfl
@[simp] theorem clearFault_f0l (s : State) : (clearFault s).f0l = s.f0l := rfl
@[simp] theorem clearFault_f1l (s : State) : (clearFault s).f1l = s.f1l := rfl
@[simp] theorem clearFault_f0r (s : State) : (clearFault s).f0r = s.f0r := rfl
@[simp] theorem clearFault_f1r (s : State) : (clearFault s).f1r = s.f1r := rfl
@[simp] theorem clearFault_delay (s : State) : (clearFault s).delay = s.delay := rfl
@[simp] theorem clearFault_volume (s : State) : (clearFault s).volume = s.volume := rfl
@[simp] theorem clearFault_sblen (s : State) : (clearFault s).sblen = s.sblen := rfl
@[simp] theorem clearFault_status (s : State) : (clearFault s).status = withoutFaulted s.status := rfl
@[simp] theorem clearFault_fault (s : State) : (clearFault s).fault = 0 := rfl
@[simp] theorem clearFault_dlen (s : State) : (clearFault s).dlen = s.dlen := rfl
@[simp] theorem clearFault_flen (s : State) : (clearFault s).flen = s.flen := rfl
@[simp] theorem clearFault_outlen (s : State) : (clearFault s).outlen = s.outlen := rfl
@[simp] theorem clearFault_sb (s : State) : (clearFault s).sb = s.sb := rfl
@[simp] theorem clearFault_out (s : State) : (clearFault s).out = s.out := rfl
@[simp] theorem clearFault_work (s : State) : (clearFault s).work = s.work := rfl
@[simp] theorem clearFault_stage (s : State) : (clearFault s).stage = s.stage := rfl
@[simp] theorem clearFault_inbox (s : State) : (clearFault s).inbox = s.inbox := rfl
@[simp] theorem clearFault_reply (s : State) : (clearFault s).reply = s.reply := rfl
@[simp] theorem clearFault_draws (s : State) : (clearFault s).draws = s.draws := rfl

@[simp] theorem endCommand_ctrl (s : State) : (endCommand s).ctrl = s.ctrl := rfl
@[simp] theorem endCommand_duration (s : State) : (endCommand s).duration = s.duration := rfl
@[simp] theorem endCommand_sampleRate (s : State) : (endCommand s).sampleRate = s.sampleRate := rfl
@[simp] theorem endCommand_f0l (s : State) : (endCommand s).f0l = s.f0l := rfl
@[simp] theorem endCommand_f1l (s : State) : (endCommand s).f1l = s.f1l := rfl
@[simp] theorem endCommand_f0r (s : State) : (endCommand s).f0r = s.f0r := rfl
@[simp] theorem endCommand_f1r (s : State) : (endCommand s).f1r = s.f1r := rfl
@[simp] theorem endCommand_delay (s : State) : (endCommand s).delay = s.delay := rfl
@[simp] theorem endCommand_volume (s : State) : (endCommand s).volume = s.volume := rfl
@[simp] theorem endCommand_sblen (s : State) : (endCommand s).sblen = s.sblen := rfl
@[simp] theorem endCommand_status (s : State) : (endCommand s).status = s.status := rfl
@[simp] theorem endCommand_fault (s : State) : (endCommand s).fault = s.fault := rfl
@[simp] theorem endCommand_dlen (s : State) : (endCommand s).dlen = s.dlen := rfl
@[simp] theorem endCommand_flen (s : State) : (endCommand s).flen = s.flen := rfl
@[simp] theorem endCommand_outlen (s : State) : (endCommand s).outlen = s.outlen := rfl
@[simp] theorem endCommand_sb (s : State) : (endCommand s).sb = s.sb := rfl
@[simp] theorem endCommand_out (s : State) : (endCommand s).out = s.out := rfl
@[simp] theorem endCommand_work (s : State) : (endCommand s).work = Work.idle := rfl
@[simp] theorem endCommand_stage (s : State) : (endCommand s).stage = s.stage := rfl
@[simp] theorem endCommand_inbox (s : State) : (endCommand s).inbox = s.inbox := rfl
@[simp] theorem endCommand_reply (s : State) : (endCommand s).reply = s.reply := rfl
@[simp] theorem endCommand_draws (s : State) : (endCommand s).draws = s.draws := rfl

@[simp] theorem nextFrame_ctrl (s : State) : (nextFrame s).ctrl = s.ctrl := rfl
@[simp] theorem nextFrame_duration (s : State) : (nextFrame s).duration = s.duration := rfl
@[simp] theorem nextFrame_sampleRate (s : State) : (nextFrame s).sampleRate = s.sampleRate := rfl
@[simp] theorem nextFrame_f0l (s : State) : (nextFrame s).f0l = s.f0l := rfl
@[simp] theorem nextFrame_f1l (s : State) : (nextFrame s).f1l = s.f1l := rfl
@[simp] theorem nextFrame_f0r (s : State) : (nextFrame s).f0r = s.f0r := rfl
@[simp] theorem nextFrame_f1r (s : State) : (nextFrame s).f1r = s.f1r := rfl
@[simp] theorem nextFrame_delay (s : State) : (nextFrame s).delay = s.delay := rfl
@[simp] theorem nextFrame_volume (s : State) : (nextFrame s).volume = s.volume := rfl
@[simp] theorem nextFrame_sblen (s : State) : (nextFrame s).sblen = s.sblen := rfl
@[simp] theorem nextFrame_status (s : State) : (nextFrame s).status = s.status := rfl
@[simp] theorem nextFrame_fault (s : State) : (nextFrame s).fault = s.fault := rfl
@[simp] theorem nextFrame_dlen (s : State) : (nextFrame s).dlen = s.dlen := rfl
@[simp] theorem nextFrame_flen (s : State) : (nextFrame s).flen = s.flen := rfl
@[simp] theorem nextFrame_outlen (s : State) : (nextFrame s).outlen = s.outlen := rfl
@[simp] theorem nextFrame_sb (s : State) : (nextFrame s).sb = s.sb := rfl
@[simp] theorem nextFrame_out (s : State) : (nextFrame s).out = s.out := rfl
@[simp] theorem nextFrame_work (s : State) : (nextFrame s).work = { s.work with n := s.work.n + 1 } := rfl
@[simp] theorem nextFrame_stage (s : State) : (nextFrame s).stage = s.stage := rfl
@[simp] theorem nextFrame_inbox (s : State) : (nextFrame s).inbox = s.inbox := rfl
@[simp] theorem nextFrame_reply (s : State) : (nextFrame s).reply = s.reply := rfl
@[simp] theorem nextFrame_draws (s : State) : (nextFrame s).draws = s.draws := rfl

@[simp] theorem latchCounts_ctrl (s : State) : (latchCounts s).ctrl = s.ctrl := rfl
@[simp] theorem latchCounts_duration (s : State) : (latchCounts s).duration = s.duration := rfl
@[simp] theorem latchCounts_sampleRate (s : State) : (latchCounts s).sampleRate = s.sampleRate := rfl
@[simp] theorem latchCounts_f0l (s : State) : (latchCounts s).f0l = s.f0l := rfl
@[simp] theorem latchCounts_f1l (s : State) : (latchCounts s).f1l = s.f1l := rfl
@[simp] theorem latchCounts_f0r (s : State) : (latchCounts s).f0r = s.f0r := rfl
@[simp] theorem latchCounts_f1r (s : State) : (latchCounts s).f1r = s.f1r := rfl
@[simp] theorem latchCounts_delay (s : State) : (latchCounts s).delay = s.delay := rfl
@[simp] theorem latchCounts_volume (s : State) : (latchCounts s).volume = s.volume := rfl
@[simp] theorem latchCounts_sblen (s : State) : (latchCounts s).sblen = countWord s.work.bigN := rfl
@[simp] theorem latchCounts_status (s : State) : (latchCounts s).status = s.status := rfl
@[simp] theorem latchCounts_fault (s : State) : (latchCounts s).fault = s.fault := rfl
@[simp] theorem latchCounts_dlen (s : State) : (latchCounts s).dlen = countWord s.work.bigD := rfl
@[simp] theorem latchCounts_flen (s : State) : (latchCounts s).flen = countWord s.work.bigF := rfl
@[simp] theorem latchCounts_outlen (s : State) : (latchCounts s).outlen = s.outlen := rfl
@[simp] theorem latchCounts_sb (s : State) : (latchCounts s).sb = s.sb := rfl
@[simp] theorem latchCounts_out (s : State) : (latchCounts s).out = s.out := rfl
@[simp] theorem latchCounts_work (s : State) : (latchCounts s).work = { s.work with n := 0 } := rfl
@[simp] theorem latchCounts_stage (s : State) : (latchCounts s).stage = s.stage := rfl
@[simp] theorem latchCounts_inbox (s : State) : (latchCounts s).inbox = s.inbox := rfl
@[simp] theorem latchCounts_reply (s : State) : (latchCounts s).reply = s.reply := rfl
@[simp] theorem latchCounts_draws (s : State) : (latchCounts s).draws = s.draws := rfl

@[simp] theorem finishEnc_ctrl (b : Nat) (s : State) : (finishEnc b s).ctrl = s.ctrl := rfl
@[simp] theorem finishEnc_duration (b : Nat) (s : State) : (finishEnc b s).duration = s.duration := rfl
@[simp] theorem finishEnc_sampleRate (b : Nat) (s : State) : (finishEnc b s).sampleRate = s.sampleRate := rfl
@[simp] theorem finishEnc_f0l (b : Nat) (s : State) : (finishEnc b s).f0l = s.f0l := rfl
@[simp] theorem finishEnc_f1l (b : Nat) (s : State) : (finishEnc b s).f1l = s.f1l := rfl
@[simp] theorem finishEnc_f0r (b : Nat) (s : State) : (finishEnc b s).f0r = s.f0r := rfl
@[simp] theorem finishEnc_f1r (b : Nat) (s : State) : (finishEnc b s).f1r = s.f1r := rfl
@[simp] theorem finishEnc_delay (b : Nat) (s : State) : (finishEnc b s).delay = s.delay := rfl
@[simp] theorem finishEnc_volume (b : Nat) (s : State) : (finishEnc b s).volume = s.volume := rfl
@[simp] theorem finishEnc_sblen (b : Nat) (s : State) : (finishEnc b s).sblen = s.sblen := rfl
@[simp] theorem finishEnc_status (b : Nat) (s : State) : (finishEnc b s).status = withOutValid s.status := rfl
@[simp] theorem finishEnc_fault (b : Nat) (s : State) : (finishEnc b s).fault = s.fault := rfl
@[simp] theorem finishEnc_dlen (b : Nat) (s : State) : (finishEnc b s).dlen = s.dlen := rfl
@[simp] theorem finishEnc_flen (b : Nat) (s : State) : (finishEnc b s).flen = s.flen := rfl
@[simp] theorem finishEnc_outlen (b : Nat) (s : State) : (finishEnc b s).outlen = BitVec.ofNat 64 (s.sblen.toNat * 2 * (b / 8)) := rfl
@[simp] theorem finishEnc_sb (b : Nat) (s : State) : (finishEnc b s).sb = s.sb := rfl
@[simp] theorem finishEnc_out (b : Nat) (s : State) : (finishEnc b s).out = s.out := rfl
@[simp] theorem finishEnc_work (b : Nat) (s : State) : (finishEnc b s).work = s.work := rfl
@[simp] theorem finishEnc_stage (b : Nat) (s : State) : (finishEnc b s).stage = s.stage := rfl
@[simp] theorem finishEnc_inbox (b : Nat) (s : State) : (finishEnc b s).inbox = s.inbox := rfl
@[simp] theorem finishEnc_reply (b : Nat) (s : State) : (finishEnc b s).reply = s.reply := rfl
@[simp] theorem finishEnc_draws (b : Nat) (s : State) : (finishEnc b s).draws = s.draws := rfl

@[simp] theorem frameStore_ctrl (p : Params) (s : State) : (frameStore p s).ctrl = s.ctrl := rfl
@[simp] theorem frameStore_duration (p : Params) (s : State) : (frameStore p s).duration = s.duration := rfl
@[simp] theorem frameStore_sampleRate (p : Params) (s : State) : (frameStore p s).sampleRate = s.sampleRate := rfl
@[simp] theorem frameStore_f0l (p : Params) (s : State) : (frameStore p s).f0l = s.f0l := rfl
@[simp] theorem frameStore_f1l (p : Params) (s : State) : (frameStore p s).f1l = s.f1l := rfl
@[simp] theorem frameStore_f0r (p : Params) (s : State) : (frameStore p s).f0r = s.f0r := rfl
@[simp] theorem frameStore_f1r (p : Params) (s : State) : (frameStore p s).f1r = s.f1r := rfl
@[simp] theorem frameStore_delay (p : Params) (s : State) : (frameStore p s).delay = s.delay := rfl
@[simp] theorem frameStore_volume (p : Params) (s : State) : (frameStore p s).volume = s.volume := rfl
@[simp] theorem frameStore_sblen (p : Params) (s : State) : (frameStore p s).sblen = s.sblen := rfl
@[simp] theorem frameStore_status (p : Params) (s : State) : (frameStore p s).status = s.status := rfl
@[simp] theorem frameStore_fault (p : Params) (s : State) : (frameStore p s).fault = s.fault := rfl
@[simp] theorem frameStore_dlen (p : Params) (s : State) : (frameStore p s).dlen = s.dlen := rfl
@[simp] theorem frameStore_flen (p : Params) (s : State) : (frameStore p s).flen = s.flen := rfl
@[simp] theorem frameStore_outlen (p : Params) (s : State) : (frameStore p s).outlen = s.outlen := rfl
@[simp] theorem frameStore_sb (p : Params) (s : State) : (frameStore p s).sb = Memory.write (Memory.write s.sb (cellAddress s.work.n .left) (storedPattern p s.draws s.work.vL))
      (cellAddress s.work.n .right) (storedPattern p (s.draws + 1) s.work.vR) := rfl
@[simp] theorem frameStore_out (p : Params) (s : State) : (frameStore p s).out = s.out := rfl
@[simp] theorem frameStore_work (p : Params) (s : State) : (frameStore p s).work = s.work := rfl
@[simp] theorem frameStore_stage (p : Params) (s : State) : (frameStore p s).stage = s.stage := rfl
@[simp] theorem frameStore_inbox (p : Params) (s : State) : (frameStore p s).inbox = s.inbox := rfl
@[simp] theorem frameStore_reply (p : Params) (s : State) : (frameStore p s).reply = s.reply := rfl
@[simp] theorem frameStore_draws (p : Params) (s : State) : (frameStore p s).draws = s.draws + 2 := rfl

@[simp] theorem raiseFault_ctrl (e : Bool) (c : Cause) (sub : BitVec 8) (ch : Channel) (i : BitVec 32) (s : State) : (raiseFault e c sub ch i s).ctrl = s.ctrl := by cases e <;> rfl
@[simp] theorem raiseFault_duration (e : Bool) (c : Cause) (sub : BitVec 8) (ch : Channel) (i : BitVec 32) (s : State) : (raiseFault e c sub ch i s).duration = s.duration := by cases e <;> rfl
@[simp] theorem raiseFault_sampleRate (e : Bool) (c : Cause) (sub : BitVec 8) (ch : Channel) (i : BitVec 32) (s : State) : (raiseFault e c sub ch i s).sampleRate = s.sampleRate := by cases e <;> rfl
@[simp] theorem raiseFault_f0l (e : Bool) (c : Cause) (sub : BitVec 8) (ch : Channel) (i : BitVec 32) (s : State) : (raiseFault e c sub ch i s).f0l = s.f0l := by cases e <;> rfl
@[simp] theorem raiseFault_f1l (e : Bool) (c : Cause) (sub : BitVec 8) (ch : Channel) (i : BitVec 32) (s : State) : (raiseFault e c sub ch i s).f1l = s.f1l := by cases e <;> rfl
@[simp] theorem raiseFault_f0r (e : Bool) (c : Cause) (sub : BitVec 8) (ch : Channel) (i : BitVec 32) (s : State) : (raiseFault e c sub ch i s).f0r = s.f0r := by cases e <;> rfl
@[simp] theorem raiseFault_f1r (e : Bool) (c : Cause) (sub : BitVec 8) (ch : Channel) (i : BitVec 32) (s : State) : (raiseFault e c sub ch i s).f1r = s.f1r := by cases e <;> rfl
@[simp] theorem raiseFault_delay (e : Bool) (c : Cause) (sub : BitVec 8) (ch : Channel) (i : BitVec 32) (s : State) : (raiseFault e c sub ch i s).delay = s.delay := by cases e <;> rfl
@[simp] theorem raiseFault_volume (e : Bool) (c : Cause) (sub : BitVec 8) (ch : Channel) (i : BitVec 32) (s : State) : (raiseFault e c sub ch i s).volume = s.volume := by cases e <;> rfl
@[simp] theorem raiseFault_sblen (e : Bool) (c : Cause) (sub : BitVec 8) (ch : Channel) (i : BitVec 32) (s : State) : (raiseFault e c sub ch i s).sblen = s.sblen := by cases e <;> rfl
@[simp] theorem raiseFault_status (e : Bool) (c : Cause) (sub : BitVec 8) (ch : Channel) (i : BitVec 32) (s : State) : (raiseFault e c sub ch i s).status = if e then withoutOutValid (withFaulted s.status) else withFaulted s.status := by cases e <;> rfl
@[simp] theorem raiseFault_fault (e : Bool) (c : Cause) (sub : BitVec 8) (ch : Channel) (i : BitVec 32) (s : State) : (raiseFault e c sub ch i s).fault = faultWord c sub ch i := by cases e <;> rfl
@[simp] theorem raiseFault_dlen (e : Bool) (c : Cause) (sub : BitVec 8) (ch : Channel) (i : BitVec 32) (s : State) : (raiseFault e c sub ch i s).dlen = s.dlen := by cases e <;> rfl
@[simp] theorem raiseFault_flen (e : Bool) (c : Cause) (sub : BitVec 8) (ch : Channel) (i : BitVec 32) (s : State) : (raiseFault e c sub ch i s).flen = s.flen := by cases e <;> rfl
@[simp] theorem raiseFault_outlen (e : Bool) (c : Cause) (sub : BitVec 8) (ch : Channel) (i : BitVec 32) (s : State) : (raiseFault e c sub ch i s).outlen = if e then 0 else s.outlen := by cases e <;> rfl
@[simp] theorem raiseFault_sb (e : Bool) (c : Cause) (sub : BitVec 8) (ch : Channel) (i : BitVec 32) (s : State) : (raiseFault e c sub ch i s).sb = s.sb := by cases e <;> rfl
@[simp] theorem raiseFault_out (e : Bool) (c : Cause) (sub : BitVec 8) (ch : Channel) (i : BitVec 32) (s : State) : (raiseFault e c sub ch i s).out = if e then [] else s.out := by cases e <;> rfl
@[simp] theorem raiseFault_work (e : Bool) (c : Cause) (sub : BitVec 8) (ch : Channel) (i : BitVec 32) (s : State) : (raiseFault e c sub ch i s).work = s.work := by cases e <;> rfl
@[simp] theorem raiseFault_stage (e : Bool) (c : Cause) (sub : BitVec 8) (ch : Channel) (i : BitVec 32) (s : State) : (raiseFault e c sub ch i s).stage = s.stage := by cases e <;> rfl
@[simp] theorem raiseFault_inbox (e : Bool) (c : Cause) (sub : BitVec 8) (ch : Channel) (i : BitVec 32) (s : State) : (raiseFault e c sub ch i s).inbox = s.inbox := by cases e <;> rfl
@[simp] theorem raiseFault_reply (e : Bool) (c : Cause) (sub : BitVec 8) (ch : Channel) (i : BitVec 32) (s : State) : (raiseFault e c sub ch i s).reply = s.reply := by cases e <;> rfl
@[simp] theorem raiseFault_draws (e : Bool) (c : Cause) (sub : BitVec 8) (ch : Channel) (i : BitVec 32) (s : State) : (raiseFault e c sub ch i s).draws = s.draws := by cases e <;> rfl

/-- `deriveN` sets temporaries only. -/
theorem deriveN_only_work (p : Params) (s : State) : deriveN p s = { s with work := (deriveN p s).work } := rfl
/-- `deriveDt` sets temporaries only. -/
theorem deriveDt_only_work (p : Params) (s : State) : deriveDt p s = { s with work := (deriveDt p s).work } := rfl
/-- `deriveD` sets temporaries only. -/
theorem deriveD_only_work (p : Params) (s : State) : deriveD p s = { s with work := (deriveD p s).work } := rfl
/-- `deriveF` sets temporaries only. -/
theorem deriveF_only_work (p : Params) (s : State) : deriveF p s = { s with work := (deriveF p s).work } := rfl
/-- `deriveKlin` sets temporaries only. -/
theorem deriveKlin_only_work (s : State) : deriveKlin s = { s with work := (deriveKlin s).work } := rfl
/-- `deriveKlog` sets temporaries only. -/
theorem deriveKlog_only_work (p : Params) (s : State) : deriveKlog p s = { s with work := (deriveKlog p s).work } := rfl
/-- `timeOp` sets temporaries only. -/
theorem timeOp_only_work (s : State) : timeOp s = { s with work := (timeOp s).work } := rfl
/-- `tshift` sets temporaries only. -/
theorem tshift_only_work (s : State) : tshift s = { s with work := (tshift s).work } := rfl
/-- `phaseLin` sets temporaries only. -/
theorem phaseLin_only_work (p : Params) (ch : Channel) (s : State) : phaseLin p ch s = { s with work := (phaseLin p ch s).work } := rfl
/-- `phaseLog` sets temporaries only. -/
theorem phaseLog_only_work (p : Params) (ch : Channel) (s : State) : phaseLog p ch s = { s with work := (phaseLog p ch s).work } := rfl
/-- `mute` sets temporaries only. -/
theorem mute_only_work (s : State) : mute s = { s with work := (mute s).work } := rfl
/-- `fade` sets temporaries only. -/
theorem fade_only_work (s : State) : fade s = { s with work := (fade s).work } := rfl
/-- `fadeApply` sets temporaries only. -/
theorem fadeApply_only_work (ch : Channel) (s : State) : fadeApply ch s = { s with work := (fadeApply ch s).work } := rfl
/-- `vol` sets temporaries only. -/
theorem vol_only_work (ch : Channel) (s : State) : vol ch s = { s with work := (vol ch s).work } := rfl
/-- `clip` sets temporaries only. -/
theorem clip_only_work (s : State) : clip s = { s with work := (clip s).work } := rfl
/-- `f32` sets temporaries and takes a draw. -/
theorem f32_work_and_draw (p : Params) (s : State) : f32 p s = { s with work := (f32 p s).work, draws := s.draws + 1 } := rfl
/-- `pack16` sets temporaries only. -/
theorem pack16_only_work (s : State) : pack16 s = { s with work := (pack16 s).work } := rfl
/-- `pack24` sets temporaries only. -/
theorem pack24_only_work (s : State) : pack24 s = { s with work := (pack24 s).work } := rfl
/-- `pack32` sets temporaries only. -/
theorem pack32_only_work (s : State) : pack32 s = { s with work := (pack32 s).work } := rfl

/-- The sweep rate is a temporary. -/
theorem deriveRate_only_work (p : Params) (s : State) : deriveRate p s = { s with work := (deriveRate p s).work } := by
  rw [deriveRate]; split <;> rfl

/-- The sine value is a temporary. -/
theorem phaseOp_only_work (p : Params) (ch : Channel) (s : State) :
    phaseOp p ch s = { s with work := (phaseOp p ch s).work } := by
  rw [phaseOp]; split <;> rfl

end Sys2Proof.Machine
end

