-- ==== Sys2Proof/Laws/Ops.lean ====
section
/-! SUPPORT. Once for each shared operation, everything it can do. -/

namespace Sys2Proof.Machine

/-- `SB_DEPTH` is at least 1 and fits 32 bits (00_scope.md R5). -/
theorem sbDepth_bounds (p : Params) : 1 ≤ sbDepth p ∧ sbDepth p < 2 ^ 32 := by
  simp only [sbDepth]
  omega

@[simp] theorem bind_go (s : State) (k : State → Flow) : (Flow.go s).bind k = k s := rfl
@[simp] theorem bind_raised (s : State) (k : State → Flow) : (Flow.raised s).bind k = .raised s := rfl
@[simp] theorem state_go (s : State) : (Flow.go s).state = s := rfl
@[simp] theorem state_raised (s : State) : (Flow.raised s).state = s := rfl

/-- If a sequence goes on, both parts did. -/
theorem bind_eq_go {f : Flow} {k : State → Flow} {t : State} (h : f.bind k = .go t) : ∃ s, f = .go s ∧ k s = .go t := by
  cases f with
  | go s => exact ⟨s, rfl, h⟩
  | raised s => simp at h

/-- If a sequence raised a fault, one of the parts did. -/
theorem bind_eq_raised {f : Flow} {k : State → Flow} {t : State} (h : f.bind k = .raised t) :
    f = .raised t ∨ ∃ s, f = .go s ∧ k s = .raised t := by
  cases f with
  | go s => exact .inr ⟨s, rfl, h⟩
  | raised s => exact .inl (by simpa using h)

/-- `VALIDATE` goes on and changes nothing, or raises what the first failing clause names. -/
theorem validate_cases (p : Params) (s : State) :
    (failedClause p s = none ∧ validate p s = .go s) ∨
    (∃ cause sub, failedClause p s = some (cause, sub) ∧ validate p s = .raised (raiseFault false cause sub .left 0 s)) := by
  rw [validate]
  rcases h : failedClause p s with _ | ⟨cause, sub⟩
  · exact .inl ⟨rfl, rfl⟩
  · exact .inr ⟨cause, sub, rfl, rfl⟩

/-- The quantizer raises QuantizeNaN for a NaN and nothing else; otherwise it sets `c` and `q`. -/
theorem quantize_cases (p : Params) (mode : RoundMode) (scale : F64) (s : State) :
    (isNaN s.work.x = true ∧
      quantize p mode scale s = .raised (raiseFault true .quantizeNaN 0 s.work.ch (BitVec.ofNat 32 s.work.n) s)) ∨
    (isNaN s.work.x = false ∧
      quantize p mode scale s = .go { s with work :=
        { s.work with c := clipValue s.work.x, q := quantizeValue p mode scale (clipValue s.work.x) } }) := by
  rw [quantize]
  cases h : isNaN s.work.x
  · exact .inr ⟨rfl, by simp [clip]⟩
  · exact .inl ⟨rfl, by simp⟩

/-- The encoder of one sample raises QuantizeNaN for a NaN at an integer depth; otherwise it sets temporaries, the bytes among them. -/
theorem encodeOp_cases (p : Params) {b : Nat} (hb : legalDepth b = true) (s : State) :
    (isNaN s.work.x = true ∧ b ≠ 32 ∧
      encodeOp p b s = .raised (raiseFault true .quantizeNaN 0 s.work.ch (BitVec.ofNat 32 s.work.n) s)) ∨
    ((b = 32 ∨ isNaN s.work.x = false) ∧ ∃ (w : Work) (k : Nat), w.n = s.work.n ∧
      w.bytes = sampleBytes p (nan32 p s.draws) b s.work.x ∧ encodeOp p b s = .go { s with work := w, draws := k }) := by
  have hb' : b = 16 ∨ b = 24 ∨ b = 32 := by simpa [legalDepth, or_assoc] using hb
  rcases hb' with rfl | rfl | rfl
  · rcases quantize_cases p .tiesToEven scale16 s with ⟨hn, h⟩ | ⟨hn, h⟩
    · exact .inl ⟨hn, by omega, by simp [encodeOp, q16, h]⟩
    · exact .inr ⟨.inr hn, (pack16 { s with work := { s.work with c := clipValue s.work.x, q := _ } }).work, s.draws, rfl, rfl,
        by simp only [encodeOp, q16, h, if_true, bind_go]; rfl⟩
  · rcases quantize_cases p Config.q24Round scale24 s with ⟨hn, h⟩ | ⟨hn, h⟩
    · exact .inl ⟨hn, by omega, by simp [encodeOp, q24, h]⟩
    · exact .inr ⟨.inr hn, (pack24 { s with work := { s.work with c := clipValue s.work.x, q := _ } }).work, s.draws, rfl, rfl,
        by simp only [encodeOp, q24, h, if_true, bind_go]; rfl⟩
  · exact .inr ⟨.inl rfl, (pack32 (f32 p s)).work, s.draws + 1, rfl, rfl, rfl⟩

/-- One sample of `ENC`: a missing cell and a NaN raise, everything else appends the sample's bytes and leaves the frame counter. -/
theorem encSample_cases (p : Params) {b : Nat} (hb : legalDepth b = true) (ch : Channel) (s : State) :
    (encodable s b s.work.n ch = false ∧ ∃ w : Work,
      encSample p b ch s = .raised { s with
        work := w, fault := cellFault s s.work.n ch, out := [], outlen := 0
        status := withoutOutValid (withFaulted s.status) }) ∨
    (encodable s b s.work.n ch = true ∧ ∃ v, readCell s s.work.n ch = some v ∧ ∃ (w : Work) (k : Nat), w.n = s.work.n ∧
      encSample p b ch s =
        .go { s with work := w, draws := k, out := s.out ++ sampleBytes p (nan32 p s.draws) b (asF64 v) }) := by
  rcases h : readCell s s.work.n ch with _ | v
  · refine .inl ⟨by simp [encodable, h], { s.work with ch := ch }, ?_⟩
    have h' : readCell { s with work := { s.work with ch := ch } } s.work.n ch = none := h
    simp only [encSample, h', cellFault, h, raiseFault, emptyOut, if_true]
  · have h' : readCell { s with work := { s.work with ch := ch } } s.work.n ch = some v := h
    rcases encodeOp_cases p hb { s with work := { s.work with ch := ch, x := asF64 v } } with
      ⟨hn, hb32, he⟩ | ⟨hn, w, k, hw, hbytes, he⟩
    · refine .inl ⟨by simp at hn; simp [encodable, h, hn, hb32], { s.work with ch := ch, x := asF64 v }, ?_⟩
      simp only [encSample, h', cellFault, h, he, raiseFault, emptyOut, if_true, bind_raised]
    · refine .inr ⟨?_, v, rfl, w, k, hw, ?_⟩
      · simp at hn; simp [encodable, h]; exact hn
      · simp only [encSample, h', he, bind_go, framepack, appendOut, hbytes]

/-- One frame of `GEN` changes temporaries, the frame's two cells and the count of draws, and leaves the frame counter and the counts. -/
theorem genFrame_spec (p : Params) (s : State) : ∃ w : Work,
    w.n = s.work.n ∧ w.bigN = s.work.bigN ∧ w.bigD = s.work.bigD ∧ w.bigF = s.work.bigF ∧ w.dt = s.work.dt ∧
    w.kl = s.work.kl ∧ w.kr = s.work.kr ∧
    genFrame p s = { s with
      work := w, draws := s.draws + 2
      sb := Memory.write (Memory.write s.sb (cellAddress s.work.n .left) (storedPattern p s.draws w.vL))
        (cellAddress s.work.n .right) (storedPattern p (s.draws + 1) w.vR) } := by
  cases h : sweepLog s
  · refine ⟨(genFrame p s).work, ?_⟩
    have h1 : ∀ w : Work, sweepLog { s with work := w } = false := fun _ => h
    simp [genFrame, phaseOp, timeOp, tshift, phaseLin, setSine, mute, fade, fadeApply, setFaded, vol, setFinal, frameStore,
      writeCell, h1]
  · refine ⟨(genFrame p s).work, ?_⟩
    have h1 : ∀ w : Work, sweepLog { s with work := w } = true := fun _ => h
    simp [genFrame, phaseOp, timeOp, tshift, phaseLog, setSine, mute, fade, fadeApply, setFaded, vol, setFinal, frameStore,
      writeCell, h1]

/-- The fields of a pattern, as numbers (00_scope.md R7). -/
theorem asF64_eq (u : Word) :
    asF64 u =
      (if u.toNat / 2 ^ 52 % 2048 = 2047 then
        (if u.toNat % 2 ^ 52 = 0 then .inf (decide (2 ^ 63 ≤ u.toNat)) else .nan)
      else if u.toNat / 2 ^ 52 % 2048 = 0 then .fin (decide (2 ^ 63 ≤ u.toNat)) (u.toNat % 2 ^ 52) (-1074)
      else .fin (decide (2 ^ 63 ≤ u.toNat)) (u.toNat % 2 ^ 52 + 2 ^ 52) ((u.toNat / 2 ^ 52 % 2048 : Nat) - 1075)) := by
  have hlt := u.isLt
  have hs : u.getLsbD 63 = decide (2 ^ 63 ≤ u.toNat) := by
    rw [BitVec.getLsbD, Nat.testBit_eq_decide_div_mod_eq]
    exact decide_eq_decide.2 (by omega)
  simp only [asF64, hs, BitVec.extractLsb'_toNat, Nat.shiftRight_eq_div_pow, pow_zero, Nat.div_one]

/-- The number of a packed pattern. -/
theorem packF64_toNat (neg : Bool) {be frac : Nat} (hb : be < 2048) (hf : frac < 2 ^ 52) :
    (packF64 neg be frac).toNat = (if neg then 2 ^ 63 else 0) + be * 2 ^ 52 + frac := by
  rw [packF64, BitVec.toNat_ofNat, Nat.mod_eq_of_lt]
  split <;> omega

/-- A datum that is not a NaN is the value of its pattern (00_scope.md R7). -/
theorem asF64_bitsF64 {x : F64} (u : Word) (h : canonical x) (hx : isNaN x = false) : asF64 (bitsF64 u x) = x := by
  cases x with
  | nan => simp [isNaN] at hx
  | inf neg =>
    simp only [bitsF64, asF64_eq, packF64_toNat neg (by norm_num : 2047 < 2048) (by norm_num : 0 < 2 ^ 52)]
    cases neg <;> simp
  | fin neg m e =>
    obtain ⟨hm, he1, he2, hn⟩ := h
    simp only [bitsF64]
    split
    · rename_i hsub
      obtain rfl : e = -1074 := by omega
      rw [asF64_eq, packF64_toNat neg (by norm_num) hsub]
      cases neg <;> simp only [Bool.false_eq_true, if_true, if_false]
      · rw [if_neg (by omega), if_pos (by omega), decide_eq_false (by omega)]
        congr 1; omega
      · rw [if_neg (by omega), if_pos (by omega), decide_eq_true (by omega)]
        congr 1; omega
    · obtain ⟨b, hb⟩ : ∃ b : Nat, (e + 1075).toNat = b := ⟨_, rfl⟩
      rw [asF64_eq, hb, packF64_toNat neg (by omega) (by omega)]
      cases neg <;> simp only [Bool.false_eq_true, if_true, if_false]
      · rw [if_neg (by omega), if_neg (by omega), decide_eq_false (by omega)]
        congr 1 <;> omega
      · rw [if_neg (by omega), if_neg (by omega), decide_eq_true (by omega)]
        congr 1 <;> omega

/-- A drawn pattern is one of a NaN (00_scope.md R9). -/
theorem asF64_nanDraw (p : Params) (k : Nat) : asF64 (nanDraw p k) = .nan := by
  rw [nanDraw]
  generalize p.nanBits k = b
  have h1 : (nanPattern b).extractLsb' 52 11 = 0x7FF := by
    simp only [nanPattern]
    ext i hi
    simp only [BitVec.getElem_extractLsb', BitVec.getLsbD_append]
    have : ¬ 52 + i < 52 := by omega
    have h3 : 52 + i - 52 = i := by omega
    simp [this, hi, BitVec.getLsbD_eq_getElem]
  have h2 : (nanPattern b).extractLsb' 0 52 ≠ 0 := by
    have : (nanPattern b).extractLsb' 0 52
        = if b.extractLsb' 0 52 = 0 then (1 : BitVec 52) <<< 51 else b.extractLsb' 0 52 := by
      simp only [nanPattern]
      ext i hi
      simp only [BitVec.getElem_extractLsb', BitVec.getLsbD_append]
      simp [hi, BitVec.getLsbD_eq_getElem]
    rw [this]
    split
    · decide
    · assumption
  have h3 : ((nanPattern b).extractLsb' 0 52).toNat ≠ 0 := fun h => h2 (BitVec.eq_of_toNat_eq (by simpa using h))
  simp only [asF64, h1]
  rw [if_pos (by decide), if_neg h3]

/-- What `GEN` stores reads back as the value, whatever the draw; the pattern of a value that is not a NaN is fixed. -/
theorem asF64_storedPattern (p : Params) (k : Nat) {v : F64} (h : canonical v) : asF64 (storedPattern p k v) = v := by
  rw [storedPattern]
  cases hx : isNaN v
  · exact asF64_bitsF64 _ h hx
  · cases v <;> simp [isNaN] at hx
    exact asF64_nanDraw p k

/-- One step, case by case. -/
theorem step_cases (s : State) :
    (∃ st, s.stage = some st ∧ step s = execCode (.place st s.ctrl) { s with stage := none }) ∨
    (s.stage = none ∧ s.inbox = [] ∧ step s = .next s) ∨
    (∃ rest, s.stage = none ∧ s.inbox = .reset :: rest ∧ step s = .next (resetBlock s rest)) ∨
    (∃ h a v rest, s.stage = none ∧ s.inbox = .transaction h a v :: rest ∧
      step s = execCode (.transaction h a v) { s with inbox := rest, reply := .none }) := by
  rcases hs : s.stage with _ | st
  · rcases hi : s.inbox with _ | ⟨_ | ⟨h, a, v⟩, rest⟩
    · exact .inr (.inl ⟨rfl, rfl, by simp only [step, hs, hi]⟩)
    · exact .inr (.inr (.inl ⟨rest, rfl, rfl, by simp only [step, hs, hi]⟩))
    · exact .inr (.inr (.inr ⟨h, a, v, rest, rfl, rfl, by simp only [step, hs, hi]⟩))
  · exact .inl ⟨st, rfl, by simp only [step, hs]⟩

end Sys2Proof.Machine
end

