-- ==== Sys2Proof/Laws/PerInstr.lean ====
section
/-! SUPPORT. Statements about every instruction, proved constructor by constructor. -/

namespace Sys2Proof.Laws.HeaderLegal

/-- The encoding of an instruction breaks no must-be-zero rule of format T (30_encoding.md R71): the header's zero bits are zero, its kind is
no reserved one, and its channel bit is set for `WSB` and `RSB` only. -/
def Statement (i : Instr) : Prop :=
  match encode i with
  | .transaction h _ _ =>
    h &&& headerZeroMask = 0 ∧ headerKind h < 5 ∧ (headerChannel h = .right → headerKind h = 2 ∨ headerKind h = 3)
  | .place _ _ => True

theorem wcr (r : Reg) (v : Word) : Statement (.wcr r v) := by simp only [Statement, encode]; decide
theorem rcr (r : Reg) : Statement (.rcr r) := by simp only [Statement, encode]; decide
theorem wsb (n : Word) (ch : Channel) (v : Word) : Statement (.wsb n ch v) := by cases ch <;> (simp only [Statement, encode]; decide)
theorem rsb (n : Word) (ch : Channel) : Statement (.rsb n ch) := by cases ch <;> (simp only [Statement, encode]; decide)
theorem rout (j : Word) : Statement (.rout j) := by simp only [Statement, encode]; decide
theorem nop : Statement .nop := by simp only [Statement, encode, commandCode]; decide
theorem gen : Statement .gen := by simp only [Statement, encode, commandCode]; decide
theorem enc : Statement .enc := by simp only [Statement, encode, commandCode]; decide
theorem run : Statement .run := by simp only [Statement, encode, commandCode]; decide
theorem clr : Statement .clr := by simp only [Statement, encode, commandCode]; decide
theorem deriveKlin : Statement .deriveKlin := trivial
theorem phaseLin (ch : Channel) : Statement (.phaseLin ch) := trivial
theorem deriveKlog : Statement .deriveKlog := trivial
theorem phaseLog (ch : Channel) : Statement (.phaseLog ch) := trivial
theorem q16 : Statement .q16 := trivial
theorem pack16 : Statement .pack16 := trivial
theorem q24 : Statement .q24 := trivial
theorem pack24 : Statement .pack24 := trivial
theorem f32 : Statement .f32 := trivial
theorem pack32 : Statement .pack32 := trivial
theorem validate : Statement .validate := trivial
theorem deriveN : Statement .deriveN := trivial
theorem deriveDt : Statement .deriveDt := trivial
theorem deriveD : Statement .deriveD := trivial
theorem deriveF : Statement .deriveF := trivial
theorem time : Statement .time := trivial
theorem tshift : Statement .tshift := trivial
theorem mute : Statement .mute := trivial
theorem fade : Statement .fade := trivial
theorem fadeApply (ch : Channel) : Statement (.fadeApply ch) := trivial
theorem vol (ch : Channel) : Statement (.vol ch) := trivial
theorem frame : Statement .frame := trivial
theorem clip : Statement .clip := trivial
theorem framepack : Statement .framepack := trivial

end Sys2Proof.Laws.HeaderLegal
end

