-- ==== Sys2Proof/Machine/Script.lean ====
section
/-! DEFINITION. The lines of a host script, their text, and the transactions they expand to (30_encoding.md R82). -/

namespace Sys2Proof.Machine

/-- A `value` of a line: a pattern, an unsigned number, or `f:` and a decimal number `(-1)^neg * digits / 10^places`. -/
inductive ScriptValue where
  | pattern (w : Word)
  | unsigned (n : Nat)
  | decimal (neg : Bool) (digits places : Nat)
  deriving DecidableEq, Repr

/-- The word a value stands for; for a decimal, the pattern of the nearest `F64`, ties to even. A zero has the sign that is written,
so `f:-0` is `-0.0`, and a decimal beyond the largest `F64` rounds to an infinity: R82 does not settle either (log entry 22). -/
def scriptWord : ScriptValue → Word
  | .pattern w => w
  | .unsigned n => BitVec.ofNat 64 n
  | .decimal neg digits places => bitsF64 0 (round64 neg digits (10 ^ places) 0)

/-- The commands by name. -/
inductive CommandName where
  | nop | gen | enc | run | clr
  deriving DecidableEq, Repr

/-- The command words (R74). -/
def commandWord : CommandName → Word
  | .nop => 0
  | .gen => 1
  | .enc => 2
  | .run => 3
  | .clr => 15

/-- A line. -/
inductive ScriptLine where
  | wcr (r : Reg) (v : ScriptValue)
  | rcr (r : Reg)
  | wsb (n : Nat) (ch : Channel) (v : ScriptValue)
  | rsb (n : Nat) (ch : Channel)
  | rout (j : Nat)
  | cmd (c : CommandName)
  | ctrlLin (d : Nat)
  | ctrlLog (d : Nat)
  | left (a b : ScriptValue)
  | right (a b : ScriptValue)
  deriving DecidableEq, Repr

/-- The transaction `wcr REG, value`. -/
def writeInput (r : Reg) (v : Word) : Input := .transaction 0 (regWord r) v

/-- The transactions of a line, in order. -/
def expandLine : ScriptLine → List Input
  | .wcr r v => [writeInput r (scriptWord v)]
  | .rcr r => [.transaction 1 (regWord r) 0]
  | .wsb n ch v => [.transaction (bufferHeader 2 ch) (BitVec.ofNat 64 n) (scriptWord v)]
  | .rsb n ch => [.transaction (bufferHeader 3 ch) (BitVec.ofNat 64 n) 0]
  | .rout j => [.transaction 4 (BitVec.ofNat 64 j) 0]
  | .cmd c => [writeInput .cmd (commandWord c)]
  | .ctrlLin d => [writeInput .ctrl (BitVec.ofNat 64 (d * 256))]
  | .ctrlLog d => [writeInput .ctrl (BitVec.ofNat 64 (d * 256 + 1))]
  | .left a b => [writeInput .f0l (scriptWord a), writeInput .f1l (scriptWord b)]
  | .right a b => [writeInput .f0r (scriptWord a), writeInput .f1r (scriptWord b)]

/-- The transactions of a host program, for `State.inbox` (70_reset_and_hazards.md R200). -/
def expandScript (lines : List ScriptLine) : List Input := lines.flatMap expandLine

/-! ## The text of a line (R82). What the rule does not say of spacing and numbers is log entry 22. -/

/-- The words of a line, blanks and commas between them; what follows a `;` is a comment. -/
def lineWords (cs : List Char) : List (List Char) :=
  ((cs.takeWhile (· != ';')).splitOnP fun c => c == ' ' || c == ',' || c == '\t' || c == '\r').filter (· != [])

/-- The value of a digit in bases up to 16. -/
def digitValue (c : Char) : Option Nat :=
  if '0' ≤ c ∧ c ≤ '9' then some (c.toNat - 48)
  else if 'a' ≤ c ∧ c ≤ 'f' then some (c.toNat - 87)
  else if 'A' ≤ c ∧ c ≤ 'F' then some (c.toNat - 55)
  else none

/-- The number that digits of a base write after `acc`. -/
def digitsFrom (base : Nat) : Nat → List Char → Option Nat
  | acc, [] => some acc
  | acc, c :: cs =>
    match digitValue c with
    | some d => if d < base then digitsFrom base (acc * base + d) cs else none
    | none => none

/-- A number of at least one digit. -/
def parseDigits (base : Nat) : List Char → Option Nat
  | [] => none
  | cs => digitsFrom base 0 cs

/-- A number of at least one digit that fits 64 bits. -/
def parseWord (base : Nat) (cs : List Char) : Option Nat := (parseDigits base cs).filter (· < 2 ^ 64)

/-- A decimal number with an optional fraction, its sign given. -/
def parseDecimal (neg : Bool) (cs : List Char) : Option ScriptValue :=
  match cs.span (· != '.') with
  | (whole, []) => (parseDigits 10 whole).map fun n => .decimal neg n 0
  | (whole, _ :: fraction) =>
    match parseDigits 10 whole, parseDigits 10 fraction with
    | some _, some _ => (parseDigits 10 (whole ++ fraction)).map fun n => .decimal neg n fraction.length
    | _, _ => none

/-- A `value`. After `f:` a minus sign may stand, and no plus sign, which R82 does not settle (log entry 22). -/
def parseValue : List Char → Option ScriptValue
  | '0' :: 'x' :: cs => (parseWord 16 cs).map fun n => .pattern (BitVec.ofNat 64 n)
  | 'f' :: ':' :: '-' :: cs => parseDecimal true cs
  | 'f' :: ':' :: cs => parseDecimal false cs
  | cs => (parseWord 10 cs).map .unsigned

/-- The register names (10_state.md R20). -/
def regNames : List (List Char × Reg) :=
  [(['C', 'T', 'R', 'L'], .ctrl), (['D', 'U', 'R', 'A', 'T', 'I', 'O', 'N'], .duration),
    (['S', 'A', 'M', 'P', 'L', 'E', 'R', 'A', 'T', 'E'], .sampleRate), (['F', '0', 'L'], .f0l), (['F', '1', 'L'], .f1l),
    (['F', '0', 'R'], .f0r), (['F', '1', 'R'], .f1r), (['D', 'E', 'L', 'A', 'Y'], .delay),
    (['V', 'O', 'L', 'U', 'M', 'E'], .volume), (['S', 'B', 'L', 'E', 'N'], .sblen), (['S', 'T', 'A', 'T', 'U', 'S'], .status),
    (['F', 'A', 'U', 'L', 'T'], .fault), (['D', 'L', 'E', 'N'], .dlen), (['F', 'L', 'E', 'N'], .flen),
    (['O', 'U', 'T', 'L', 'E', 'N'], .outlen), (['C', 'M', 'D'], .cmd)]

/-- A register by name. -/
def parseReg (cs : List Char) : Option Reg := (regNames.find? fun e => e.1 == cs).map Prod.snd

/-- A channel by letter. -/
def parseChannel : List Char → Option Channel
  | ['L'] => some .left
  | ['R'] => some .right
  | _ => none

/-- A command by name. -/
def parseCommand : List Char → Option CommandName
  | ['N', 'O', 'P'] => some .nop
  | ['G', 'E', 'N'] => some .gen
  | ['E', 'N', 'C'] => some .enc
  | ['R', 'U', 'N'] => some .run
  | ['C', 'L', 'R'] => some .clr
  | _ => none

/-- A line from its words; none for words that write no line. The frame `n`, the offset `j` and the depth `d` are unsigned decimals, and no
hexadecimal numbers: R82 gives number forms for a `value` only (log entry 22). -/
def parseWords : List (List Char) → Option ScriptLine
  | [['w', 'c', 'r'], r, v] => do return .wcr (← parseReg r) (← parseValue v)
  | [['r', 'c', 'r'], r] => do return .rcr (← parseReg r)
  | [['w', 's', 'b'], n, ch, v] => do return .wsb (← parseWord 10 n) (← parseChannel ch) (← parseValue v)
  | [['r', 's', 'b'], n, ch] => do return .rsb (← parseWord 10 n) (← parseChannel ch)
  | [['r', 'o', 'u', 't'], j] => do return .rout (← parseWord 10 j)
  | [['c', 'm', 'd'], c] => do return .cmd (← parseCommand c)
  | [['c', 't', 'r', 'l'], ['l', 'i', 'n'], d] => do return .ctrlLin (← parseWord 10 d)
  | [['c', 't', 'r', 'l'], ['l', 'o', 'g'], d] => do return .ctrlLog (← parseWord 10 d)
  | [['l', 'e', 'f', 't'], a, b] => do return .left (← parseValue a) (← parseValue b)
  | [['r', 'i', 'g', 'h', 't'], a, b] => do return .right (← parseValue a) (← parseValue b)
  | _ => none

/-- The lines of a text, empty and comment lines left out; none if a line is not of the syntax. -/
def parseScript (text : List Char) : Option (List ScriptLine) :=
  (((text.splitOnP (· == '\n')).map lineWords).filter (· != [])).mapM parseWords

end Sys2Proof.Machine
end

