-- ==== Sys2Proof/Tests/Slice0.lean ====
section
/-! SUPPORT. Tests on fixed values, their expected results taken from the spec (95_test_vectors.md unless another place is named), and for
each statement with hypotheses a state and operands that meet them. -/

namespace Sys2Proof.Tests

-- One theorem after the other: elaborated at once, the many small ones want more threads than the memory limit allows.
set_option Elab.async false

open Sys2Proof.Machine

/-! ## Well-formedness: each check refuses an ill-formed term -/

theorem test_illFormed_nop : (Instr.wcr .cmd 0x0).wellFormed = false := by decide
theorem test_illFormed_gen : (Instr.wcr .cmd 0x1).wellFormed = false := by decide
theorem test_illFormed_enc : (Instr.wcr .cmd 0x2).wellFormed = false := by decide
theorem test_illFormed_run : (Instr.wcr .cmd 0x3).wellFormed = false := by decide
theorem test_illFormed_clr : (Instr.wcr .cmd 0xF).wellFormed = false := by decide
theorem test_wellFormed_reserved : (Instr.wcr .cmd 0x4).wellFormed = true := by decide

/-! ## Decoding: a word of every constructor, written out from 30_encoding.md R71, R74, R75, R76 -/

/-- R90, example. -/
theorem test_decode_wcr : decode (.transaction 0x0000000000000000 1 0x3FF0000000000000) = .ok (.wcr .duration 0x3FF0000000000000) := by decide
/-- program P1. -/
theorem test_decode_rcr : decode (.transaction 0x0000000000000001 10 0) = .ok (.rcr .status) := by decide
/-- R92, example. -/
theorem test_decode_wsb : decode (.transaction 0x0000000000000102 0 0xBFF0000000000000) = .ok (.wsb 0 .right 0xBFF0000000000000) := by decide
/-- program P2. -/
theorem test_decode_rsb : decode (.transaction 0x0000000000000103 2 0) = .ok (.rsb 2 .right) := by decide
/-- program P1. -/
theorem test_decode_rout : decode (.transaction 0x0000000000000004 31999 0) = .ok (.rout 31999) := by decide
/-- program P6. -/
theorem test_decode_nop : decode (.transaction 0 15 0x0000000000000000) = .ok (.nop) := by decide
/-- program P2. -/
theorem test_decode_gen : decode (.transaction 0 15 0x0000000000000001) = .ok (.gen) := by decide
/-- program P2. -/
theorem test_decode_enc : decode (.transaction 0 15 0x0000000000000002) = .ok (.enc) := by decide
/-- program P1. -/
theorem test_decode_run : decode (.transaction 0 15 0x0000000000000003) = .ok (.run) := by decide
/-- program P3. -/
theorem test_decode_clr : decode (.transaction 0 15 0x000000000000000F) = .ok (.clr) := by decide
/-- mask 0x0001, match 0x0000. -/
theorem test_decode_deriveKlin : decode (.place .rate 0x0000000000001000) = .ok (.deriveKlin) := by decide
/-- mask 0x0001, match 0x0000. -/
theorem test_decode_phaseLin : decode (.place (.phase .right) 0x0000000000001000) = .ok (.phaseLin .right) := by decide
/-- mask 0x0001, match 0x0001. -/
theorem test_decode_deriveKlog : decode (.place .rate 0x0000000000001801) = .ok (.deriveKlog) := by decide
/-- mask 0x0001, match 0x0001. -/
theorem test_decode_phaseLog : decode (.place (.phase .left) 0x0000000000001801) = .ok (.phaseLog .left) := by decide
/-- mask 0xFF00, match 0x1000. -/
theorem test_decode_q16 : decode (.place .quantize 0x0000000000001001) = .ok (.q16) := by decide
/-- mask 0xFF00, match 0x1000. -/
theorem test_decode_pack16 : decode (.place .pack 0x0000000000001000) = .ok (.pack16) := by decide
/-- mask 0xFF00, match 0x1800. -/
theorem test_decode_q24 : decode (.place .quantize 0x0000000000001801) = .ok (.q24) := by decide
/-- mask 0xFF00, match 0x1800. -/
theorem test_decode_pack24 : decode (.place .pack 0x0000000000001800) = .ok (.pack24) := by decide
/-- mask 0xFF00, match 0x2000. -/
theorem test_decode_f32 : decode (.place .quantize 0x0000000000002000) = .ok (.f32) := by decide
/-- mask 0xFF00, match 0x2000. -/
theorem test_decode_pack32 : decode (.place .pack 0x0000000000002001) = .ok (.pack32) := by decide
/-- The operations that no bit selects (R76). -/
theorem test_decode_seq :
    decode (.place .validate 0x1801) = .ok .validate ∧
    decode (.place .deriveN 0x1801) = .ok .deriveN ∧
    decode (.place .deriveDt 0x1801) = .ok .deriveDt ∧
    decode (.place .deriveD 0x1801) = .ok .deriveD ∧
    decode (.place .deriveF 0x1801) = .ok .deriveF ∧
    decode (.place .time 0x1801) = .ok .time ∧
    decode (.place .tshift 0x1801) = .ok .tshift ∧
    decode (.place .mute 0x1801) = .ok .mute ∧
    decode (.place .fade 0x1801) = .ok .fade ∧
    decode (.place .frame 0x1801) = .ok .frame ∧
    decode (.place .clip 0x1801) = .ok .clip ∧
    decode (.place .framepack 0x1801) = .ok .framepack ∧
    decode (.place (.fadeApply .right) 0) = .ok (.fadeApply .right) ∧
    decode (.place (.vol .left) 0) = .ok (.vol .left) := by decide
/-- Section 2.1: reserved kinds, a channel bit on a `WCR`, data on a read, an index above 15, a must-be-zero bit (R71). -/
theorem test_decode_refusals :
    decode (.transaction 5 0 0) = .reject .reservedKind ∧ decode (.transaction 6 0 0) = .reject .reservedKind ∧
    decode (.transaction 7 0 0) = .reject .reservedKind ∧ decode (.transaction 0x100 1 0) = .reject .channelBit ∧
    decode (.transaction 1 0 1) = .reject .dataOnRead ∧ decode (.transaction 0 16 0) = .reject .registerIndex ∧
    decode (.transaction 1 16 0) = .reject .registerIndex ∧ decode (.transaction 0x200 0 0) = .reject .headerBits := by decide
/-- Table words: a header alone, a whole triple (the word to `CMD`), a command word, depth and sweep of `CTRL` (log entry 3). -/
theorem test_tableWord :
    decodeTableWord 64 0x102 = some (.wsb 0 .right 0) ∧ decodeTableWord 192 (15 * 2 ^ 64 + 2 * 2 ^ 128) = some .enc ∧
    decodeTableWord 64 0xF = some .clr ∧ decodeTableWord 16 0x1800 = some .q24 ∧ decodeTableWord 8 1 = some .deriveKlog ∧
    decodeTableWord 0 0 = none := by decide

/-! ## Small states -/

/-- A block with `SB_DEPTH = 2^22`, with given `SIN`, `EXP`, `LN`. -/
def params (sin exp ln : F64 → Word) : Params :=
  { sbDepth := 2 ^ 22 - 1, sin := sin, exp := exp, ln := ln, nan32 := fun _ => 0, nanBits := fun _ => 0, dtOpen := 0,
    f2intOpen := fun _ => 0 }

/-- A block whose `SIN` is the value 0.9576327262410004 wherever that is admissible. -/
def p : Params := params (fun _ => 0x3FEEA4ED631919F3) (fun _ => 0) (fun _ => 0)

/-- The configuration S1 of 41_synth_nco.md. -/
def s1 : State :=
  { State.reset with
    ctrl := 0x1000, duration := 0x3FF0000000000000, sampleRate := 0x40BF400000000000, f0l := 0x4059000000000000
    f1l := 0x408F400000000000, f0r := 0x4059000000000000, f1r := 0x408F400000000000, volume := 0x3FF0000000000000 }

/-- The configuration S2 of 41_synth_nco.md. -/
def s2 : State :=
  { State.reset with
    ctrl := 0x1801, duration := 0x3FC999999999999A, sampleRate := 0x4059000000000000, f0l := 0x4034000000000000
    f1l := 0x4044000000000000, f0r := 0x4024000000000000, f1r := 0x4014000000000000, delay := 0x3F9EB851EB851EB8
    volume := 0x3FE0000000000000 }

/-- The reset state with given temporaries. -/
def withWork (w : Work) : State := { State.reset with work := w }

/-- The reset state with cells in `SB`, given by address, and `SBLEN` and the depth set. -/
def withCells (depth sblen : Word) (cells : List (Nat × Word)) : State :=
  { State.reset with ctrl := depth <<< 8, sblen := sblen, sb := cells }

/-- The buffer of program P4. -/
def p4 (depth : Word) : State :=
  withCells depth 2 [(0, 0x3FF0000000000000), (1, 0xBFF0000000000000), (2, 0x3FE0000000000000), (3, 0x4000000000000000)]

/-! ## Transactions (section 2.1) -/

theorem test_wcr_masks (s : State) :
    exec (.wcr .ctrl 0xFFFFFFFFFFFFFFFF) s = .next { s with ctrl := 0xFF01 } ∧
    exec (.wcr .sblen 0x0000000100000005) s = .next { s with sblen := 5 } := ⟨rfl, rfl⟩
theorem test_wcr_reserved_command :
    exec (.wcr .cmd 4) State.reset = .next { State.reset with fault := 0x0000000400000005, status := 1 } ∧
    exec (.wcr .cmd 0x10) State.reset = .next { State.reset with fault := 0x0000001000000005, status := 1 } ∧
    exec (.wcr .cmd 0x0000000100000001) State.reset = .next { State.reset with fault := 0x0000000100000005, status := 1 } :=
  ⟨rfl, rfl, rfl⟩
theorem test_rcr_cmd : exec (.rcr .cmd) s1 = .next { s1 with reply := .word 0 } := rfl
theorem test_rcr_duration : exec (.rcr .duration) s1 = .next { s1 with reply := .word 0x3FF0000000000000 } := rfl
theorem test_wsb :
    exec (.wsb 0 .right 0x3FD0000000000000) State.reset = .next { State.reset with sb := [(1, 0x3FD0000000000000)] } := rfl
theorem test_rsb :
    exec (.rsb 0 .right) { State.reset with sb := [(1, 0x3FD0000000000000)] } =
      .next { State.reset with sb := [(1, 0x3FD0000000000000)], reply := .word 0x3FD0000000000000 } := rfl
theorem test_rsb_unwritten :
    exec (.rsb 0 .left) { State.reset with sb := [(1, 0x3FD0000000000000)] } = .refused .cellHoldsNoValue := rfl
theorem test_rout :
    exec (.rout 1) { State.reset with outlen := 2, out := [0xFF, 0x7F] } =
      .next { State.reset with outlen := 2, out := [0xFF, 0x7F], reply := .byte 0x7F } := rfl
theorem test_rout_end : exec (.rout 2) { State.reset with outlen := 2, out := [0xFF, 0x7F] } = .refused .offsetBeyondStream := rfl
/-- One step takes one transaction, an illegal one gives none, a reset leaves the rest of the inbox. -/
theorem test_step :
    step { s1 with inbox := [.transaction 0 8 5, .reset] } = .next { s1 with volume := 5, inbox := [.reset] } ∧
    step { s1 with inbox := [.transaction 5 0 0] } = .refused (.malformed .reservedKind) ∧
    step { s1 with inbox := [.reset, .transaction 0 8 5] } = .next { State.reset with inbox := [.transaction 0 8 5] } :=
  ⟨rfl, rfl, rfl⟩

/-! ## Commands -/

theorem test_nop_faulted : exec .nop { s1 with status := 1, fault := 2 } = .next { s1 with status := 1, fault := 2 } := rfl
theorem test_clr : exec .clr { s1 with status := 3, fault := 0x603 } = .next { s1 with status := 2, fault := 0 } := rfl
/-- S2: the counts, a muted cell, the unmuted negative zero of frame 3, a cell through 0.9576... (sections 2.2, 2.4). -/
theorem test_gen :
    let t := gen p s2
    t.status = 0 ∧ t.sblen = 20 ∧ t.dlen = 3 ∧ t.flen = 5 ∧ readCell t 2 .right = some 0 ∧
    readCell t 3 .right = some 0x8000000000000000 ∧ readCell t 1 .left = some 0x3FBEA4ED631919F3 ∧
    readCell t 20 .left = none := by decide +kernel
/-- Section 2.11: after reset. -/
theorem test_gen_reset : exec .gen State.reset = .next { State.reset with fault := 0x103, status := 1 } := rfl
/-- Program P4: the streams at the three depths. -/
theorem test_enc :
    (enc p (p4 16)).out = [0xFF, 0x7F, 0x01, 0x80, 0x00, 0x40, 0xFF, 0x7F] ∧
    (enc p (p4 24)).out = [0xFF, 0xFF, 0x7F, 0x01, 0x00, 0x80, 0x00, 0x00, 0x40, 0xFF, 0xFF, 0x7F] ∧
    (enc p (p4 32)).out =
      [0x00, 0x00, 0x80, 0x3F, 0x00, 0x00, 0x80, 0xBF, 0x00, 0x00, 0x00, 0x3F, 0x00, 0x00, 0x00, 0x40] ∧
    (enc p (p4 32)).outlen = 16 ∧ (enc p (p4 32)).status = 2 := by decide +kernel
/-- Section 2.10, the faults of `ENC`, each with no byte left. -/
theorem test_enc_faults :
    let c := 0x3FD0000000000000
    let nan := 0x7FF8000000000000
    [withCells 48 2 [(0, c)], withCells 16 4194305 [(0, c)], withCells 48 4194305 [(0, c)],
      withCells 16 2 [(0, c), (1, c), (2, c)], withCells 16 2 [(0, c), (1, nan)], withCells 24 2 [(0, c), (1, c), (2, c), (3, nan)]].map
      (fun s => ((enc p s).fault, (enc p s).status, (enc p s).out)) =
    [(0x2, 1, []), (0x106, 1, []), (0x2, 1, []), (0x0000000100010206, 1, []), (0x10007, 1, []), (0x0000000100010007, 1, [])] := by
  decide +kernel
/-- A depth of 48 faults `RUN` after its `GEN` (program P3, on S2). -/
theorem test_run_depth :
    let t := run p { s2 with ctrl := 0x3001 }
    t.fault = 0x2 ∧ t.status = 1 ∧ t.sblen = 20 ∧ t.outlen = 0 := by decide +kernel
/-- Program P5: the `GEN` fault comes first and nothing is written. -/
theorem test_run_frequency :
    let t := run p { s1 with ctrl := 0x3001, f0r := 0 }
    t.fault = 0x1 ∧ t.status = 1 ∧ t.sblen = 0 ∧ t.sb = [] := by decide +kernel

/-! ## The operations of `GEN` -/

/-- Section 2.10, the table of `GEN` faults: `FAULT` after `VALIDATE`. -/
theorem test_validate :
    [s1,
      { s1 with duration := 0 },
      { s1 with duration := 0xBFF0000000000000 },
      { s1 with duration := 0x7FF8000000000000 },
      { s1 with duration := 0x7FF0000000000000 },
      { s1 with sampleRate := 0x8000000000000000 },
      { s1 with sampleRate := 0x7FF0000000000000 },
      { s1 with delay := 0x8000000000000000 },
      { s1 with delay := 0xBE112E0BE826D695 },
      { s1 with delay := 0x7FF0000000000000 },
      { s1 with volume := 0x8000000000000000 },
      { s1 with volume := 0x3FF0000000000001 },
      { s1 with volume := 0x7FF8000000000000 },
      { s1 with f0r := 0 },
      { s1 with ctrl := 1, f0r := 0 },
      { s1 with ctrl := 1, f1l := 0x7FF8000000000000 },
      { s1 with ctrl := 1, f1l := 0x7FF0000000000000 },
      { s1 with f0l := 0x408F400000000000 },
      { s1 with ctrl := 1, f0r := 0x408F400000000000 },
      { s1 with ctrl := 1, duration := 0, f0l := 0xBFF0000000000000 },
      { s1 with ctrl := 1, volume := 0x4000000000000000, f0l := 0xBFF0000000000000 },
      { s1 with ctrl := 1, f0l := 0, f0r := 0x408F400000000000 },
      { s1 with sampleRate := 0x4150000020000000 },
      { s1 with sampleRate := 0x4150000040000000 },
      { s1 with sampleRate := 0x7FE1CCF385EBC8A0, duration := 0x7FE1CCF385EBC8A0 },
      { s1 with sampleRate := 0x16687E92154EF7AC, duration := 0x16687E92154EF7AC }].map
      (fun s => (validate p s).state.fault) =
    [0, 0x103, 0x103, 0x103, 0x103, 0x203, 0x203, 0, 0x303, 0x303, 0, 0x403, 0x403, 0x503, 0x1, 0x1, 0x503, 0x603, 0x603, 0x103, 0x403, 0x1, 0, 0x703, 0x703, 0] := by
  decide +kernel

/-- The temporaries after the counts of a sample rate, a duration and a delay. -/
def counted (rate duration delay : Word) : Work :=
  (deriveF p (deriveD p (deriveDt p (deriveN p { State.reset with sampleRate := rate, duration := duration, delay := delay })))).work

/-- The operands of section 2.2: sample rate, duration, delay. -/
def countRows : List (Word × Word × Word) :=
    [(0x40BF400000000000, 0x3FF0000000000000, 0x0000000000000000),
      (0x40BF400000000000, 0x3FC999999999999A, 0x0000000000000000),
      (0x40BF400000000000, 0x3FA999999999999A, 0x0000000000000000),
      (0x40BF400000000000, 0x3FB999999999999A, 0x0000000000000000),
      (0x40E5888000000000, 0x3FB999999999999A, 0x3F85810624DD2F1B),
      (0x40E7700000000000, 0x404E000000000000, 0x3FE0000000000000),
      (0x4059000000000000, 0x3FC999999999999A, 0x3F9EB851EB851EB8),
      (0x4059000000000000, 0x3FB1EB851EB851EC, 0x0000000000000000),
      (0x403E000000000000, 0x3FE0000000000000, 0x0000000000000000),
      (0x3FF0000000000000, 0x3FE0000000000000, 0x0000000000000000),
      (0x40BF400000000000, 0x3FD28F5C28F5C28F, 0x3F347AE147AE147B),
      (0x4024000000000000, 0x3FD6666666666666, 0x3FD0000000000000),
      (0x4024000000000000, 0x3FDCCCCCCCCCCCCD, 0x3FC3333333333333),
      (0x40BF400000000000, 0x3F847AE147AE147B, 0x3FF0000000000000),
      (0x4059000000000000, 0x3F9EB851EB851EB8, 0x0000000000000000),
      (0x40BF400000000000, 0x3F826E978D4FDF3B, 0x0000000000000000),
      (0x4150000000000000, 0x3FF0000000000000, 0x0000000000000000)]

theorem test_deriveN : countRows.map (fun r => (counted r.1 r.2.1 r.2.2).bigN) =
    [8000, 1600, 400, 800, 4410, 2880000, 20, 7, 15, 0, 2320, 3, 4, 80, 3, 72, 4194304] := by decide +kernel
theorem test_deriveD : countRows.map (fun r => (counted r.1 r.2.1 r.2.2).bigD) =
    [0, 0, 0, 0, 463, 24000, 3, 0, 0, 0, 2, 2, 2, 80, 0, 0, 0] := by decide +kernel
theorem test_deriveF : countRows.map (fun r => (counted r.1 r.2.1 r.2.2).bigF) =
    [400, 400, 100, 400, 2205, 2400, 5, 1, 1, 0, 400, 0, 0, 20, 0, 18, 209715] := by decide +kernel
theorem test_deriveDt :
    (counted 0x40BF400000000000 0x3FF0000000000000 0).dt = asF64 0x3F20624DD2F1A9FC ∧
    (counted 0x4059000000000000 0x3FC999999999999A 0).dt = asF64 0x3F847AE147AE147B := by decide +kernel
/-- Section 2.3: 100 to 1000 over 1.0 s, 1000 to 100 over 0.5 s. -/
theorem test_deriveKlin :
    (deriveKlin s1).work.kl = asF64 0x408C200000000000 ∧
    (deriveKlin { s1 with f0r := 0x408F400000000000, f1r := 0x4059000000000000, duration := 0x3FE0000000000000 }).work.kr =
      asF64 0xC09C200000000000 := by decide +kernel
/-- Section 2.4, with `LN(2.0)` and `LN(0.5)` of the C library. -/
theorem test_deriveKlog :
    let q := params (fun _ => 0) (fun _ => 0) (fun x => if x = two then 0x3FE62E42FEFA39EF else 0xBFE62E42FEFA39EF)
    (deriveKlog q s2).work.kl = asF64 0x400BB9D3BEB8C86A ∧ (deriveKlog q s2).work.kr = asF64 0xC00BB9D3BEB8C86A := by
  decide +kernel
theorem test_time :
    (timeOp (withWork { Work.idle with n := 4, dt := asF64 0x3F847AE147AE147B })).work.t = asF64 0x3FA47AE147AE147B := by
  decide +kernel
/-- Section 2.4: S2 at frames 2, 3, 4. -/
theorem test_tshift :
    [0x3F947AE147AE147B, 0x3F9EB851EB851EB8, 0x3FA47AE147AE147B].map
      (fun t => (tshift { s2 with work := { Work.idle with t := asF64 t } }).work.tR) =
    [posZero, posZero, asF64 0x3F847AE147AE147C] := by decide +kernel
theorem test_tshift_negative_zero_delay :
    (tshift { s2 with delay := 0x8000000000000000, work := { Work.idle with t := one } }).work.tR = one := by decide +kernel
/-- Section 2.3, S1 left at frame 1: the argument of `SIN`, seen through a `SIN` that gives its argument. -/
theorem test_phaseLin :
    let q := params (bitsF64 0) (fun _ => 0) (fun _ => 0)
    (phaseLin q .left { s1 with work :=
      { Work.idle with t := asF64 0x3F20624DD2F1A9FC, kl := asF64 0x408C200000000000 } }).work.sL = asF64 0x3FB41E14A874AD5D := by
  decide +kernel
/-- Section 2.4, S2 right at frame 4, with `EXP` of the C library there: the argument of `SIN`. -/
theorem test_phaseLog :
    let q := params (bitsF64 0) (fun _ => 0x3FEEE8F34DD8042F) (fun _ => 0)
    (phaseLog q .right { s2 with work :=
      { Work.idle with tR := asF64 0x3F847AE147AE147C, kr := asF64 0xC00BB9D3BEB8C86A } }).work.sR =
      asF64 0x3FE3C3035543024C := by
  decide +kernel
theorem test_mute :
    (mute (withWork { Work.idle with n := 2, bigD := 3, sR := asF64 0x3FE6666666666666 })).work.sR = posZero ∧
    (mute (withWork { Work.idle with n := 3, bigD := 3, sR := asF64 0x3FE6666666666666 })).work.sR =
      asF64 0x3FE6666666666666 := by decide +kernel
/-- Section 2.5: `N = 20, F = 5`; `N = 7, F = 1`; `N = 3, F = 0`; `N = 8, F = 2`. -/
theorem test_fade :
    let quarter := asF64 0x3FD0000000000000
    let half := asF64 0x3FE0000000000000
    let three := asF64 0x3FE8000000000000
    let gains := fun (bigN bigF : Int) (k : Nat) => (List.range k).map fun n =>
      (fade (withWork { Work.idle with n := n, bigN := bigN, bigF := bigF })).work.g
    gains 20 5 20 = [posZero, quarter, half, three, one] ++ List.replicate 10 one ++ [one, three, half, quarter, posZero] ∧
    gains 7 1 7 = [posZero, one, one, one, one, one, posZero] ∧ gains 3 0 3 = [one, one, one] ∧
    gains 8 2 8 = [posZero, one, one, one, one, one, one, posZero] := by decide +kernel
/-- Section 2.5, `N = 8000, F = 400`: frames 1, 199, 399, 400, 7599, 7600, 7601, 7999. -/
theorem test_fade_long :
    [1, 199, 399, 400, 7599, 7600, 7601, 7999].map (fun n => fadeGain n 8000 400) =
    [0x3F64880522014880, 0x3FDFEB77FADDFEB7, 0x3FF0000000000000, 0x3FF0000000000000, 0x3FF0000000000000, 0x3FF0000000000000, 0x3FEFEB77FADDFEB7, 0].map asF64 := by
  decide +kernel
/-- Sections 2.4 and 2.5: 0.957... x 0.25, and -0.3 x +0. -/
theorem test_fadeApply :
    (fadeApply .left (withWork { Work.idle with sL := asF64 0x3FEEA4ED631919F3, g := asF64 0x3FD0000000000000 })).work.xL =
      asF64 0x3FCEA4ED631919F3 ∧
    (fadeApply .right (withWork { Work.idle with sR := asF64 0xBFD3333333333333, g := posZero })).work.xR = asF64 0x8000000000000000 := by
  decide +kernel
theorem test_vol :
    (vol .left { s2 with work := { Work.idle with xL := asF64 0x3FCEA4ED631919F3 } }).work.vL = asF64 0x3FBEA4ED631919F3 ∧
    (vol .right { s2 with volume := 0, work := { Work.idle with xR := asF64 0xBFD3333333333333 } }).work.vR =
      asF64 0x8000000000000000 := by decide +kernel
/-- 42_envelope.md R134: left, then right; a NaN enters as the pattern drawn, which is a NaN. -/
theorem test_frame :
    (frameStore p { s1 with sb := [(3, 7)], work := { Work.idle with n := 1, vL := one, vR := negOne } }).sb =
      [(2, 0x3FF0000000000000), (3, 0xBFF0000000000000)] ∧
    isNaN (asF64 (storedPattern p 0 .nan)) = true := by decide +kernel

/-! ## The operations of `ENC` -/

/-- 43_quantize_pack.md R145: 2.0, -0.0, both infinities, 0.999999. -/
theorem test_clip :
    [0x4000000000000000, 0x8000000000000000, 0x7FF0000000000000, 0xFFF0000000000000, 0x3FEFFFFDE7210BE9].map
      (fun x => (clip (withWork { Work.idle with x := asF64 x })).work.c) =
    [0x3FF0000000000000, 0x8000000000000000, 0x3FF0000000000000, 0xBFF0000000000000, 0x3FEFFFFDE7210BE9].map asF64 := by
  decide +kernel
/-- Section 2.6. -/
theorem test_q16 :
    [0x0000000000000000, 0x8000000000000000, 0x3FF0000000000000, 0xBFF0000000000000, 0x4000000000000000, 0xC000000000000000,
      0x7FF0000000000000, 0xFFF0000000000000, 0x3FE0000000000000, 0xBFE0000000000000, 0x3FD0000000000000, 0x3F50624DD2F1A9FC,
      0x3FB999999999999A, 0xBFB999999999999A, 0x3FD5555555555555, 0x3FEFFFFDE7210BE9, 0x3EF0002000400080, 0x3F080030006000C0,
      0x3F140028005000A0, 0xBF080030006000C0].map
      (fun x => (q16 p (withWork { Work.idle with x := asF64 x })).state.work.q) =
    [0, 0, 32767, -32767, 32767, -32767, 32767, -32767, 16384, -16384, 8192, 33, 3277, -3277, 10922, 32767, 0, 2, 2, -2] := by
  decide +kernel
/-- A NaN raises QuantizeNaN at its sample (R178). -/
theorem test_q16_nan :
    (q16 p (withWork { Work.idle with x := .nan, n := 1, ch := .right })).state.fault = 0x0000000100010007 := by decide +kernel
/-- Section 2.7. -/
theorem test_q24 :
    [0x0000000000000000, 0x8000000000000000, 0x3FF0000000000000, 0xBFF0000000000000, 0x7FF0000000000000, 0xC000000000000000,
      0x3FE0000000000000, 0xBFE0000000000000, 0x3FD0000000000000, 0x3F50624DD2F1A9FC, 0x3FB999999999999A, 0xBFB999999999999A,
      0x3FD5555555555555, 0x3FEFFFFDE7210BE9, 0x3E70000020000040, 0x3E88000030000060, 0x3E94000028000050].map
      (fun x => (q24 p (withWork { Work.idle with x := asF64 x })).state.work.q) =
    [0, 0, 8388607, -8388607, 8388607, -8388607, 4194304, -4194304, 2097152, 8389, 838861, -838861, 2796202, 8388599, 0, 2, 2] := by
  decide +kernel
/-- Section 2.7, the alternative of `Q24_ROUND`. -/
theorem test_q24_towardZero :
    [0x3FE0000000000000, 0x3FD0000000000000, 0x3F50624DD2F1A9FC, 0x3FB999999999999A, 0x3FEFFFFDE7210BE9, 0x3E88000030000060,
      0xBFF0000000000000].map
      (fun x => quantizeValue p .towardZero scale24 (clipValue (asF64 x))) =
    [4194303, 2097151, 8388, 838860, 8388598, 1, -8388607] := by
  decide +kernel
/-- Section 2.8. -/
theorem test_f32 :
    [0x0000000000000000, 0x8000000000000000, 0x3FF0000000000000, 0xBFF0000000000000, 0x4000000000000000, 0x3FB999999999999A,
      0x3FD5555555555555, 0x3F50624DD2F1A9FC, 0x3FEFFFFDE7210BE9, 0x3FF0000010000000, 0x3FF0000030000000, 0x47EFFFFFE54DAFF8,
      0x47EFFFFFF0000000, 0x48078287F49C4A1D, 0xC8078287F49C4A1D, 0x7FF0000000000000, 0xFFF0000000000000, 0x366244CE242C5561].map
      (fun x => (f32 p (withWork { Work.idle with x := asF64 x })).work.w) =
    [0x00000000, 0x80000000, 0x3F800000, 0xBF800000, 0x40000000, 0x3DCCCCCD, 0x3EAAAAAB, 0x3A83126F, 0x3F7FFFEF, 0x3F800000, 0x3F800002, 0x7F7FFFFF, 0x7F800000, 0x7F800000, 0xFF800000, 0x7F800000, 0xFF800000, 0x00000000] := by
  decide +kernel
/-- Section 2.8: a NaN is a draw, exponent `0xFF` and fraction bit 22 set. -/
theorem test_f32_nan : isQuietNan32 (f32 p (withWork { Work.idle with x := .nan })).work.w = true := by decide +kernel
/-- 43_quantize_pack.md R149. -/
theorem test_pack16 :
    [32767, 3277, -3277, 16384, 0, -1, -32767].map (fun q => (pack16 (withWork { Work.idle with q := q })).work.bytes) =
    [[0xFF, 0x7F], [0xCD, 0x0C], [0x33, 0xF3], [0x00, 0x40], [0x00, 0x00], [0xFF, 0xFF], [0x01, 0x80]] := by decide +kernel
/-- R150. -/
theorem test_pack24 :
    [8388607, -8388607, 838861, -838861, 4194304].map (fun q => (pack24 (withWork { Work.idle with q := q })).work.bytes) =
    [[0xFF, 0xFF, 0x7F], [0x01, 0x00, 0x80], [0xCD, 0xCC, 0x0C], [0x33, 0x33, 0xF3], [0x00, 0x00, 0x40]] := by decide +kernel
/-- R151. -/
theorem test_pack32 :
    [0x3F800000, 0x3DCCCCCD, 0xBF000000].map (fun w => (pack32 (withWork { Work.idle with w := w })).work.bytes) =
    [[0x00, 0x00, 0x80, 0x3F], [0xCD, 0xCC, 0xCC, 0x3D], [0x00, 0x00, 0x00, 0xBF]] := by decide +kernel
theorem test_framepack :
    (framepack { withWork { Work.idle with bytes := [0x01, 0x80] } with out := [0xFF, 0x7F] }).out = [0xFF, 0x7F, 0x01, 0x80] := rfl

/-! ## Primitives and the host script -/

/-- 00_scope.md R9: `frne` of 0.5, 1.5, 2.5, -1.5, -0.5. -/
theorem test_frne :
    [0x3FE0000000000000, 0x3FF8000000000000, 0x4004000000000000, 0xBFF8000000000000, 0xBFE0000000000000].map
      (fun u => frne (asF64 u)) = [0, 0x4000000000000000, 0x4000000000000000, 0xC000000000000000, 0x8000000000000000].map asF64 := by
  decide +kernel
/-- R112, R110: `fmul(0.0003125, 8000.0) = 2.5`, and `fmul(100.0, 0.03)` rounds to `3.0`. -/
theorem test_fmul :
    fmul (asF64 0x3F347AE147AE147B) (asF64 0x40BF400000000000) = asF64 0x4004000000000000 ∧
    fmul (asF64 0x4059000000000000) (asF64 0x3F9EB851EB851EB8) = asF64 0x4008000000000000 := by decide +kernel
/-- 00_scope.md R9: `u2f` of 0, 1, 20, `2^32 - 1`; and `2^60`, which has an equal `F64` above `2^53`. -/
theorem test_u2f :
    [0, 1, 20, 2 ^ 32 - 1, 2 ^ 60].map u2f =
    [0, 0x3FF0000000000000, 0x4034000000000000, 0x41EFFFFFFFE00000, 0x43B0000000000000].map asF64 := by decide +kernel
/-- 30_encoding.md R82 and program P2: `f:0.05`, `ctrl log, 24`, `cmd CLR`, `left f:20, f:40`. -/
theorem test_script :
    expandScript [.wcr .delay (.decimal false 5 2), .ctrlLog 24, .cmd .clr, .left (.decimal false 20 0) (.decimal false 40 0)] =
    [.transaction 0 7 0x3FA999999999999A, .transaction 0 0 0x1801, .transaction 0 15 0xF,
      .transaction 0 3 0x4034000000000000, .transaction 0 4 0x4044000000000000] := by decide +kernel
/-- Lines of programs P2 and P3 as text, with a comment and an empty line. -/
theorem test_parseScript :
    parseScript "ctrl log, 24 ; depth 24\n\nwcr DURATION, f:0.2\nright f:10, f:5\nwsb 1, R, 0x7FF8000000000000\nrout 31999".toList =
    some [.ctrlLog 24, .wcr .duration (.decimal false 2 1), .right (.decimal false 10 0) (.decimal false 5 0),
      .wsb 1 .right (.pattern 0x7FF8000000000000), .rout 31999] ∧
    parseScript "wcr TEMPO, 1".toList = none := by decide +kernel

/-! ## Witnesses: for each statement with hypotheses, a state and operands that meet them -/

/-- A configuration of one frame, which every block passes: sample rate and duration 1.0, 100 to 1000 Hz, volume 1.0, depth 32. -/
def sOne : State :=
  { State.reset with
    ctrl := 0x2000, duration := 0x3FF0000000000000, sampleRate := 0x3FF0000000000000, f0l := 0x4059000000000000
    f1l := 0x408F400000000000, f0r := 0x4059000000000000, f1r := 0x408F400000000000, volume := 0x3FF0000000000000 }

/-- `u2f(SB_DEPTH + 1)` is that number. -/
theorem u2f_depth : ∃ m e, u2f ((sbDepth Config.params : Int) + 1) = .fin false m e ∧
    (2 : ℚ) ≤ value (.fin false m e) := by
  have hb := sbDepth_bounds Config.params
  obtain ⟨m, e, h1, h2⟩ := value_u2f (n := sbDepth Config.params + 1) (by omega)
  refine ⟨m, e, by rw [← h1]; push_cast; rfl, ?_⟩
  rw [h2]
  exact_mod_cast (by omega : 2 ≤ sbDepth Config.params + 1)

/-- Clause 7 holds of every block where the product is 1.0. -/
theorem clause7_one : fge one (u2f ((sbDepth Config.params : Int) + 1)) = false := by
  obtain ⟨m, e, h1, h2⟩ := u2f_depth
  rw [h1, fge, Bool.eq_false_iff]
  intro h
  rw [show one = .fin false (2 ^ 52) (-52) by decide +kernel, fle_fin] at h
  have : value (.fin false (2 ^ 52) (-52)) = 1 := by norm_num [value, signedInt]
  linarith

/-- Clause 7 fails of every block where the product is infinite. -/
theorem clause7_inf : fge (.inf false) (u2f ((sbDepth Config.params : Int) + 1)) = true := by
  obtain ⟨m, e, h1, -⟩ := u2f_depth
  rw [h1]
  rfl

/-- A state whose product of sample rate and duration is 1.0 passes every block if it passes clauses 1 to 6. -/
theorem failedClause_one (s : State) (h : fmul (asF64 s.sampleRate) (asF64 s.duration) = one)
    (h0 : failedClause p s = none) : failedClause Config.params s = none := by
  simp only [failedClause, h, clause7_one] at h0 ⊢
  split_ifs at h0 ⊢ <;> simp_all

theorem sOne_passes : failedClause Config.params sOne = none := failedClause_one sOne (by decide +kernel) (by decide +kernel)

/-! ### Encoding and the step -/

theorem witness_DecodeOfEncode : Instr.wellFormed (.wcr .cmd 4) = true ∧ Instr.wellFormed .gen = true := by decide
theorem witness_EncodeOfDecode : decodeTransaction 0x102 5 7 = .ok (.wsb 5 .right 7) := by decide
/-- One transaction for each ground of a refusal, at a boundary of it. -/
theorem witness_InadmissibleTransactionsRefused :
    (8 : Word) &&& 0xFFFFFFFFFFFFFEF8 ≠ 0 ∧ 5 ≤ headerKind 5 ∧
    (headerChannel 0x100 = .right ∧ headerKind 0x100 ≠ 2 ∧ headerKind 0x100 ≠ 3) ∧ ((1 : Word) ≠ 0 ∧ headerKind 1 = 1) ∧
    (15 < (16 : Word).toNat ∧ headerKind 0 = 0) ∧
    (sbDepth Config.params ≤ (BitVec.ofNat 64 (sbDepth Config.params)).toNat ∧ headerKind 2 = 2) ∧
    (State.reset.outlen.toNat ≤ (0 : Word).toNat ∧ headerKind 4 = 4) := by
  have hb := sbDepth_bounds Config.params
  refine ⟨by decide, by decide, by decide, by decide, by decide, ⟨?_, by decide⟩, by decide⟩
  rw [BitVec.toNat_ofNat, Nat.mod_eq_of_lt (by omega)]
theorem witness_StepRunsDecodedTransaction :
    let s := { s1 with inbox := [.transaction 0 15 1, .transaction 5 0 0] }
    s.stage = none ∧ s.inbox = .transaction 0 15 1 :: [.transaction 5 0 0] ∧ decode (.transaction 0 15 1) = .ok .gen ∧
    decode (.transaction 5 0 0) = .reject .reservedKind := by decide
theorem witness_StepRunsSelectedOperation :
    let s := { s1 with stage := some .quantize }
    s.stage = some .quantize ∧ decode (.place .quantize s.ctrl) = .ok .q16 ∧
    decode (.place .quantize 0x3000) = .reject .noOperationSelected := by decide
theorem witness_StepIdlesAndResets :
    s1.stage = none ∧ s1.inbox = [] ∧ { s1 with inbox := [.reset] }.inbox = .reset :: [] := by decide
/-- A state with one written cell and a recorded fault meets the invariant, and its step answers a next state. -/
theorem witness_StepKeepsInvariant :
    let s := { s1 with sb := [(1, 7)], status := 1, fault := 0x603 }
    Inv s ∧ step s = .next s := by
  have hb := sbDepth_bounds Config.params
  refine ⟨⟨by decide, by decide, by decide, by decide, by decide, by decide, .inr ?_, by decide, by decide, by decide,
    by decide, ?_, by decide⟩, rfl⟩
  · exact ⟨.configuration, 6, .left, 0, ⟨by decide, by decide, rfl, rfl⟩, by decide⟩
  · intro c hc
    obtain rfl : c = (1, 7) := by simpa using hc
    show 1 < _
    omega
theorem witness_StopsAreTheRefusals : let s := { s1 with sb := [(1, 7)] }; Inv s ∧ faulted s = false := by
  have hb := sbDepth_bounds Config.params
  refine ⟨⟨by decide, by decide, by decide, by decide, by decide, by decide, .inl rfl, by decide, by decide, by decide,
    by decide, ?_, by decide⟩, by decide⟩
  intro c hc
  obtain rfl : c = (1, 7) := by simpa using hc
  show 1 < _
  omega

/-! ### Transactions and commands -/

theorem witness_CommandDispatch : faulted { s1 with status := 1 } = true ∧ faulted s1 = false ∧
    (4 : Word) ≠ 0 ∧ (4 : Word) ≠ 1 ∧ (4 : Word) ≠ 2 ∧ (4 : Word) ≠ 3 ∧ (4 : Word) ≠ 15 := by decide
theorem witness_ReadRegister : 15 < (16 : Word).toNat := by decide
/-- The last frame of the buffer, and the first index beyond it. -/
theorem witness_WriteCell :
    (BitVec.ofNat 64 (sbDepth Config.params - 1)).toNat < sbDepth Config.params ∧
    sbDepth Config.params ≤ (BitVec.ofNat 64 (sbDepth Config.params)).toNat := by
  have hb := sbDepth_bounds Config.params
  rw [BitVec.toNat_ofNat, BitVec.toNat_ofNat, Nat.mod_eq_of_lt (by omega), Nat.mod_eq_of_lt (by omega)]
  omega
theorem witness_ReadCell :
    let s := { s1 with sb := [(1, 7)] }
    (0 : Word).toNat < sbDepth Config.params ∧ readCell s 0 .right = some 7 ∧ readCell s 0 .left = none ∧
    sbDepth Config.params ≤ (BitVec.ofNat 64 (sbDepth Config.params)).toNat :=
  ⟨(sbDepth_bounds _).1, by decide, by decide, witness_WriteCell.2⟩
theorem witness_ReadOutputByte :
    let s := { s1 with outlen := 2, out := [0xFF, 0x7F] }
    s.outlen.toNat = s.out.length ∧ (1 : Word).toNat < s.out.length ∧ s.outlen.toNat ≤ (2 : Word).toNat := by decide
theorem witness_FaultedRefusesCommands : faulted { s1 with status := 1 } = true ∧ isCommandWord 4 = false := by decide

/-! ### `VALIDATE` and `GEN` -/

/-- Clauses 1, 2, 3, 4, 5 (logarithmic), 5, 6 of the input contract, as the statement has them. -/
def clauses (s : State) : List Bool :=
  let f := [asF64 s.f0l, asF64 s.f1l, asF64 s.f0r, asF64 s.f1r]
  [decide (isFinite (asF64 s.duration) = true ∧ fgt (asF64 s.duration) posZero = true),
    decide (isFinite (asF64 s.sampleRate) = true ∧ fgt (asF64 s.sampleRate) posZero = true),
    decide (isFinite (asF64 s.delay) = true ∧ fge (asF64 s.delay) posZero = true),
    decide (fge (asF64 s.volume) posZero = true ∧ fle (asF64 s.volume) one = true),
    decide (sweepLog s = true → ∀ x ∈ f, fgt x posZero = true),
    decide (∀ x ∈ f, isFinite x = true ∧ fgt x posZero = true),
    decide (feq (asF64 s.f0l) (asF64 s.f1l) = false ∧ feq (asF64 s.f0r) (asF64 s.f1r) = false)]

/-- For each clause up to 6 a state that fails it and passes the ones before. -/
theorem witness_ValidateRaisesFirstFailure :
    (clauses State.reset).take 1 = [false] ∧ (clauses { s1 with sampleRate := 0 }).take 2 = [true, false] ∧
    (clauses { s1 with delay := 0xBFF0000000000000 }).take 3 = [true, true, false] ∧
    (clauses { s1 with volume := 0x3FF0000000000001 }).take 4 = [true, true, true, false] ∧
    (clauses { s1 with ctrl := 1, f0r := 0 }).take 5 = [true, true, true, true, false] ∧
    (clauses { s1 with f0r := 0 }).take 6 = [true, true, true, true, true, false] ∧
    clauses { s1 with f0r := 0x408F400000000000 } = [true, true, true, true, true, true, false] := by decide +kernel
/-- A state that fails clause 7 only, and one that fails none. -/
theorem witness_ValidateRaisesFirstFailure_clause7 :
    let s := { s1 with sampleRate := 0x7FE1CCF385EBC8A0, duration := 0x7FE1CCF385EBC8A0 }
    clauses s = [true, true, true, true, true, true, true] ∧
    ¬fge (fmul (asF64 s.sampleRate) (asF64 s.duration)) (u2f ((sbDepth Config.params : Int) + 1)) = false ∧
    clauses sOne = [true, true, true, true, true, true, true] ∧
    fge (fmul (asF64 sOne.sampleRate) (asF64 sOne.duration)) (u2f ((sbDepth Config.params : Int) + 1)) = false := by
  refine ⟨by decide +kernel, ?_, by decide +kernel, ?_⟩
  · rw [show fmul _ _ = .inf false by decide +kernel, clause7_inf]
    decide
  · rw [show fmul _ _ = one by decide +kernel]
    exact clause7_one
theorem witness_GenFaultLeavesTheRest :
    let t := { State.reset with fault := 0x103, status := 1 }
    faulted State.reset = false ∧ exec .validate State.reset = .next t ∧ faulted t = true := ⟨rfl, rfl, rfl⟩
/-- It has one frame, whose sine is finite in both channels. -/
theorem witness_GenStoresTheSweep :
    faulted sOne = false ∧ failedClause Config.params sOne = none ∧ 0 < (countN Config.params sOne).toNat ∧
    isNaN (frameValue Config.params sOne 0 .left) = false :=
  ⟨rfl, sOne_passes, by decide +kernel, by decide +kernel⟩
theorem witness_GenCountsInRange : failedClause Config.params sOne = none := sOne_passes
/-- The same configuration with a delay of one frame. -/
theorem witness_DelayedCellsAreZero :
    let s := { sOne with delay := 0x3FF0000000000000 }
    faulted s = false ∧ failedClause Config.params s = none ∧ isNeg (asF64 s.volume) = false ∧
    ((0 : Nat) : Int) < countD Config.params s :=
  ⟨rfl, failedClause_one _ (by decide +kernel) (by decide +kernel), by decide +kernel, by decide +kernel⟩
theorem witness_CellsInRange :
    failedClause Config.params sOne = none ∧ ((0 : Nat) : Int) < countN Config.params sOne ∧
    isFinite (frameSine Config.params sOne 0 .right) = true :=
  ⟨sOne_passes, by decide +kernel, by decide +kernel⟩
theorem witness_GenIgnoresDepth : faulted sOne = false ∧ ctrlSweep 0x3000 = ctrlSweep sOne.ctrl := by decide
/-- Both cases of `DT`, of `D` and of `F` (S2 with 20, 0 and 3 frames). -/
theorem witness_CountOperations :
    let s := { s2 with work := { Work.idle with bigN := 20 } }
    0 < s.work.bigN ∧ s2.work.bigN ≤ 0 ∧
    fge (fmul (asF64 s.delay) (asF64 s.sampleRate)) (u2f 3) = true ∧
    fge (fmul (asF64 s.delay) (asF64 s.sampleRate)) (u2f s.work.bigN) = false ∧
    fgt (fmul two (ffloor (fmul fadeSeconds (asF64 s.sampleRate)))) (u2f 3) = true ∧
    fgt (fmul two (ffloor (fmul fadeSeconds (asF64 s.sampleRate)))) (u2f s.work.bigN) = false := by decide +kernel
/-- S2 at times 0.02 and 0.03, and S1. -/
theorem witness_TimeAxis :
    fgt (asF64 s2.delay) posZero = true ∧ flt (fsub (asF64 0x3F947AE147AE147B) (asF64 s2.delay)) posZero = true ∧
    flt (fsub (asF64 0x3F9EB851EB851EB8) (asF64 s2.delay)) posZero = false ∧ fgt (asF64 s1.delay) posZero = false := by
  decide +kernel
theorem witness_MuteBeforeDelay :
    let w := { Work.idle with n := 2, bigD := 3 }
    (w.n : Int) < w.bigD ∧ ({ w with n := 3 }.n : Int) ≥ w.bigD := by decide
/-- Frames for the cases of the gain: no window; a window of one frame, first and last; a window of five, in, out, and between. -/
theorem witness_FadeGainByCases :
    ((1 : Int) = 1 ∧ (0 : Int) < 1) ∧ ((5 : Int) ≠ 0 ∧ (5 : Int) ≠ 1 ∧ (4 : Int) < 5) ∧
    ((1 : Int) = 1 ∧ (1 : Int) ≤ 6 ∧ (7 - 1 : Int) ≤ 6) ∧ ((5 : Int) ≤ 15 ∧ (20 - 5 : Int) ≤ 15) ∧
    ((5 : Int) ≤ 14 ∧ (14 : Int) < 20 - 5) := by decide
theorem witness_FadeGainInRange :
    (0 : Int) ≤ 19 ∧ (19 : Int) < 20 ∧ (0 : Int) ≤ 10 ∧ 2 * (10 : Int) ≤ 20 ∧ (20 : Int) < 2 ^ 32 := by decide
theorem witness_FadeGainEndPoints :
    (1 : Int) ≤ 2 ∧ 2 * (2 : Int) ≤ 5 ∧ (5 : Int) < 2 ^ 32 ∧ (2 : Int) ≤ 2 ∧ (2 : Int) < 5 - 2 := by decide
theorem witness_FrameStoresBothCells :
    canonical one ∧ canonical negOne ∧ 0 < sbDepth Config.params ∧ sbDepth Config.params ≤ 2 ^ 32 :=
  ⟨asF64_canonical _, asF64_canonical _, (sbDepth_bounds _).1, (sbDepth_bounds _).2.le⟩

/-! ### `ENC` -/

theorem witness_ClipLimitsToUnit :
    fgt two one = true ∧ flt (fneg two) negOne = true ∧ fgt one one = false ∧ flt one negOne = false := by decide +kernel
theorem witness_IntegerQuantizers : isNaN (withWork { Work.idle with x := one }).work.x = false ∧
    isNaN (withWork { Work.idle with x := .nan }).work.x = true := by decide
theorem witness_QuantizedRange : isNaN (.inf true) = false ∧ isNaN one = false := by decide
theorem witness_QuantizersAreMonotone : fle negOne one = true ∧ fle (asF64 0x8000000000000000) posZero = true := by
  decide +kernel
/-- The largest and the smallest magnitude that give an infinity and a finite pattern, on both sides of the threshold of R148; a tie. -/
theorem witness_Float32Conversion :
    isFinite (asF64 0x47EFFFFFF0000000) = true ∧ (2 : ℚ) ^ 128 - 2 ^ 103 ≤ |value (asF64 0x47EFFFFFF0000000)| ∧
    isFinite (asF64 0x47EFFFFFEFFFFFFF) = true ∧ |value (asF64 0x47EFFFFFEFFFFFFF)| < (2 : ℚ) ^ 128 - 2 ^ 103 ∧
    isFinite (asF32 0x7F7FFFFF) = true ∧
    |value (asF32 0x3F800000) - value (asF64 0x3FF0000010000000)| =
      |value (asF32 0x3F800001) - value (asF64 0x3FF0000010000000)| ∧ value (asF32 0x3F800000) ≠ value (asF32 0x3F800001) := by
  rw [show asF64 0x47EFFFFFF0000000 = .fin false 0x1FFFFFF0000000 75 by decide +kernel,
    show asF64 0x47EFFFFFEFFFFFFF = .fin false 0x1FFFFFEFFFFFFF 75 by decide +kernel,
    show asF32 0x3F800000 = .fin false 0x10000000000000 (-52) by decide +kernel,
    show asF32 0x3F800001 = .fin false 0x10000020000000 (-52) by decide +kernel,
    show asF64 0x3FF0000010000000 = .fin false 0x10000010000000 (-52) by decide +kernel]
  refine ⟨rfl, ?_, rfl, ?_, by decide +kernel, ?_, ?_⟩ <;> norm_num [value, signedInt]
theorem witness_Binary32RoundTrip : isNaN (asF32 0x3F800000) = false ∧ isNaN (asF32 0x00000001) = false := by decide +kernel
theorem witness_PackedBytesReadBack :
    (-32767 ≤ (-32767 : Int) ∧ (-32767 : Int) ≤ 32767) ∧ (-8388607 ≤ (8388607 : Int) ∧ (8388607 : Int) ≤ 8388607) := by decide

/-- One frame, 1.0 and -1.0, at depth 16. -/
def encOne : State := withCells 16 1 [(0, 0x3FF0000000000000), (1, 0xBFF0000000000000)]

theorem witness_EncPacksTheBuffer :
    faulted encOne = false ∧ legalDepth (bitDepth encOne) = true ∧ encOne.sblen.toNat ≤ sbDepth Config.params ∧
    (∀ n ch, n < encOne.sblen.toNat → encodable encOne (bitDepth encOne) n ch = true) ∧
    0 < encOne.sblen.toNat ∧ readCell encOne 0 .right = some 0xBFF0000000000000 := by
  refine ⟨by decide, by decide, (sbDepth_bounds _).1, ?_, by decide, by decide⟩
  intro n ch hn
  obtain rfl : n = 0 := by simpa [encOne, withCells] using hn
  cases ch <;> decide
/-- Depth 48; and depth 16 with a length one above `SB_DEPTH`. -/
theorem witness_EncChecksDepthThenLength :
    let s := withCells 16 (BitVec.ofNat 64 (sbDepth Config.params + 1)) []
    faulted (withCells 48 1 []) = false ∧ legalDepth (bitDepth (withCells 48 1 [])) = false ∧
    faulted s = false ∧ legalDepth (bitDepth s) = true ∧ sbDepth Config.params < s.sblen.toNat := by
  have hb := sbDepth_bounds Config.params
  refine ⟨by decide, by decide, rfl, by decide, ?_⟩
  show _ < (BitVec.ofNat 64 (sbDepth Config.params + 1)).toNat
  rw [BitVec.toNat_ofNat, Nat.mod_eq_of_lt (by omega)]
  omega
/-- The right cell of frame 0 holds no value, or a NaN. -/
theorem witness_EncFaultsAtFirstBadCell :
    let s := withCells 16 1 [(0, 0x3FF0000000000000)]
    let s' := withCells 16 1 [(0, 0x3FF0000000000000), (1, 0x7FF8000000000000)]
    (faulted s = false ∧ legalDepth (bitDepth s) = true ∧ s.sblen.toNat ≤ sbDepth Config.params ∧ 0 < s.sblen.toNat ∧
      encodable s (bitDepth s) 0 .right = false ∧ readCell s 0 .right = none ∧
      (∀ n' ch', cellAddress n' ch' < cellAddress 0 .right → encodable s (bitDepth s) n' ch' = true)) ∧
    (encodable s' (bitDepth s') 0 .right = false ∧ readCell s' 0 .right = some 0x7FF8000000000000 ∧
      (∀ n' ch', cellAddress n' ch' < cellAddress 0 .right → encodable s' (bitDepth s') n' ch' = true)) := by
  refine ⟨⟨by decide, by decide, (sbDepth_bounds _).1, by decide, by decide, by decide, ?_⟩, by decide, by decide, ?_⟩
  all_goals
    intro n' ch' h
    cases ch' <;> simp only [cellAddress, channelIndex] at h
    · obtain rfl : n' = 0 := by omega
      decide
    · omega
theorem witness_EncReadsDepthLengthAndCells :
    let s' := { encOne with volume := 1, sampleRate := 2, outlen := 1, out := [0] }
    faulted encOne = false ∧ faulted s' = false ∧ bitDepth s' = bitDepth encOne ∧ s'.sblen = encOne.sblen ∧
    s'.sb = encOne.sb ∧ s'.draws = encOne.draws ∧ s' ≠ encOne := by decide
/-- `GEN` of the reset state faults. -/
theorem witness_RunIsGenThenEnc :
    faulted State.reset = false ∧ exec .gen State.reset = .next { State.reset with fault := 0x103, status := 1 } := ⟨rfl, rfl⟩
theorem witness_RunProducesTheStream :
    faulted sOne = false ∧ failedClause Config.params sOne = none ∧ legalDepth (bitDepth sOne) = true ∧
    (∀ n ch, n < (countN Config.params sOne).toNat →
      bitDepth sOne = 32 ∨ isNaN (frameValue Config.params sOne n ch) = false) ∧ 0 < (countN Config.params sOne).toNat :=
  ⟨rfl, sOne_passes, by decide, fun _ _ _ => .inl (by decide), by decide +kernel⟩

/-! ### Numerics -/

theorem witness_NumericsProperties :
    isFinite one = true ∧ isFinite (.inf true) = false ∧ (isFinite two = true ∧ fgt two one = true) ∧
    (isFinite (asF64 1) = true ∧ fgt (asF64 1) posZero = true ∧ flt (asF64 1) one = true) ∧ flt negOne posZero = true := by
  decide +kernel
theorem witness_PatternsRoundTrip : isNaN (asF64 0x7FF0000000000000) = false ∧ isNaN (asF64 1) = false := by decide +kernel
theorem witness_ComparisonsAreAnOrder :
    isNaN posZero = false ∧ isNaN (.inf true) = false ∧ isFinite one = true ∧ isFinite negOne = true ∧
    (flt (.inf true) negOne = true ∧ flt negOne one = true) ∧ (fle negOne negOne = true ∧ fle negOne (.inf false) = true) := by
  decide +kernel
/-- A midpoint of binary64 and a value beyond its largest. -/
theorem witness_RoundingIsNearestEven :
    (2 : Nat) ≤ 53 ∧ (-1074 : Int) ≤ 971 ∧ (0 : Nat) < 1 ∧ round64 false (2 ^ 53 + 1) 1 0 = .fin false (2 ^ 52) 1 ∧
    round64 false 1 1 1024 = .inf false := by decide +kernel
theorem witness_ArithmeticRoundsTheExactResult :
    isFinite one = true ∧ isFinite negOne = true ∧ isFinite posZero = true ∧ isNaN (.inf true) = false ∧ value one + value one ≠ 0 ∧
    value one + value negOne = 0 ∧ value one ≠ 0 ∧ value posZero = 0 := by
  have h1 : one = .fin false (2 ^ 52) (-52) := by decide +kernel
  have h2 : negOne = .fin true (2 ^ 52) (-52) := by decide +kernel
  rw [h1, h2]
  refine ⟨rfl, rfl, rfl, rfl, ?_⟩
  norm_num [value, signedInt, posZero]
theorem witness_IntegralRounding : isFinite (asF64 0xBFF8000000000000) = true ∧ (2 ^ 53 - 1 : Nat) < 2 ^ 53 := by decide +kernel

end Sys2Proof.Tests
end

section
/-! PROOFS. The step and the counts: a transaction is run as it decodes, and the count operations are their formulas. -/

namespace Sys2Proof.Machine

/-- An encoding that decodes is run as the instruction it stands for. -/
theorem execCode_of_decode_ok {c : Code} {i : Instr} (h : decode c = .ok i) (s : State) : execCode c s = exec i s := by
  rw [execCode, h]

/-- An encoding that stands for nothing is refused, in every state. -/
theorem execCode_of_decode_reject {c : Code} {r : Reject} (h : decode c = .reject r) (s : State) :
    execCode c s = .refused (.malformed r) := by
  rw [execCode, h]

/-- With no place set the step takes the transaction at the head of the inbox. -/
theorem step_transaction {s : State} {h a v : Word} {rest : List Input} (hs : s.stage = none)
    (hi : s.inbox = .transaction h a v :: rest) :
    step s = execCode (.transaction h a v) { s with inbox := rest, reply := .none } := by
  rw [step, hs, hi]

/-- Settles O5: the step is `execCode` of the transaction, whose outcome is that of the decoder. -/
theorem stepRunsDecodedTransaction : Obligations.StepRunsDecodedTransaction := by
  intro s h a v rest hs hi
  rw [step_transaction hs hi]
  exact ⟨fun _ hd => execCode_of_decode_ok hd _, fun _ hd => execCode_of_decode_reject hd _⟩

theorem exec_deriveN (s : State) : exec .deriveN s = .next (deriveN Config.params s) := rfl

theorem exec_deriveDt (s : State) : exec .deriveDt s = .next (deriveDt Config.params s) := rfl

theorem exec_deriveD (s : State) : exec .deriveD s = .next (deriveD Config.params s) := rfl

theorem exec_deriveF (s : State) : exec .deriveF s = .next (deriveF Config.params s) := rfl

theorem deriveDt_of_frames {p : Params} {s : State} (h : 0 < s.work.bigN) :
    deriveDt p s = { s with work := { s.work with dt := fdiv (asF64 s.duration) (u2f s.work.bigN) } } := by
  rw [deriveDt, if_pos h]

theorem deriveDt_of_no_frame {p : Params} {s : State} (h : s.work.bigN ≤ 0) :
    deriveDt p s = { s with work := { s.work with dt := asF64 p.dtOpen } } := by
  rw [deriveDt, if_neg (not_lt.2 h)]

/-- A delay of the whole sweep or more is cut to `N` frames (R112). -/
theorem deriveD_of_ge {p : Params} {s : State}
    (h : fge (fmul (asF64 s.delay) (asF64 s.sampleRate)) (u2f s.work.bigN) = true) :
    deriveD p s = { s with work := { s.work with bigD := s.work.bigN } } := by
  simp only [deriveD, h, if_true]

theorem deriveD_of_not_ge {p : Params} {s : State}
    (h : fge (fmul (asF64 s.delay) (asF64 s.sampleRate)) (u2f s.work.bigN) = false) :
    deriveD p s = { s with work := { s.work with
      bigD := f2int p (frne (fmul (asF64 s.delay) (asF64 s.sampleRate))) } } := by
  simp only [deriveD, h, Bool.false_eq_true, if_false]

/-- Two fades that do not fit are cut to a quarter of the sweep (R113). -/
theorem deriveF_of_gt {p : Params} {s : State}
    (h : fgt (fmul two (ffloor (fmul fadeSeconds (asF64 s.sampleRate)))) (u2f s.work.bigN) = true) :
    deriveF p s = { s with work := { s.work with bigF := s.work.bigN.fdiv 4 } } := by
  simp only [deriveF, h, if_true]

theorem deriveF_of_not_gt {p : Params} {s : State}
    (h : fgt (fmul two (ffloor (fmul fadeSeconds (asF64 s.sampleRate)))) (u2f s.work.bigN) = false) :
    deriveF p s = { s with work := { s.work with
      bigF := f2int p (ffloor (fmul fadeSeconds (asF64 s.sampleRate))) } } := by
  simp only [deriveF, h, Bool.false_eq_true, if_false]

/-- Settles O30: each operation is its `derive` function, whose branches are those of R110 to R113. -/
theorem countOperations : Obligations.CountOperations := by
  intro s two' fadeSeconds'
  rw [exec_deriveN, exec_deriveDt, exec_deriveD, exec_deriveF]
  exact ⟨rfl,
    fun h => congrArg _ (deriveDt_of_frames h),
    fun h => ⟨_, congrArg _ (deriveDt_of_no_frame h)⟩,
    fun h => congrArg _ (deriveD_of_ge h),
    fun h => congrArg _ (deriveD_of_not_ge h),
    fun h => congrArg _ (deriveF_of_gt h),
    fun h => congrArg _ (deriveF_of_not_gt h)⟩

end Sys2Proof.Machine
end

section
/-! PROOFS. Patterns and values: a pattern that is not a NaN's is the one of its value, and the comparisons order the values. -/

namespace Sys2Proof.Machine

/-- A 64-bit number is put together from its sign, exponent and fraction fields (00_scope.md R7). -/
theorem fields_eq_toNat (u : Word) :
    (if decide (2 ^ 63 ≤ u.toNat) then 2 ^ 63 else 0) + u.toNat / 2 ^ 52 % 2048 * 2 ^ 52 + u.toNat % 2 ^ 52 = u.toNat := by
  have hlt := u.isLt
  simp only [decide_eq_true_eq]
  split <;> omega

/-- Packing the fields of a pattern gives the pattern. -/
theorem packF64_fields {u : Word} {be frac : Nat} (hb : u.toNat / 2 ^ 52 % 2048 = be) (hf : u.toNat % 2 ^ 52 = frac) :
    packF64 (decide (2 ^ 63 ≤ u.toNat)) be frac = u := by
  subst hb hf
  rw [packF64, fields_eq_toNat, BitVec.ofNat_toNat, BitVec.setWidth_eq]

/-- The pattern of the value of a pattern: an infinity, a subnormal value or zero, and a normal value each pack the fields they were
read from. -/
theorem bitsF64_asF64 (u nanBits : Word) (h : isNaN (asF64 u) = false) : bitsF64 nanBits (asF64 u) = u := by
  have hfrac : u.toNat % 2 ^ 52 < 2 ^ 52 := Nat.mod_lt _ (by norm_num)
  have hval := asF64_eq u
  by_cases hinf : u.toNat / 2 ^ 52 % 2048 = 2047
  · rw [if_pos hinf] at hval
    by_cases hz : u.toNat % 2 ^ 52 = 0
    · rw [hval, if_pos hz]
      exact packF64_fields hinf hz
    · rw [hval, if_neg hz] at h
      cases h
  · rw [if_neg hinf] at hval
    by_cases hsub : u.toNat / 2 ^ 52 % 2048 = 0
    · rw [hval, if_pos hsub, bitsF64, if_pos hfrac]
      exact packF64_fields hsub rfl
    · rw [hval, if_neg hsub, bitsF64, if_neg (by omega)]
      exact packF64_fields (by omega) (by omega)

/-- Settles O56, by the three kinds of pattern that are not a NaN's. -/
theorem patternsRoundTrip : Obligations.PatternsRoundTrip := bitsF64_asF64

theorem exists_fin_of_isFinite {x : F64} (h : isFinite x = true) : ∃ neg m e, x = .fin neg m e := by
  cases x with
  | nan => cases h
  | inf => cases h
  | fin neg m e => exact ⟨neg, m, e, rfl⟩

theorem isNaN_of_isFinite {x : F64} (h : isFinite x = true) : isNaN x = false := by
  obtain ⟨neg, m, e, rfl⟩ := exists_fin_of_isFinite h
  rfl

theorem value_eq_zero_iff {neg : Bool} {m : Nat} {e : Int} : value (.fin neg m e) = 0 ↔ m = 0 := by
  have hz : (2 : ℚ) ^ e ≠ 0 := (two_zpow_pos e).ne'
  cases neg <;> simp [value, signedInt, hz]

/-- The value of a datum that is not a NaN, the infinities below and above every rational. A NaN has no place in the order, and
every use asks for data that are not NaNs. -/
def extendedValue : F64 → WithBot (WithTop ℚ)
  | .nan => ⊤
  | .inf true => ⊥
  | .inf false => ⊤
  | .fin neg m e => ((value (.fin neg m e) : WithTop ℚ) : WithBot (WithTop ℚ))

theorem extendedValue_of_finite {x : F64} (h : isFinite x = true) :
    extendedValue x = ((value x : WithTop ℚ) : WithBot (WithTop ℚ)) := by
  obtain ⟨neg, m, e, rfl⟩ := exists_fin_of_isFinite h
  rfl

theorem extendedValue_lt_top {x : F64} (h : isFinite x = true) : extendedValue x < ⊤ := by
  rw [extendedValue_of_finite h]
  exact WithBot.coe_lt_coe.2 (WithTop.coe_lt_top _)

/-- `flt` is the strict order of the extended values, on data that are not NaNs. -/
theorem flt_iff {x y : F64} :
    flt x y = true ↔ isNaN x = false ∧ isNaN y = false ∧ extendedValue x < extendedValue y := by
  cases x with
  | nan => simp [flt, isNaN]
  | inf n =>
    cases y with
    | nan => simp [flt, isNaN]
    | inf m => cases n <;> cases m <;> simp [flt, isNaN, extendedValue]
    | fin nb mb eb => cases n <;> simp [flt, isNaN, extendedValue]
  | fin na ma ea =>
    cases y with
    | nan => simp [flt, isNaN]
    | inf m =>
      cases m with
      | false => exact iff_of_true rfl ⟨rfl, rfl, extendedValue_lt_top rfl⟩
      | true => simp [flt, extendedValue]
    | fin nb mb eb => rw [flt_fin]; simp [isNaN, extendedValue]

/-- `feq` is equality of the extended values, on data that are not NaNs. -/
theorem feq_iff {x y : F64} :
    feq x y = true ↔ isNaN x = false ∧ isNaN y = false ∧ extendedValue x = extendedValue y := by
  cases x with
  | nan => simp [feq, isNaN]
  | inf n =>
    cases y with
    | nan => simp [feq, isNaN]
    | inf m => cases n <;> cases m <;> simp [feq, isNaN, extendedValue]
    | fin nb mb eb => cases n <;> simp [feq, isNaN, extendedValue]
  | fin na ma ea =>
    cases y with
    | nan => simp [feq, isNaN]
    | inf m => cases m <;> simp [feq, isNaN, extendedValue]
    | fin nb mb eb => rw [feq_fin]; simp [isNaN, extendedValue]

/-- `fle` is the order of the extended values, on data that are not NaNs. -/
theorem fle_iff {x y : F64} :
    fle x y = true ↔ isNaN x = false ∧ isNaN y = false ∧ extendedValue x ≤ extendedValue y := by
  rw [fle, Bool.or_eq_true, flt_iff, feq_iff, le_iff_lt_or_eq]
  tauto

theorem flt_iff_value {x y : F64} (hx : isFinite x = true) (hy : isFinite y = true) :
    flt x y = true ↔ value x < value y := by
  simp [flt_iff, isNaN_of_isFinite, hx, hy, extendedValue_of_finite]

theorem feq_iff_value {x y : F64} (hx : isFinite x = true) (hy : isFinite y = true) :
    feq x y = true ↔ value x = value y := by
  simp [feq_iff, isNaN_of_isFinite, hx, hy, extendedValue_of_finite]

theorem fle_iff_value {x y : F64} (hx : isFinite x = true) (hy : isFinite y = true) :
    fle x y = true ↔ value x ≤ value y := by
  simp [fle_iff, isNaN_of_isFinite, hx, hy, extendedValue_of_finite]

/-- A comparison with a NaN on either side is false. -/
theorem comparisons_nan (x : F64) :
    flt x .nan = false ∧ flt .nan x = false ∧ fle x .nan = false ∧ fle .nan x = false ∧
      feq x .nan = false ∧ feq .nan x = false := by
  simp only [← Bool.not_eq_true, flt_iff, fle_iff, feq_iff, isNaN]
  simp

/-- The infinities lie outside the finite data. -/
theorem comparisons_inf {x : F64} (h : isFinite x = true) :
    flt (.inf true) x = true ∧ flt x (.inf true) = false ∧ flt x (.inf false) = true ∧ flt (.inf false) x = false ∧
      ∀ n, feq x (.inf n) = false ∧ feq (.inf n) x = false := by
  obtain ⟨neg, m, e, rfl⟩ := exists_fin_of_isFinite h
  simp [flt, feq]

/-- Exactly one of less, equal and greater holds of data that are not NaNs: the trichotomy of the extended values. -/
theorem flt_trichotomy {x y : F64} (hx : isNaN x = false) (hy : isNaN y = false) :
    (flt x y = true ∧ feq x y = false ∧ flt y x = false) ∨ (flt x y = false ∧ feq x y = true ∧ flt y x = false) ∨
      (flt x y = false ∧ feq x y = false ∧ flt y x = true) := by
  simp only [← Bool.not_eq_true, flt_iff, feq_iff, hx, hy, true_and]
  rcases lt_trichotomy (extendedValue x) (extendedValue y) with h | h | h
  · exact .inl ⟨h, h.ne, h.asymm⟩
  · exact .inr (.inl ⟨h.not_lt, h, h.not_gt⟩)
  · exact .inr (.inr ⟨h.asymm, h.ne', h⟩)

theorem flt_trans {x y z : F64} (hxy : flt x y = true) (hyz : flt y z = true) : flt x z = true := by
  obtain ⟨hx, -, hlt⟩ := flt_iff.1 hxy
  obtain ⟨-, hz, hlt'⟩ := flt_iff.1 hyz
  exact flt_iff.2 ⟨hx, hz, hlt.trans hlt'⟩

theorem fle_trans {x y z : F64} (hxy : fle x y = true) (hyz : fle y z = true) : fle x z = true := by
  obtain ⟨hx, -, hle⟩ := fle_iff.1 hxy
  obtain ⟨-, hz, hle'⟩ := fle_iff.1 hyz
  exact fle_iff.2 ⟨hx, hz, hle.trans hle'⟩

/-- Settles O57: the comparisons are those of the extended values, a linear order. -/
theorem comparisonsAreAnOrder : Obligations.ComparisonsAreAnOrder := by
  refine ⟨comparisons_nan, by decide, fun x y hx hy => ⟨flt_iff_value hx hy, fle_iff_value hx hy, feq_iff_value hx hy⟩,
    fun x hx => comparisons_inf hx, fun n m => ?_, fun x y => ⟨?_, rfl, rfl⟩,
    fun x y hx hy => flt_trichotomy hx hy, fun x y z => ⟨flt_trans, fle_trans⟩⟩
  · simp [flt, feq]
  · rw [fle, Bool.or_eq_true]

end Sys2Proof.Machine
end

section
/-! PROOFS. The named properties of `SIN`, `EXP` and `LN` (00_scope.md R10). -/

namespace Sys2Proof.Machine

theorem asF64_posZero : asF64 0 = posZero := by decide +kernel

theorem asF64_negZero : asF64 0x8000000000000000 = .fin true 0 (-1074) := by decide +kernel

theorem one_eq : one = .fin false (2 ^ 52) (-52) := by decide +kernel

theorem negOne_eq : negOne = .fin true (2 ^ 52) (-52) := by decide +kernel

theorem value_posZero : value posZero = 0 := by simp [posZero, value, signedInt]

theorem value_one : value one = 1 := by rw [one_eq]; norm_num [value, signedInt]

theorem value_negOne : value negOne = -1 := by rw [negOne_eq]; norm_num [value, signedInt]

theorem isFinite_posZero : isFinite posZero = true := rfl

theorem sinAdmits_posZero : sinAdmits posZero = true := by decide +kernel

theorem fge_one_posZero : fge one posZero = true := by decide +kernel

theorem flt_negOne_posZero : flt negOne posZero = true := by decide +kernel

theorem fgt_one_posZero : fgt one posZero = true := by decide +kernel

theorem isFinite_one : isFinite one = true := by rw [one_eq]; rfl

theorem isFinite_negOne : isFinite negOne = true := by rw [negOne_eq]; rfl

/-- The zeros are the finite data of value 0. -/
theorem isZero_iff {x : F64} : isZero x = true ↔ isFinite x = true ∧ value x = 0 := by
  cases x with
  | nan => simp [isZero, isFinite]
  | inf n => simp [isZero, isFinite]
  | fin neg m e =>
    rw [value_eq_zero_iff]
    cases m <;> simp [isZero, isFinite]

/-- `SIN_ZERO`: a zero of either sign is its own sine. -/
theorem sinFn_of_isZero (p : Params) {x : F64} (h : isZero x = true) : sinFn p x = x := by
  simp [sinFn, h, (isZero_iff.1 h).1]

/-- `SIN_BOUND`: at a finite operand the sine is admissible, whichever branch gives it. -/
theorem sinAdmits_sinFn (p : Params) {x : F64} (h : isFinite x = true) : sinAdmits (sinFn p x) = true := by
  simp only [sinFn, h, Bool.not_true, Bool.false_eq_true, if_false]
  split
  · rename_i hz
    simp [sinAdmits, h, fle_iff_value, isFinite_one, isFinite_negOne, value_one, value_negOne, (isZero_iff.1 hz).2]
  · split
    · assumption
    · exact sinAdmits_posZero

/-- `SIN_NONFINITE`. -/
theorem sinFn_of_not_finite (p : Params) {x : F64} (h : isFinite x = false) : sinFn p x = .nan := by
  simp [sinFn, h]

/-- `EXP_ZERO`. -/
theorem expFn_of_isZero (p : Params) {x : F64} (h : isZero x = true) : expFn p x = one := by
  simp [expFn, h]

/-- `EXP_POS`. -/
theorem fge_expFn_posZero (p : Params) {x : F64} (h : isFinite x = true) : fge (expFn p x) posZero = true := by
  rw [expFn]
  split
  · exact fge_one_posZero
  · split
    · exact fge_one_posZero
    · rename_i hraw
      simpa [h] using hraw

/-- Above zero the logarithm is 0 at 1 and elsewhere the raw parameter or, where that is not admissible, `1` or `-1`. -/
theorem lnFn_of_pos (p : Params) {x : F64} (h : isFinite x = true) (hpos : 0 < value x) :
    lnFn p x = if feq x one = true then posZero else if lnAdmits x (asF64 (p.ln x)) = true then asF64 (p.ln x)
      else if fgt x one = true then one else negOne := by
  have hz : isZero x = false := by simp [← Bool.not_eq_true, isZero_iff, h, hpos.ne']
  have hlt : flt x posZero = false := by
    simp [← Bool.not_eq_true, flt_iff_value h isFinite_posZero, value_posZero, hpos.le]
  obtain ⟨neg, m, e, rfl⟩ := exists_fin_of_isFinite h
  simp only [lnFn, hz, hlt, Bool.false_eq_true, if_false]

/-- Above zero and other than at 1 the logarithm is admissible, whichever branch gives it. -/
theorem lnAdmits_lnFn (p : Params) {x : F64} (h : isFinite x = true) (hpos : 0 < value x) (hne : value x ≠ 1) :
    lnAdmits x (lnFn p x) = true := by
  have heq : ¬ feq x one = true := by rwa [feq_iff_value h isFinite_one, value_one]
  rw [lnFn_of_pos p h hpos, if_neg heq]
  split
  · assumption
  · split
    · rename_i hgt
      rw [lnAdmits, if_pos hgt, isFinite_one, fgt_one_posZero, Bool.and_self]
    · rename_i hgt
      rw [lnAdmits, if_neg hgt, isFinite_negOne, flt_negOne_posZero, Bool.and_self]

/-- `LN_SIGN` above 1. -/
theorem lnFn_of_gt_one (p : Params) {x : F64} (h : isFinite x = true) (hgt : fgt x one = true) :
    fgt (lnFn p x) posZero = true ∧ isFinite (lnFn p x) = true := by
  have hv : 1 < value x := by rwa [fgt, flt_iff_value isFinite_one h, value_one] at hgt
  have hadm := lnAdmits_lnFn p h (by linarith) hv.ne'
  rw [lnAdmits, hgt, if_pos rfl, Bool.and_eq_true] at hadm
  exact hadm.symm

/-- `LN_SIGN` between 0 and 1. -/
theorem lnFn_of_lt_one (p : Params) {x : F64} (h : isFinite x = true) (hpos : fgt x posZero = true)
    (hlt : flt x one = true) : flt (lnFn p x) posZero = true ∧ isFinite (lnFn p x) = true := by
  have hv : 0 < value x := by rwa [fgt, flt_iff_value isFinite_posZero h, value_posZero] at hpos
  have hv1 : value x < 1 := by rwa [flt_iff_value h isFinite_one, value_one] at hlt
  have hngt : fgt x one = false := by
    simp [← Bool.not_eq_true, fgt, flt_iff_value isFinite_one h, value_one, hv1.le]
  have hadm := lnAdmits_lnFn p h hv hv1.ne
  rw [lnAdmits, hngt, if_neg (by simp), Bool.and_eq_true] at hadm
  exact hadm.symm

/-- `LN_ONE`. -/
theorem lnFn_one (p : Params) : lnFn p one = posZero := by
  rw [lnFn_of_pos p isFinite_one (by rw [value_one]; norm_num), if_pos]
  exact (feq_iff_value isFinite_one isFinite_one).2 rfl

/-- `LN_EDGE` at the zeros. -/
theorem lnFn_of_isZero (p : Params) {x : F64} (h : isZero x = true) : lnFn p x = .inf true := by
  obtain ⟨neg, m, e, rfl⟩ := exists_fin_of_isFinite (isZero_iff.1 h).1
  simp [lnFn, h]

/-- `LN_EDGE` below zero, minus infinity included. -/
theorem lnFn_of_neg (p : Params) {x : F64} (h : flt x posZero = true) : lnFn p x = .nan := by
  cases x with
  | nan => rfl
  | inf n => cases n <;> [cases h; rfl]
  | fin neg m e =>
    have hz : isZero (.fin neg m e) = false := by
      rw [flt_iff_value rfl isFinite_posZero, value_posZero] at h
      simp [← Bool.not_eq_true, isZero_iff, h.ne]
    simp [lnFn, hz, h]

/-- Settles O55: the accessors keep the properties in each of their branches, whatever the raw parameters are. -/
theorem numericsProperties : Obligations.NumericsProperties := by
  intro p zero negZero one' negOne'
  have hzero : zero = posZero := asF64_posZero
  have hnegZero : isZero negZero = true := by rw [show negZero = _ from asF64_negZero]; rfl
  have hposZero : isZero posZero = true := rfl
  have hone : one' = one := rfl
  have hnegOne : negOne' = negOne := rfl
  rw [hzero, hone, hnegOne]
  refine ⟨⟨sinFn_of_isZero p hposZero, sinFn_of_isZero p hnegZero⟩, fun x hx => ?_, fun x hx => ?_,
    ⟨expFn_of_isZero p hposZero, expFn_of_isZero p hnegZero⟩, fun x hx => ?_, lnFn_one p,
    fun x hx => lnFn_of_gt_one p hx, fun x hx => lnFn_of_lt_one p hx,
    ⟨lnFn_of_isZero p hposZero, lnFn_of_isZero p hnegZero, rfl⟩, fun x hx => ?_, rfl⟩
  · have hadm := sinAdmits_sinFn p hx
    rw [sinAdmits, Bool.and_eq_true, Bool.and_eq_true] at hadm
    exact and_assoc.1 hadm
  · rw [sinFn_of_not_finite p hx]; rfl
  · have hge := fge_expFn_posZero p hx
    exact ⟨hge, (fle_iff.1 hge).2.1⟩
  · rw [lnFn_of_neg p hx]; rfl

end Sys2Proof.Machine
end

section
/-! PROOFS. Correct rounding: the integer that `divNearestEven` gives is a nearest one, even at a tie, and so is the value that `roundTo`
gives in its format. -/

namespace Sys2Proof.Machine

/-- `m` is an integer nearest to `x`, the even one where two are as near. -/
def NearestEven (x : ℚ) (m : Nat) : Prop :=
  |(m : ℚ) - x| ≤ 1 / 2 ∧ (|(m : ℚ) - x| = 1 / 2 → m % 2 = 0)

/-- `divNearestEven` rounds the quotient: with remainder `r` the quotient is `q + r / d`, and the three branches compare `r / d` with a
half. -/
theorem divNearestEven_nearestEven (n : Nat) {d : Nat} (hd : 0 < d) :
    NearestEven ((n : ℚ) / d) (divNearestEven n d) := by
  have hdq : (0 : ℚ) < d := by exact_mod_cast hd
  have hsplit : (n : ℚ) / d = (n / d : Nat) + ((n % d : Nat) : ℚ) / d := by
    rw [div_eq_iff hdq.ne', add_mul, div_mul_cancel₀ _ hdq.ne']
    exact_mod_cast (Nat.div_add_mod' n d).symm
  have hr0 : 0 ≤ ((n % d : Nat) : ℚ) / d := by positivity
  have hr1 : ((n % d : Nat) : ℚ) / d < 1 := by
    rw [div_lt_one hdq]; exact_mod_cast Nat.mod_lt n hd
  have hlt : 2 * (n % d) < d ↔ ((n % d : Nat) : ℚ) / d < 1 / 2 := by
    rw [div_lt_div_iff₀ hdq two_pos, one_mul, mul_comm]; exact_mod_cast Iff.rfl
  have hgt : d < 2 * (n % d) ↔ 1 / 2 < ((n % d : Nat) : ℚ) / d := by
    rw [div_lt_div_iff₀ two_pos hdq, one_mul, mul_comm]; exact_mod_cast Iff.rfl
  rw [NearestEven, hsplit]
  simp only [divNearestEven, hlt, hgt]
  generalize ((n % d : Nat) : ℚ) / d = r at *
  generalize n / d = q
  split
  · have habs : |(q : ℚ) - (q + r)| = r := by rw [sub_add_cancel_left, abs_neg, abs_of_nonneg hr0]
    rw [habs]
    exact ⟨by linarith, fun h => by linarith⟩
  · split
    · have habs : |((q + 1 : Nat) : ℚ) - (q + r)| = 1 - r := by
        rw [abs_of_nonneg (by push_cast; linarith)]; push_cast; ring
      rw [habs]
      exact ⟨by linarith, fun h => by linarith⟩
    · have hr : r = 1 / 2 := by linarith
      have hq : |((q + q % 2 : Nat) : ℚ) - (q + r)| = 1 / 2 := by
        rcases Nat.mod_two_eq_zero_or_one q with h | h <;> rw [h, hr] <;> norm_num
      exact ⟨hq.le, fun _ => by omega⟩

/-- Every other integer is at least half a unit away. -/
theorem NearestEven.half_le {x : ℚ} {m k : Nat} (h : NearestEven x m) (hne : (k : ℚ) ≠ m) : 1 / 2 ≤ |(k : ℚ) - x| := by
  have hkm : (1 : ℚ) ≤ |(k : ℚ) - m| := by
    have : (1 : ℤ) ≤ |(k : ℤ) - m| := Int.one_le_abs (sub_ne_zero.2 (by exact_mod_cast hne))
    exact_mod_cast this
  have htri : |(k : ℚ) - m| ≤ |(k : ℚ) - x| + |(m : ℚ) - x| := by
    rw [abs_sub_comm (m : ℚ) x]; exact abs_sub_le _ _ _
  linarith [h.1]

/-- What `roundTo` makes of a positive value `x * 2^q`, where `2^q` is the unit that its size calls for: the mantissa `m` is `x` rounded to
an integer, `x` has at most `prec` bits before the point, and exactly as many unless the unit is the smallest one. -/
structure RoundsTo (prec : Nat) (qmin : Int) (x : ℚ) (q : Int) (m : Nat) : Prop where
  nearest : NearestEven x m
  unit_le : qmin ≤ q
  lt_top : x < 2 ^ prec
  top_le : q ≠ qmin → 2 ^ (prec - 1) ≤ x

/-- The rounded value as a datum of the format: a mantissa that was rounded up to `2^prec` is written with the next unit, and what is
above the largest unit is an infinity. -/
def roundedDatum (prec : Nat) (qmin qmax : Int) (neg : Bool) (q : Int) (m : Nat) : F64 :=
  if m = 0 then .fin neg 0 qmin
  else if m = 2 ^ prec then (if qmax < q + 1 then .inf neg else .fin neg (2 ^ (prec - 1)) (q + 1))
  else if qmax < q then .inf neg else .fin neg m q

/-- `roundTo` of a positive value is its rounding, written as a datum. -/
theorem roundTo_eq_roundedDatum {prec : Nat} (qmin qmax : Int) (neg : Bool) {n d : Nat} (e : Int) (hp : 0 < prec)
    (hn : 0 < n) (hd : 0 < d) :
    ∃ x q m, RoundsTo prec qmin x q m ∧ x * 2 ^ q = (n : ℚ) / d * 2 ^ e ∧
      roundTo prec qmin qmax neg n d e = roundedDatum prec qmin qmax neg q m := by
  obtain ⟨hlog_le, hlog_lt⟩ := ratioLog2_spec hn hd
  obtain ⟨q, hq⟩ : ∃ q, q = roundUnit prec qmin n d e := ⟨_, rfl⟩
  have hq' : q = max qmin (ratioLog2 n d + e - ((prec : Int) - 1)) := hq
  have hunits := units_value (n := n) (e := e) (q := q) hd
  refine ⟨_, q, _, ⟨divNearestEven_nearestEven _ (Nat.mul_pos hd (pow2_pos _)), by omega, ?_, fun hne => ?_⟩, hunits, ?_⟩
  · rw [← mul_lt_mul_iff_of_pos_right (two_zpow_pos q), hunits, ← zpow_natCast, ← zpow_add₀ (by norm_num)]
    calc (n : ℚ) / d * 2 ^ e < 2 ^ (ratioLog2 n d + 1) * 2 ^ e := by gcongr
      _ = 2 ^ (ratioLog2 n d + 1 + e) := by rw [← zpow_add₀ (by norm_num)]
      _ ≤ 2 ^ ((prec : Int) + q) := zpow_le_zpow_right₀ (by norm_num) (by omega)
  · rw [← mul_le_mul_iff_of_pos_right (two_zpow_pos q), hunits, ← zpow_natCast, ← zpow_add₀ (by norm_num)]
    calc (2 : ℚ) ^ (((prec - 1 : Nat) : Int) + q) = 2 ^ (ratioLog2 n d + e) := by congr 1; omega
      _ = 2 ^ ratioLog2 n d * 2 ^ e := by rw [← zpow_add₀ (by norm_num)]
      _ ≤ (n : ℚ) / d * 2 ^ e := by gcongr
  · rw [roundTo, if_neg hn.ne', roundedDatum, hq]

namespace RoundsTo

variable {prec : Nat} {qmin q : Int} {x : ℚ} {m : Nat}

theorem mantissa_le_top (h : RoundsTo prec qmin x q m) : m ≤ 2 ^ prec := by
  by_contra hlt
  have hm : (2 : ℚ) ^ prec + 1 ≤ m := by exact_mod_cast not_le.1 hlt
  linarith [(abs_le.1 h.nearest.1).2, h.lt_top]

/-- Any value of the format, counted in units of `2^q`, is the mantissa itself or at least half a unit away from `x`: where its unit is
no smaller it is an integer, and where it is smaller it is below `2^(prec - 1)` by half a unit or more. -/
theorem eq_or_half_le (h : RoundsTo prec qmin x q m) (hp : 0 < prec) {m' : Nat} {q' : Int} (hm' : m' < 2 ^ prec)
    (hq' : qmin ≤ q') : (m' : ℚ) * 2 ^ (q' - q) = m ∨ 1 / 2 ≤ |(m' : ℚ) * 2 ^ (q' - q) - x| := by
  rcases le_or_gt q q' with hle | hlt
  · have hint : (m' : ℚ) * 2 ^ (q' - q) = (m' * pow2 (q' - q) : Nat) := by
      rw [Nat.cast_mul, pow2_cast (by omega)]
    rw [hint, or_iff_not_imp_left]
    exact h.nearest.half_le
  · right
    have htop : (2 : ℚ) ^ (prec - 1) ≤ x := h.top_le (by omega)
    have hpow : (2 : ℚ) ^ (q' - q) ≤ 1 / 2 := by
      calc (2 : ℚ) ^ (q' - q) ≤ 2 ^ (-1 : Int) := zpow_le_zpow_right₀ (by norm_num) (by omega)
        _ = 1 / 2 := by norm_num
    have hm'1 : (m' : ℚ) + 1 ≤ 2 ^ (prec - 1) * 2 := by
      rw [← pow_succ, Nat.sub_add_cancel hp]; exact_mod_cast hm'
    have hhalf : (m' : ℚ) * 2 ^ (q' - q) ≤ m' * (1 / 2) := by gcongr
    rw [abs_sub_comm, le_abs]
    left
    linarith

/-- No value of the format is nearer than the rounded one, and where another is as near the mantissa is even. -/
theorem value_nearest (h : RoundsTo prec qmin x q m) (hp : 0 < prec) {m' : Nat} {q' : Int} (hm' : m' < 2 ^ prec)
    (hq' : qmin ≤ q') :
    |(m : ℚ) * 2 ^ q - x * 2 ^ q| ≤ |(m' : ℚ) * 2 ^ q' - x * 2 ^ q| ∧
    (|(m : ℚ) * 2 ^ q - x * 2 ^ q| = |(m' : ℚ) * 2 ^ q' - x * 2 ^ q| → (m : ℚ) * 2 ^ q ≠ (m' : ℚ) * 2 ^ q' → m % 2 = 0) := by
  have hpos := two_zpow_pos q
  have hsplit : (2 : ℚ) ^ q' = 2 ^ (q' - q) * 2 ^ q := by rw [← zpow_add₀ (by norm_num)]; congr 1; omega
  rw [hsplit, ← mul_assoc, ← sub_mul, ← sub_mul, abs_mul, abs_mul, abs_of_pos hpos, mul_le_mul_iff_of_pos_right hpos,
    mul_left_inj' hpos.ne', Ne, mul_left_inj' hpos.ne']
  obtain ⟨hnear, heven⟩ := h.nearest
  rcases h.eq_or_half_le hp hm' hq' with heq | hfar
  · rw [heq]
    exact ⟨le_rfl, fun _ hne => absurd rfl hne⟩
  · exact ⟨hnear.trans hfar, fun heq _ => heven (le_antisymm hnear (heq ▸ hfar))⟩

/-- The mantissa is rounded up to `2^prec` from the midpoint below it on, as the integer below it is odd. -/
theorem mantissa_eq_top_iff (h : RoundsTo prec qmin x q m) (hp : 0 < prec) : m = 2 ^ prec ↔ (2 : ℚ) ^ prec - 1 / 2 ≤ x := by
  obtain ⟨hnear, heven⟩ := h.nearest
  constructor
  · rintro rfl
    have := (abs_le.1 hnear).2
    push_cast at this
    linarith
  · intro hx
    by_contra hne
    have hlt : m + 1 ≤ 2 ^ prec := lt_of_le_of_ne h.mantissa_le_top hne
    have hltq : (m : ℚ) + 1 ≤ 2 ^ prec := by exact_mod_cast hlt
    have hlow := (abs_le.1 hnear).1
    have hmq : (m : ℚ) + 1 = 2 ^ prec := by linarith
    have hm : m + 1 = 2 ^ prec := by exact_mod_cast hmq
    have hm0 : m % 2 = 0 := heven (by rw [abs_of_nonpos (by linarith)]; linarith)
    obtain ⟨k, rfl⟩ : ∃ k, prec = k + 1 := ⟨prec - 1, by omega⟩
    rw [pow_succ] at hm
    omega

/-- The rounded value has a unit above `2^qmax` exactly from the midpoint above the largest value on. -/
theorem overflow_iff (h : RoundsTo prec qmin x q m) (hp : 0 < prec) {qmax : Int} (hq : qmin ≤ qmax) :
    (qmax < q ∨ q = qmax ∧ m = 2 ^ prec) ↔ ((2 : ℚ) ^ (prec + 1) - 1) * 2 ^ (qmax - 1) ≤ x * 2 ^ q := by
  have hbound : ((2 : ℚ) ^ (prec + 1) - 1) * 2 ^ (qmax - 1) = (2 ^ prec - 1 / 2) * 2 ^ qmax := by
    rw [zpow_sub_one₀ (by norm_num), pow_succ]; ring
  have hone : (1 : ℚ) ≤ 2 ^ prec := one_le_pow₀ (by norm_num)
  rw [hbound]
  rcases lt_trichotomy q qmax with hlt | rfl | hgt
  · refine iff_of_false (by omega) (not_le.2 ?_)
    calc x * 2 ^ q < 2 ^ prec * 2 ^ q := by have := h.lt_top; have := two_zpow_pos q; gcongr
      _ ≤ 2 ^ prec * 2 ^ (qmax - 1) := by gcongr <;> [norm_num; omega]
      _ = 2 ^ prec / 2 * 2 ^ qmax := by rw [zpow_sub_one₀ (by norm_num)]; ring
      _ ≤ (2 ^ prec - 1 / 2) * 2 ^ qmax := by gcongr; linarith
  · rw [mul_le_mul_iff_of_pos_right (two_zpow_pos q), ← h.mantissa_eq_top_iff hp]
    simp
  · refine iff_of_true (.inl hgt) ?_
    have htop : (2 : ℚ) ^ (prec - 1) ≤ x := h.top_le (by omega)
    calc ((2 : ℚ) ^ prec - 1 / 2) * 2 ^ qmax ≤ 2 ^ prec * 2 ^ qmax := by gcongr; linarith
      _ = 2 ^ (prec - 1) * 2 ^ (qmax + 1) := by
        rw [zpow_add_one₀ (by norm_num), ← Nat.sub_add_cancel hp, pow_succ, Nat.add_sub_cancel]; ring
      _ ≤ x * 2 ^ q :=
        mul_le_mul htop (zpow_le_zpow_right₀ (by norm_num) (by omega)) (two_zpow_pos _).le
          (htop.trans' (by positivity))

/-- The mantissa is 0 with the smallest unit only. -/
theorem unit_eq_of_mantissa_zero (h : RoundsTo prec qmin x q 0) : q = qmin := by
  by_contra hne
  have htop := h.top_le hne
  have hone : (1 : ℚ) ≤ 2 ^ (prec - 1) := one_le_pow₀ (by norm_num)
  have := (abs_le.1 h.nearest.1).1
  push_cast at this
  linarith

/-- The datum of a rounded value is an infinity on overflow, and otherwise one of the format with that value, its mantissa even where the
rounded one is. -/
theorem roundedDatum_cases (h : RoundsTo prec qmin x q m) (hp : 2 ≤ prec) {qmax : Int} (hq : qmin ≤ qmax) (neg : Bool) :
    ((qmax < q ∨ q = qmax ∧ m = 2 ^ prec) ∧ roundedDatum prec qmin qmax neg q m = .inf neg) ∨
    (¬ (qmax < q ∨ q = qmax ∧ m = 2 ^ prec) ∧ ∃ m' q', roundedDatum prec qmin qmax neg q m = .fin neg m' q' ∧
      m' < 2 ^ prec ∧ qmin ≤ q' ∧ q' ≤ qmax ∧ (m' : ℚ) * 2 ^ q' = m * 2 ^ q ∧ (m % 2 = 0 → m' % 2 = 0)) := by
  have hunit := h.unit_le
  rw [roundedDatum]
  split
  · rename_i hm
    subst hm
    have hpos : 0 < 2 ^ prec := by positivity
    have := h.unit_eq_of_mantissa_zero
    exact .inr ⟨by omega, 0, qmin, rfl, by omega, le_rfl, hq, by simp, fun _ => rfl⟩
  · split
    · rename_i htop
      split
      · exact .inl ⟨by omega, rfl⟩
      · obtain ⟨k, rfl⟩ : ∃ k, prec = k + 2 := ⟨prec - 2, by omega⟩
        refine .inr ⟨by omega, _, _, rfl, Nat.pow_lt_pow_right (by norm_num) (by omega), by omega, by omega, ?_, fun _ => ?_⟩
        · rw [htop, zpow_add_one₀ (by norm_num)]
          push_cast
          ring
        · rw [show k + 2 - 1 = k + 1 by omega, pow_succ, Nat.mul_mod_left]
    · rename_i htop
      split
      · exact .inl ⟨by omega, rfl⟩
      · exact .inr ⟨by omega, m, q, rfl, lt_of_le_of_ne h.mantissa_le_top htop, hunit, by omega, rfl, id⟩

end RoundsTo

/-- Zero is rounded to itself, which is nearest and even. -/
theorem roundTo_zero (prec : Nat) (qmin qmax : Int) (neg : Bool) (d : Nat) (e : Int) :
    roundTo prec qmin qmax neg 0 d e = .fin neg 0 qmin := by
  rw [roundTo, if_pos rfl]

/-- Settles O58: zero is exact; a positive value is rounded in the unit of its size, and the datum of the rounded value keeps its value
unless it overflows. -/
theorem roundingIsNearestEven : Obligations.RoundingIsNearestEven := by
  intro prec qmin qmax neg n d e hp hq hd exact
  have hp0 : 0 < prec := by omega
  rcases Nat.eq_zero_or_pos n with rfl | hn
  · have hexact : exact = 0 := by simp [exact]
    have hbound : 0 < ((2 : ℚ) ^ (prec + 1) - 1) * 2 ^ (qmax - 1) :=
      mul_pos (sub_pos.2 (one_lt_pow₀ (by norm_num) (by omega))) (two_zpow_pos _)
    rw [roundTo_zero, hexact]
    refine ⟨iff_of_false (by simp) (not_le.2 hbound), fun _ => ⟨0, qmin, rfl, by positivity, le_rfl, hq, fun m' q' _ _ => ⟨?_, fun _ _ => rfl⟩⟩⟩
    rw [Nat.cast_zero, zero_mul, sub_zero, abs_zero]
    exact abs_nonneg _
  · obtain ⟨x, q, m, h, hexact, hround⟩ := roundTo_eq_roundedDatum qmin qmax neg e hp0 hn hd
    have hover := h.overflow_iff hp0 hq
    have hnear := fun m' q' => h.value_nearest hp0 (m' := m') (q' := q')
    rw [show x * 2 ^ q = exact from hexact] at hover
    rw [show x * 2 ^ q = exact from hexact] at hnear
    rw [hround, ← hover]
    rcases h.roundedDatum_cases hp hq neg with ⟨hinf, hdat⟩ | ⟨hfin, m₀, q₀, hdat, hlt, hlo, hhi, hval, heven⟩
    · rw [hdat]
      exact ⟨iff_of_true rfl hinf, fun hne => absurd rfl hne⟩
    · rw [hdat]
      refine ⟨iff_of_false (by simp) hfin, fun _ => ⟨m₀, q₀, rfl, hlt, hlo, hhi, fun m' q' hm' hq' => ?_⟩⟩
      obtain ⟨hle, htie⟩ := hnear m' q' hm' hq'
      rw [hval]
      exact ⟨hle, fun heq hne => heven (htie heq hne)⟩

end Sys2Proof.Machine
end

section
/-! PROOFS. The four operations: the exact rational result is what they round, and the sign and special cases are IEEE 754's. -/

namespace Sys2Proof.Machine

/-- The magnitude of a finite datum is its mantissa in its unit. -/
theorem abs_value {neg : Bool} {m : Nat} {e : Int} : |value (.fin neg m e)| = (m : ℚ) * 2 ^ e := by
  have hz : |(2 : ℚ) ^ e| = 2 ^ e := abs_of_pos (two_zpow_pos e)
  cases neg <;> simp [value, signedInt, abs_mul, hz]

theorem value_fneg (b : F64) : value (fneg b) = -value b := by
  cases b with
  | nan => simp [fneg, value]
  | inf => simp [fneg, value]
  | fin neg m e => cases neg <;> simp [fneg, value, signedInt]

theorem isNeg_fneg {b : F64} (h : isNaN b = false) : isNeg (fneg b) = !isNeg b := by
  cases b with
  | nan => cases h
  | inf => rfl
  | fin => rfl

/-- A product of finite data is rounded once (R9). -/
theorem fmul_fin_eq_roundTo (na nb : Bool) (ma mb : Nat) (ea eb : Int) :
    ∃ (n d : Nat) (e : Int), 0 < d ∧ (n : ℚ) / d * 2 ^ e = |value (.fin na ma ea) * value (.fin nb mb eb)| ∧
      fmul (.fin na ma ea) (.fin nb mb eb) = roundTo 53 (-1074) 971 (na != nb) n d e := by
  refine ⟨ma * mb, 1, ea + eb, one_pos, ?_, rfl⟩
  rw [abs_mul, abs_value, abs_value, zpow_add₀ (by norm_num)]
  push_cast
  ring

/-- The exact sum of two finite data, counted in the smaller of their units. -/
def sumUnits (na : Bool) (ma : Nat) (ea : Int) (nb : Bool) (mb : Nat) (eb : Int) : Int :=
  inUnits na ma ea (min ea eb) + inUnits nb mb eb (min ea eb)

theorem sumUnits_value (na nb : Bool) (ma mb : Nat) (ea eb : Int) :
    (sumUnits na ma ea nb mb eb : ℚ) * 2 ^ min ea eb = value (.fin na ma ea) + value (.fin nb mb eb) := by
  rw [sumUnits, Int.cast_add, add_mul, inUnits_value (min_le_left ea eb), inUnits_value (min_le_right ea eb)]

theorem fadd_fin (na nb : Bool) (ma mb : Nat) (ea eb : Int) :
    fadd (.fin na ma ea) (.fin nb mb eb) = if sumUnits na ma ea nb mb eb = 0 then .fin (na && nb) 0 (-1074)
      else round64 (decide (sumUnits na ma ea nb mb eb < 0)) (sumUnits na ma ea nb mb eb).natAbs 1 (min ea eb) := rfl

/-- A sum of zero is `+0` unless both operands are negative (log entry 11). -/
theorem fadd_fin_of_zero {na nb : Bool} {ma mb : Nat} {ea eb : Int}
    (h : value (.fin na ma ea) + value (.fin nb mb eb) = 0) :
    fadd (.fin na ma ea) (.fin nb mb eb) = .fin (na && nb) 0 (-1074) := by
  rw [← sumUnits_value, mul_eq_zero, or_iff_left (two_zpow_pos _).ne', Int.cast_eq_zero] at h
  rw [fadd_fin, if_pos h]

/-- A sum of finite data that is not zero is rounded once, with its own sign (R9). -/
theorem fadd_fin_eq_roundTo {na nb : Bool} {ma mb : Nat} {ea eb : Int}
    (h : value (.fin na ma ea) + value (.fin nb mb eb) ≠ 0) :
    ∃ (n d : Nat) (e : Int), 0 < d ∧ (n : ℚ) / d * 2 ^ e = |value (.fin na ma ea) + value (.fin nb mb eb)| ∧
      fadd (.fin na ma ea) (.fin nb mb eb) =
        roundTo 53 (-1074) 971 (decide (value (.fin na ma ea) + value (.fin nb mb eb) < 0)) n d e := by
  have hpos := two_zpow_pos (min ea eb)
  rw [← sumUnits_value] at h ⊢
  rw [fadd_fin]
  generalize sumUnits na ma ea nb mb eb = sum at h ⊢
  have hne : sum ≠ 0 := by
    rintro rfl
    simp at h
  have hsign : sum < 0 ↔ (sum : ℚ) * 2 ^ min ea eb < 0 := by
    rw [← not_le, ← not_le, mul_nonneg_iff_of_pos_right hpos, Int.cast_nonneg_iff]
  refine ⟨sum.natAbs, 1, min ea eb, one_pos, ?_, ?_⟩
  · rw [abs_mul, abs_of_pos hpos, Nat.cast_one, div_one, Nat.cast_natAbs, Int.cast_abs]
  · rw [if_neg hne, round64, decide_eq_decide.2 hsign]

/-- A quotient of finite data is rounded once (R9). -/
theorem fdiv_fin_eq_roundTo {na nb : Bool} {ma mb : Nat} {ea eb : Int} (h : value (.fin nb mb eb) ≠ 0) :
    ∃ (n d : Nat) (e : Int), 0 < d ∧ (n : ℚ) / d * 2 ^ e = |value (.fin na ma ea) / value (.fin nb mb eb)| ∧
      fdiv (.fin na ma ea) (.fin nb mb eb) = roundTo 53 (-1074) 971 (na != nb) n d e := by
  have hm : mb ≠ 0 := fun h0 => h (value_eq_zero_iff.2 h0)
  refine ⟨ma, mb, ea - eb, Nat.pos_of_ne_zero hm, ?_, by rw [fdiv, if_neg hm, round64]⟩
  rw [abs_div, abs_value, abs_value, zpow_sub₀ (by norm_num), mul_div_mul_comm]

/-- A quotient by a zero is an infinity, or a NaN for `0/0` (R9). -/
theorem fdiv_fin_of_zero {na nb : Bool} {ma mb : Nat} {ea eb : Int} (h : value (.fin nb mb eb) = 0) :
    fdiv (.fin na ma ea) (.fin nb mb eb) = if value (.fin na ma ea) = 0 then .nan else .inf (na != nb) := by
  rw [fdiv, if_pos (value_eq_zero_iff.1 h)]
  simp only [value_eq_zero_iff]

/-- The five facts of two finite operands. -/
theorem arithmetic_of_finite {a b : F64} (ha : isFinite a = true) (hb : isFinite b = true) :
    (∃ (n d : Nat) (e : Int), 0 < d ∧ ((n : ℚ) / d * 2 ^ e = |value a * value b|) ∧
      fmul a b = roundTo 53 (-1074) 971 (isNeg a != isNeg b) n d e) ∧
    (value a + value b ≠ 0 → ∃ (n d : Nat) (e : Int), 0 < d ∧ ((n : ℚ) / d * 2 ^ e = |value a + value b|) ∧
      fadd a b = roundTo 53 (-1074) 971 (decide (value a + value b < 0)) n d e) ∧
    (value a + value b = 0 → fadd a b = .fin (isNeg a && isNeg b) 0 (-1074)) ∧
    (value b ≠ 0 → ∃ (n d : Nat) (e : Int), 0 < d ∧ ((n : ℚ) / d * 2 ^ e = |value a / value b|) ∧
      fdiv a b = roundTo 53 (-1074) 971 (isNeg a != isNeg b) n d e) ∧
    (value b = 0 → fdiv a b = if value a = 0 then .nan else .inf (isNeg a != isNeg b)) := by
  obtain ⟨na, ma, ea, rfl⟩ := exists_fin_of_isFinite ha
  obtain ⟨nb, mb, eb, rfl⟩ := exists_fin_of_isFinite hb
  exact ⟨fmul_fin_eq_roundTo _ _ _ _ _ _, fadd_fin_eq_roundTo, fadd_fin_of_zero, fdiv_fin_eq_roundTo, fdiv_fin_of_zero⟩

/-- A NaN operand makes every operation a NaN. -/
theorem arithmetic_nan (x : F64) :
    (fadd x .nan = .nan ∧ fsub x .nan = .nan ∧ fmul x .nan = .nan ∧ fdiv x .nan = .nan) ∧
      (fadd .nan x = .nan ∧ fsub .nan x = .nan ∧ fmul .nan x = .nan ∧ fdiv .nan x = .nan) := by
  cases x <;> exact ⟨⟨rfl, rfl, rfl, rfl⟩, rfl, rfl, rfl, rfl⟩

/-- Two infinities: a sum of opposite ones and a quotient are invalid operations. -/
theorem arithmetic_inf_inf (n m : Bool) :
    fadd (.inf n) (.inf m) = (if n = m then .inf n else .nan) ∧
    fsub (.inf n) (.inf m) = (if n = m then .nan else .inf n) ∧
    fmul (.inf n) (.inf m) = .inf (n != m) ∧ fdiv (.inf n) (.inf m) = .nan := by
  refine ⟨rfl, ?_, rfl, rfl⟩
  cases n <;> cases m <;> rfl

/-- An infinity and a finite operand: only the product with a zero is an invalid operation. -/
theorem arithmetic_inf_finite (n : Bool) {b : F64} (h : isFinite b = true) :
    (fadd (.inf n) b = .inf n ∧ fadd b (.inf n) = .inf n ∧ fsub (.inf n) b = .inf n ∧ fsub b (.inf n) = .inf (!n)) ∧
    (value b = 0 → fmul (.inf n) b = .nan ∧ fmul b (.inf n) = .nan) ∧
    (value b ≠ 0 → fmul (.inf n) b = .inf (n != isNeg b) ∧ fmul b (.inf n) = .inf (n != isNeg b)) ∧
    fdiv (.inf n) b = .inf (n != isNeg b) ∧ fdiv b (.inf n) = .fin (n != isNeg b) 0 (-1074) := by
  obtain ⟨nb, m, e, rfl⟩ := exists_fin_of_isFinite h
  have hsign : (nb != n) = (n != nb) := bne_comm
  simp only [fmul, fdiv, isNeg, hsign, value_eq_zero_iff, ne_eq]
  exact ⟨⟨rfl, rfl, rfl, rfl⟩, fun hm => by simp only [hm, if_true, and_self],
    fun hm => by simp only [hm, if_false, and_self], trivial, trivial⟩

/-- Settles O59, by the kinds of the operands. -/
theorem arithmeticRoundsTheExactResult : Obligations.ArithmeticRoundsTheExactResult :=
  ⟨fun _ _ ha hb => arithmetic_of_finite ha hb, fun _ b => ⟨rfl, value_fneg b, isNeg_fneg⟩, arithmetic_nan, arithmetic_inf_inf,
    fun n _ hb => arithmetic_inf_finite n hb⟩

end Sys2Proof.Machine
end

section
/-! PROOFS. Rounding to an integer: `u2f`, `ffloor` and `frne` give data that are equal to the integer they stand for. -/

namespace Sys2Proof.Machine

/-- The datum `y` is finite, has the sign `neg`, and is equal to the integer `i`, which `f2int` gives back. -/
structure IsInteger (y : F64) (neg : Bool) (i : Int) : Prop where
  isFinite : isFinite y = true
  isNeg : isNeg y = neg
  value : value y = i
  f2int : ∀ p, f2int p y = i

/-- A datum whose unit is at least 1 is an integer. -/
theorem isInteger_fin (neg : Bool) (m : Nat) {e : Int} (h : 0 ≤ e) :
    IsInteger (.fin neg m e) neg (signedInt neg (m * pow2 e)) := by
  refine ⟨rfl, rfl, ?_, fun p => by rw [f2int, if_pos h]⟩
  cases neg <;> simp [value, signedInt, pow2_cast h]

/-- An integer of at most 53 bits is rounded to a datum equal to it. -/
theorem isInteger_round64 (neg : Bool) {n : Nat} (h : n < 2 ^ 53) : IsInteger (round64 neg n 1 0) neg (signedInt neg n) := by
  obtain ⟨m, e, heq, hval, -⟩ := value_round64_nat neg h
  exact ⟨by rw [heq]; rfl, by rw [heq]; rfl, by rw [heq, hval], fun p => f2int_round64_nat p neg h⟩

/-- Below the unit 1 a datum is its mantissa over a power of two, which is at least 2. -/
theorem value_fin_of_neg_exp (neg : Bool) (m : Nat) {e : Int} (h : e < 0) :
    value (.fin neg m e) = if neg then -((m : ℚ) / pow2 (-e)) else (m : ℚ) / pow2 (-e) := by
  have hz : (2 : ℚ) ^ e = (pow2 (-e) : ℚ)⁻¹ := by rw [pow2_cast (by omega), zpow_neg, inv_inv]
  cases neg <;> simp [value, signedInt, hz, div_eq_mul_inv]

theorem two_le_pow2 {k : Int} (h : 0 < k) : 2 ≤ pow2 k :=
  Nat.le_self_pow (by omega) 2

/-- The largest integer not above a fraction with the sign `neg`, as `ffloor` counts it: away from zero below it. -/
theorem floor_signed_div (neg : Bool) (m d : Nat) (hd : 0 < d) :
    ⌊if neg then -((m : ℚ) / d) else (m : ℚ) / d⌋ =
      signedInt neg (if neg = true ∧ m % d ≠ 0 then m / d + 1 else m / d) := by
  cases neg
  · simp [signedInt, Rat.floor_natCast_div_natCast]
  · have hq : -((m : ℚ) / d) = ((-m : Int) : ℚ) / d := by push_cast; ring
    rw [if_pos rfl, hq, Rat.floor_intCast_div_natCast, Int.neg_ediv, Int.sign_eq_one_of_pos (by omega), signedInt, if_pos rfl]
    by_cases h : m % d = 0
    · rw [if_pos (by exact_mod_cast Nat.dvd_of_mod_eq_zero h), if_neg (by simp [h])]
      push_cast; ring
    · rw [if_neg (by exact_mod_cast mt Nat.mod_eq_zero_of_dvd h), if_pos ⟨rfl, h⟩]
      push_cast; ring

/-- `ffloor` of a datum of binary64 is the largest integer not above it, with the sign of the operand. -/
theorem ffloor_isInteger {x : F64} (h : canonical x) (hx : isFinite x = true) :
    IsInteger (ffloor x) (isNeg x) ⌊value x⌋ := by
  obtain ⟨neg, m, e, rfl⟩ := exists_fin_of_isFinite hx
  obtain ⟨hm, -⟩ := h
  rcases le_or_gt 0 e with he | he
  · have hint := isInteger_fin neg m he
    rw [ffloor, if_pos he, hint.value, Int.floor_intCast]
    exact hint
  · have hd := two_le_pow2 (k := -e) (by omega)
    have hlt : m / pow2 (-e) + 1 < 2 ^ 53 := by
      have : m / pow2 (-e) ≤ m / 2 := Nat.div_le_div_left hd (by norm_num)
      omega
    rw [ffloor, if_neg (by omega), value_fin_of_neg_exp neg m he, floor_signed_div neg m _ (pow2_pos _)]
    exact isInteger_round64 neg (by split <;> omega)

/-- `frne` of a datum of binary64 is the nearest integer, the even one at a tie, with the sign of the operand. -/
theorem frne_isInteger {x : F64} (h : canonical x) (hx : isFinite x = true) :
    ∃ i : Int, IsInteger (frne x) (isNeg x) i ∧ |value x - i| ≤ 1 / 2 ∧ (|value x - i| = 1 / 2 → i % 2 = 0) := by
  obtain ⟨neg, m, e, rfl⟩ := exists_fin_of_isFinite hx
  obtain ⟨hm, -⟩ := h
  rcases le_or_gt 0 e with he | he
  · have hint := isInteger_fin neg m he
    rw [frne, if_pos he]
    exact ⟨_, hint, by rw [hint.value]; norm_num, by rw [hint.value]; norm_num⟩
  · have hd := pow2_pos (-e)
    obtain ⟨hnear, heven⟩ := divNearestEven_nearestEven m hd
    have hle : divNearestEven m (pow2 (-e)) ≤ m := divNearestEven_le hd (Nat.le_mul_of_pos_right m hd)
    have habs : |value (.fin neg m e) - signedInt neg (divNearestEven m (pow2 (-e)))| =
        |(divNearestEven m (pow2 (-e)) : ℚ) - (m : ℚ) / pow2 (-e)| := by
      rw [value_fin_of_neg_exp neg m he]
      cases neg
      · simp [signedInt, abs_sub_comm]
      · simp only [signedInt, if_true]; push_cast; congr 1; ring
    rw [frne, if_neg (by omega)]
    refine ⟨_, isInteger_round64 neg (by omega), habs.trans_le hnear, fun htie => ?_⟩
    have hpar := heven (habs.symm.trans htie)
    cases neg <;> simp only [signedInt, Bool.false_eq_true, if_true, if_false] <;> omega

/-- Settles O60: `ffloor` and `frne` of the datum of a pattern, which is canonical, are the integers of `ffloor_isInteger` and
`frne_isInteger`. -/
theorem integralRounding : Obligations.IntegralRounding := by
  refine ⟨fun n hn => ?_, fun p u hu => ?_⟩
  · obtain ⟨m, e, heq, hval⟩ := value_u2f hn
    rw [heq]
    exact ⟨rfl, rfl, hval⟩
  · have hfloor := ffloor_isInteger (asF64_canonical u) hu
    obtain ⟨i, hrne, hnear, heven⟩ := frne_isInteger (asF64_canonical u) hu
    rw [hrne.f2int p]
    exact ⟨hfloor.isFinite, hfloor.value, hfloor.f2int p, hrne.isFinite, hrne.value, hnear, heven, hfloor.isNeg, hrne.isNeg⟩

end Sys2Proof.Machine
end

section
/-! PROOFS. What `GEN` and `ENC` can do as whole commands: what a configuration that passes `VALIDATE` bounds, which cells the frames of
`GEN` write, and how many bytes the samples of `ENC` append. -/

namespace Sys2Proof.Machine

/-- The input contract that `VALIDATE` tests (60_exceptions.md R172, R173). -/
structure InputContract (p : Params) (s : State) : Prop where
  duration : isFinite (asF64 s.duration) = true ∧ fgt (asF64 s.duration) posZero = true
  sampleRate : isFinite (asF64 s.sampleRate) = true ∧ fgt (asF64 s.sampleRate) posZero = true
  delay : isFinite (asF64 s.delay) = true ∧ fge (asF64 s.delay) posZero = true
  volume : fge (asF64 s.volume) posZero = true ∧ fle (asF64 s.volume) one = true
  logFrequencies : sweepLog s = true → ∀ f ∈ frequencies s, fgt f posZero = true
  frequencies : ∀ f ∈ frequencies s, isFinite f = true ∧ fgt f posZero = true
  distinct : feq (asF64 s.f0l) (asF64 s.f1l) = false ∧ feq (asF64 s.f0r) (asF64 s.f1r) = false
  length : fge (fmul (asF64 s.sampleRate) (asF64 s.duration)) (u2f ((sbDepth p : Int) + 1)) = false

theorem inputContract_of_failedClause_eq_none {p : Params} {s : State} (h : failedClause p s = none) : InputContract p s := by
  simp only [failedClause, ite_eq_iff, reduceCtorEq, and_false, false_or, and_true] at h
  obtain ⟨h1, h2, h3, h4, h5, h6, h7, h8⟩ := h
  exact ⟨by simpa using h1, by simpa using h2, by simpa using h3, by simpa using h4, by simpa using h5, by simpa using h6,
    by simpa using h7, by simpa using h8⟩

/-- Every clause that fails raises what the block records (R171, R173). -/
theorem recordable_of_failedClause {p : Params} {s : State} {cause : Cause} {sub : BitVec 8}
    (h : failedClause p s = some (cause, sub)) : recordable cause sub .left 0 := by
  simp only [failedClause] at h
  split_ifs at h <;> cases h <;> simp [recordable]

/-- Rounding keeps the sign and gives no NaN. -/
theorem isNeg_roundTo (prec : Nat) (qmin qmax : Int) (neg : Bool) (n d : Nat) (e : Int) :
    isNeg (roundTo prec qmin qmax neg n d e) = neg ∧ isNaN (roundTo prec qmin qmax neg n d e) = false := by
  simp only [roundTo]
  split_ifs <;> exact ⟨rfl, rfl⟩

theorem isNeg_of_fgt_posZero {x : F64} (h : fgt x posZero = true) : isNeg x = false := by
  cases x with
  | nan => rfl
  | inf neg => cases neg <;> simp_all [fgt, flt, posZero, isNeg]
  | fin neg m e =>
    cases neg with
    | false => rfl
    | true =>
      rw [fgt, posZero, flt_fin] at h
      have : (0 : ℚ) ≤ m * 2 ^ e := by positivity
      simp [value, signedInt] at h
      linarith

/-- A datum that is no NaN, not negative and not above a finite one is finite. -/
theorem finite_of_not_fge {x y : F64} (hnan : isNaN x = false) (hneg : isNeg x = false) (hy : isFinite y = true)
    (h : fge x y = false) : isFinite x = true ∧ value x < value y := by
  have hfinite : isFinite x = true := by
    cases x with
    | nan => simp [isNaN] at hnan
    | inf neg =>
      obtain rfl : neg = false := hneg
      have : fle y (.inf false) = true :=
        fle_iff.2 ⟨isNaN_of_isFinite hy, rfl, (extendedValue_lt_top hy).le⟩
      rw [fge, this] at h
      contradiction
    | fin neg m e => rfl
  refine ⟨hfinite, not_le.1 fun hle => ?_⟩
  rw [fge, (fle_iff_value hy hfinite).2 hle] at h
  contradiction

/-- The product `SAMPLE_RATE * DURATION` of a configuration that passes `VALIDATE` is a finite number of frames that `SB` has room for. -/
theorem InputContract.product_lt {p : Params} {s : State} (h : InputContract p s) :
    isFinite (fmul (asF64 s.sampleRate) (asF64 s.duration)) = true ∧
    value (fmul (asF64 s.sampleRate) (asF64 s.duration)) < (sbDepth p : ℚ) + 1 := by
  have hdepth := (sbDepth_bounds p).2
  obtain ⟨m, e, hu, hval⟩ := value_u2f (n := sbDepth p + 1) (by omega)
  obtain ⟨n, d, k, -, -, hmul⟩ := (arithmetic_of_finite h.sampleRate.1 h.duration.1).1
  obtain ⟨hneg, hnan⟩ := isNeg_roundTo 53 (-1074) 971 (isNeg (asF64 s.sampleRate) != isNeg (asF64 s.duration)) n d k
  rw [← hmul] at hneg hnan
  rw [isNeg_of_fgt_posZero h.sampleRate.2, isNeg_of_fgt_posZero h.duration.2] at hneg
  have hlength := h.length
  push_cast at hu hval
  rw [hu] at hlength
  have := finite_of_not_fge hnan hneg rfl hlength
  rwa [hval] at this

/-- `N` is the number of whole frames in the product (41_synth_nco.md R110). -/
theorem InputContract.countN_eq {p : Params} {s : State} (h : InputContract p s) :
    countN p s = ⌊value (fmul (asF64 s.sampleRate) (asF64 s.duration))⌋ :=
  (ffloor_isInteger (fmul_canonical _ _) h.product_lt.1).f2int p

theorem InputContract.countN_le {p : Params} {s : State} (h : InputContract p s) : countN p s ≤ sbDepth p := by
  rw [h.countN_eq, ← Int.lt_add_one_iff, Int.floor_lt]
  exact_mod_cast h.product_lt.2

/-! ### The frames of `GEN` -/

/-- A memory in canonical form whose cells are all of frames below `d`. -/
def Memory.Fits (m : Memory) (d : Nat) : Prop := Memory.wf m ∧ ∀ c ∈ m, c.1 < 2 * d

theorem Memory.Fits.write {m : Memory} {d n : Nat} (h : Memory.Fits m d) (hn : n < d) (ch : Channel) (v : Word) :
    Memory.Fits (Memory.write m (cellAddress n ch) v) d := by
  refine ⟨wf_write h.1 _ _, fun c hc => ?_⟩
  rcases mem_write hc with rfl | hc
  · exact cellAddress_lt ch hn
  · exact h.2 c hc

/-- Frames of `GEN` change temporaries, cells and the count of draws, and keep `SB` within frames that it has. -/
theorem genFrames_spec (p : Params) {d : Nat} (k : Nat) (s : State) (hsb : Memory.Fits s.sb d) (hk : s.work.n + k ≤ d) :
    ∃ (w : Work) (j : Nat) (m : Memory), Memory.Fits m d ∧ genFrames p k s = { s with work := w, draws := j, sb := m } := by
  induction k generalizing s with
  | zero => exact ⟨s.work, s.draws, s.sb, hsb, rfl⟩
  | succ k ih =>
    obtain ⟨w, hn, -, -, -, -, -, -, hframe⟩ := genFrame_spec p s
    have hfits := (hsb.write (by omega : s.work.n < d) .left (storedPattern p s.draws w.vL)).write
      (by omega : s.work.n < d) .right (storedPattern p (s.draws + 1) w.vR)
    rw [genFrames, hframe]
    exact ih _ hfits (by simp only [nextFrame_work, hn]; omega)

/-- An operation that sets temporaries only, as all of the derivations of `GEN` do, and keeps the number of frames. -/
def KeepsN (f : State → State) : Prop := ∀ s, ∃ w : Work, w.bigN = s.work.bigN ∧ f s = { s with work := w }

theorem KeepsN.comp {f g : State → State} (hf : KeepsN f) (hg : KeepsN g) : KeepsN (fun s => g (f s)) := by
  intro s
  obtain ⟨w, hw, hfs⟩ := hf s
  obtain ⟨w', hw', hgs⟩ := hg { s with work := w }
  exact ⟨w', hw'.trans hw, by simp only [hfs, hgs]⟩

theorem deriveDt_keepsN (p : Params) : KeepsN (deriveDt p) := fun s => ⟨(deriveDt p s).work, rfl, rfl⟩
theorem deriveD_keepsN (p : Params) : KeepsN (deriveD p) := fun s => ⟨(deriveD p s).work, rfl, rfl⟩
theorem deriveF_keepsN (p : Params) : KeepsN (deriveF p) := fun s => ⟨(deriveF p s).work, rfl, rfl⟩
theorem deriveRate_keepsN (p : Params) : KeepsN (deriveRate p) := fun s =>
  ⟨(deriveRate p s).work, by rw [deriveRate]; split <;> rfl, deriveRate_only_work p s⟩

/-- The derivations of `GEN` set temporaries only, the number of frames among them. -/
theorem genDerive_spec (p : Params) (s : State) : ∃ w : Work, w.bigN = countN p s ∧ genDerive p s = { s with work := w } :=
  (((deriveDt_keepsN p).comp (deriveD_keepsN p)).comp (deriveF_keepsN p)).comp (deriveRate_keepsN p) (deriveN p s)

/-- A `GEN` whose configuration passes sets the three counts and writes cells of frames that `SB` has. -/
theorem gen_of_valid {p : Params} {s : State} (h : failedClause p s = none) (hsb : Memory.Fits s.sb (sbDepth p)) :
    ∃ (bigN bigD bigF : Int) (j : Nat) (m : Memory), Memory.Fits m (sbDepth p) ∧
      gen p s = { s with
        sblen := countWord bigN, dlen := countWord bigD, flen := countWord bigF, sb := m, draws := j, work := Work.idle } := by
  obtain ⟨w, hN, hderive⟩ := genDerive_spec p s
  have hle := (inputContract_of_failedClause_eq_none h).countN_le
  obtain ⟨w', j, m, hm, hframes⟩ := genFrames_spec p w.bigN.toNat (latchCounts { s with work := w }) hsb
    (by simp only [latchCounts_work]; omega)
  refine ⟨w.bigN, w.bigD, w.bigF, j, m, hm, ?_⟩
  have hbody : genBody p s = { latchCounts { s with work := w } with work := w', draws := j, sb := m } := by
    rw [genBody, hderive]
    exact hframes
  simp only [gen, validate, h, hbody]
  rfl

/-! ### The samples of `ENC` -/

theorem length_littleEndian (k : Nat) {w : Nat} (u : BitVec w) : (littleEndian k u).length = k := by
  simp [littleEndian]

/-- A sample takes the bytes of its depth (43_quantize_pack.md R149 to R151). -/
theorem length_sampleBytes (p : Params) (nan : BitVec 32) {b : Nat} (hb : legalDepth b = true) (x : F64) :
    (sampleBytes p nan b x).length = b / 8 := by
  have hb' : b = 16 ∨ b = 24 ∨ b = 32 := by simpa [legalDepth, or_assoc] using hb
  rcases hb' with rfl | rfl | rfl <;> simp [sampleBytes, length_littleEndian]

/-- How a piece of `ENC` that was to append `k` bytes to the output of `s` can end: it did and set temporaries, or it recorded one of the
faults of the block and emptied the output. -/
def EncEnds (s : State) (k : Nat) : Flow → Prop
  | .go t => ∃ (w : Work) (j : Nat) (bytes : List Byte), bytes.length = k ∧
      t = { s with work := w, draws := j, out := s.out ++ bytes }
  | .raised t => ∃ (cause : Cause) (sub : BitVec 8) (ch : Channel) (info : BitVec 32) (w : Work) (j : Nat),
      recordable cause sub ch info ∧ t = { raiseFault true cause sub ch info s with work := w, draws := j }

/-- Two pieces of `ENC` in sequence. -/
theorem EncEnds.bind {s : State} {j k : Nat} {f : Flow} {g : State → Flow} (hf : EncEnds s j f)
    (hg : ∀ t, f = .go t → EncEnds t k (g t)) : EncEnds s (j + k) (f.bind g) := by
  cases f with
  | raised t => exact hf
  | go t =>
    obtain ⟨w, d, bytes, hlen, rfl⟩ := hf
    have hgt := hg _ rfl
    rw [bind_go]
    cases hr : g { s with work := w, draws := d, out := s.out ++ bytes } with
    | go t =>
      rw [hr] at hgt
      obtain ⟨w', d', bytes', hlen', rfl⟩ := hgt
      exact ⟨w', d', bytes ++ bytes', by simp [hlen, hlen'], by simp⟩
    | raised t =>
      rw [hr] at hgt
      exact hgt

/-- The fault that a cell which cannot be encoded raises is one that the block records (60_exceptions.md R177, R178). -/
theorem cellFault_recordable (s : State) (n : Nat) (ch : Channel) :
    ∃ cause sub, recordable cause sub ch (BitVec.ofNat 32 n) ∧ cellFault s n ch = faultWord cause sub ch (BitVec.ofNat 32 n) := by
  rw [cellFault]
  split
  · exact ⟨.bufferFault, 2, .inr rfl, rfl⟩
  · exact ⟨.quantizeNaN, 0, rfl, rfl⟩

theorem encSample_ends (p : Params) {b : Nat} (hb : legalDepth b = true) (ch : Channel) (s : State) :
    EncEnds s (b / 8) (encSample p b ch s) := by
  rcases encSample_cases p hb ch s with ⟨-, w, h⟩ | ⟨-, v, -, w, k, -, h⟩
  · obtain ⟨cause, sub, hrec, hword⟩ := cellFault_recordable s s.work.n ch
    rw [h, hword]
    exact ⟨cause, sub, ch, _, w, s.draws, hrec, rfl⟩
  · rw [h]
    exact ⟨w, k, _, length_sampleBytes p _ hb _, rfl⟩

theorem encFrame_ends (p : Params) {b : Nat} (hb : legalDepth b = true) (s : State) :
    EncEnds s (b / 8 + b / 8) (encFrame p b s) :=
  (encSample_ends p hb .left s).bind fun t _ => encSample_ends p hb .right t

/-- Where the temporaries stand does not matter to how a piece of `ENC` ends. -/
theorem EncEnds.of_work {s : State} {k : Nat} {f : Flow} {w : Work} (h : EncEnds { s with work := w } k f) : EncEnds s k f := by
  cases f <;> exact h

theorem encFrames_ends (p : Params) {b : Nat} (hb : legalDepth b = true) (k : Nat) (s : State) :
    EncEnds s (k * (b / 8 + b / 8)) (encFrames p b k s) := by
  induction k generalizing s with
  | zero => exact ⟨s.work, s.draws, [], by simp, by simp⟩
  | succ k ih =>
    rw [encFrames, Nat.succ_mul, Nat.add_comm]
    exact (encFrame_ends p hb s).bind fun t _ => (ih (nextFrame t)).of_work

/-- `ENC` after it has emptied the output: one of the block's faults, or a whole stream of as many bytes as `OUTLEN` then counts. -/
theorem encBody_cases (p : Params) (s : State) :
    (∃ (cause : Cause) (sub : BitVec 8) (ch : Channel) (info : BitVec 32) (w : Work) (j : Nat), recordable cause sub ch info ∧
      encBody p s = .raised { raiseFault true cause sub ch info s with work := w, draws := j }) ∨
    (legalDepth (bitDepth s) = true ∧ s.sblen.toNat ≤ sbDepth p ∧
      ∃ (w : Work) (j : Nat) (bytes : List Byte), bytes.length = s.sblen.toNat * 2 * (bitDepth s / 8) ∧
        encBody p s = .go (finishEnc (bitDepth s) { s with work := w, draws := j, out := s.out ++ bytes })) := by
  simp only [encBody]
  by_cases hb : bitDepth s = 16 ∨ bitDepth s = 24 ∨ bitDepth s = 32
  · have hlegal : legalDepth (bitDepth s) = true := by simpa [legalDepth, or_assoc] using hb
    rw [if_pos hb]
    split
    · exact .inl ⟨.bufferFault, 1, .left, 0, s.work, s.draws, .inl ⟨rfl, rfl, rfl⟩, rfl⟩
    · have hends := (encFrames_ends p hlegal s.sblen.toNat { s with work := { s.work with n := 0 } }).of_work
      cases hf : encFrames p (bitDepth s) s.sblen.toNat { s with work := { s.work with n := 0 } } with
      | raised t =>
        rw [hf] at hends
        obtain ⟨cause, sub, ch, info, w, j, hrec, rfl⟩ := hends
        exact .inl ⟨cause, sub, ch, info, w, j, hrec, rfl⟩
      | go t =>
        rw [hf] at hends
        obtain ⟨w, j, bytes, hlen, rfl⟩ := hends
        exact .inr ⟨hlegal, by omega, w, j, bytes, by rw [hlen]; ring, rfl⟩
  · rw [if_neg hb]
    exact .inl ⟨.unsupportedBitDepth, 0, .left, 0, s.work, s.draws, ⟨rfl, rfl, rfl⟩, rfl⟩

end Sys2Proof.Machine
end

section
/-! PROOFS. The invariant between two transactions: each effect that a transaction can have keeps it, so every step does. -/

namespace Sys2Proof.Machine

/-! ### The flags -/

theorem withFaulted_toNat_lt {w : Word} (h : w.toNat < 4) : (withFaulted w).toNat < 4 := by
  rw [withFaulted, BitVec.toNat_or]
  exact Nat.or_lt_two_pow (n := 2) h (by decide)

theorem withOutValid_toNat_lt {w : Word} (h : w.toNat < 4) : (withOutValid w).toNat < 4 := by
  rw [withOutValid, BitVec.toNat_or]
  exact Nat.or_lt_two_pow (n := 2) h (by decide)

theorem withoutFaulted_toNat_lt {w : Word} (h : w.toNat < 4) : (withoutFaulted w).toNat < 4 := by
  rw [withoutFaulted, BitVec.toNat_and]
  exact Nat.and_le_left.trans_lt h

theorem withoutOutValid_toNat_lt {w : Word} (h : w.toNat < 4) : (withoutOutValid w).toNat < 4 := by
  rw [withoutOutValid, BitVec.toNat_and]
  exact Nat.and_le_left.trans_lt h

@[simp] theorem faulted_emptyOut (s : State) : faulted (emptyOut s) = faulted s := by simp [faulted, withoutOutValid]
@[simp] theorem outValid_emptyOut (s : State) : outValid (emptyOut s) = false := by simp [outValid, withoutOutValid]
@[simp] theorem faulted_clearFault (s : State) : faulted (clearFault s) = false := by simp [faulted, withoutFaulted]
@[simp] theorem outValid_clearFault (s : State) : outValid (clearFault s) = outValid s := by simp [outValid, withoutFaulted]
@[simp] theorem faulted_finishEnc (b : Nat) (s : State) : faulted (finishEnc b s) = faulted s := by simp [faulted, withOutValid]
@[simp] theorem outValid_finishEnc (b : Nat) (s : State) : outValid (finishEnc b s) = true := by simp [outValid, withOutValid]

@[simp] theorem outValid_raiseFault (cause : Cause) (sub : BitVec 8) (ch : Channel) (info : BitVec 32) (s : State) :
    outValid (raiseFault false cause sub ch info s) = outValid s := by
  simp [outValid, withFaulted]

@[simp] theorem faulted_raiseFault (inEnc : Bool) (cause : Cause) (sub : BitVec 8) (ch : Channel) (info : BitVec 32) (s : State) :
    faulted (raiseFault inEnc cause sub ch info s) = true := by
  cases inEnc <;> simp [faulted, withFaulted, withoutOutValid]

/-- The cause field of `FAULT` reads back (10_state.md R25). -/
theorem faultCause_faultWord (cause : Cause) (sub : BitVec 8) (ch : Channel) (info : BitVec 32) :
    faultCause (faultWord cause sub ch info) = causeCode cause := by
  ext i hi
  have hlow : i < 1 + 8 + 8 := by omega
  rw [faultCause, faultWord, BitVec.getElem_extractLsb', BitVec.getLsbD_append, BitVec.getLsbD_append]
  simp [hi, hlow]

/-- No cause has the code 0, so a recorded fault is not 0. -/
theorem faultWord_ne_zero (cause : Cause) (sub : BitVec 8) (ch : Channel) (info : BitVec 32) : faultWord cause sub ch info ≠ 0 := by
  intro h
  have hcode := faultCause_faultWord cause sub ch info
  rw [h] at hcode
  cases cause <;> exact absurd hcode (by decide)

/-! ### What keeps the invariant -/

/-- A count is one of 32 bits (00_scope.md R11). -/
theorem countWord_toNat_lt (i : Int) : (countWord i).toNat < 2 ^ 32 := by
  rw [countWord, BitVec.toNat_setWidth_of_le (by decide)]
  exact BitVec.isLt _

/-- The whole stream of a buffer fits `OUT` (20_memory.md R66). -/
theorem stream_fits {n d b : Nat} (hb : legalDepth b = true) (hn : n ≤ d) : n * 2 * (b / 8) ≤ 8 * d := by
  have hb' : b = 16 ∨ b = 24 ∨ b = 32 := by simpa [legalDepth, or_assoc] using hb
  rcases hb' with rfl | rfl | rfl <;> omega

namespace Inv

variable {s : State} (h : Inv s)
include h

theorem fits : Memory.Fits s.sb (sbDepth Config.params) := ⟨h.cellsSorted, h.cellsBound⟩

/-- The host's and the platform's side of the state plays no part in the invariant. -/
theorem withHost (i : List Input) (r : Reply) : Inv { s with inbox := i, reply := r } := { h with }

theorem withIdle (j : Nat) : Inv { s with work := Work.idle, draws := j } :=
  { h with betweenCommands := ⟨h.betweenCommands.1, rfl⟩ }

theorem writeReg (r : Reg) (v : Word) : Inv (writeReg s r v) := by
  cases r with
  | ctrl =>
    have hreserved : (v &&& ctrlMask) &&& ~~~ctrlMask = 0 := by
      rw [BitVec.and_assoc, show ctrlMask &&& ~~~ctrlMask = 0 by decide]
      exact BitVec.and_zero
    exact { h with ctrlReserved := hreserved }
  | sblen =>
    have hbound : ((v.extractLsb' 0 32).setWidth 64).toNat < 2 ^ 32 := by
      rw [BitVec.toNat_setWidth_of_le (by decide)]
      exact BitVec.isLt _
    exact { h with sblenBound := hbound }
  | _ => exact { h with }

theorem writeCell {n : Nat} (hn : n < sbDepth Config.params) (ch : Channel) (v : Word) : Inv (writeCell s n ch v) :=
  { h with cellsSorted := (h.fits.write hn ch v).1, cellsBound := (h.fits.write hn ch v).2 }

theorem clearFault : Inv (clearFault s) :=
  { h with
    statusReserved := withoutFaulted_toNat_lt h.statusReserved
    faultIff := by simp
    faultRecord := .inl rfl
    outInvalid := by simpa using h.outInvalid }

theorem emptyOut : Inv (emptyOut s) :=
  { h with
    statusReserved := withoutOutValid_toNat_lt h.statusReserved
    faultIff := by simpa using h.faultIff
    outLength := rfl
    outBound := Nat.zero_le _
    outInvalid := fun _ => rfl }

/-- Fault entry with a recordable cause, out of `ENC` or not (60_exceptions.md R180). -/
theorem raiseFault (inEnc : Bool) {cause : Cause} {sub : BitVec 8} {ch : Channel} {info : BitVec 32}
    (hrec : recordable cause sub ch info) : Inv (raiseFault inEnc cause sub ch info s) := by
  have hraised : Inv (Machine.raiseFault false cause sub ch info s) :=
    { h with
      statusReserved := withFaulted_toNat_lt h.statusReserved
      faultIff := iff_of_true (faulted_raiseFault false cause sub ch info s) (faultWord_ne_zero cause sub ch info)
      faultRecord := .inr ⟨cause, sub, ch, info, hrec, rfl⟩
      outInvalid := by simpa using h.outInvalid }
  cases inEnc with
  | false => exact hraised
  | true => exact hraised.emptyOut

theorem gen : Inv (gen Config.params s) := by
  rcases hfc : failedClause Config.params s with _ | ⟨cause, sub⟩
  · obtain ⟨bigN, bigD, bigF, j, m, hm, hgen⟩ := gen_of_valid hfc h.fits
    rw [hgen]
    exact { h with
      sblenBound := countWord_toNat_lt bigN
      dlenBound := countWord_toNat_lt bigD
      flenBound := countWord_toNat_lt bigF
      cellsSorted := hm.1
      cellsBound := hm.2
      betweenCommands := ⟨h.betweenCommands.1, rfl⟩ }
  · simp only [Machine.gen, validate, hfc]
    exact (h.raiseFault false (recordable_of_failedClause hfc)).withIdle s.draws

/-- The successful end of `ENC`, with a stream of the length that `OUTLEN` then counts (40_host_commands.md R98). -/
theorem finishEnc {b : Nat} (w : Work) (j : Nat) {bytes : List Byte} (hlen : bytes.length = s.sblen.toNat * 2 * (b / 8))
    (hfits : bytes.length ≤ 8 * sbDepth Config.params) :
    Inv (endCommand (finishEnc b { s with work := w, draws := j, out := bytes })) := by
  have hcount : (BitVec.ofNat 64 (s.sblen.toNat * 2 * (b / 8))).toNat = bytes.length := by
    have hdepth := (sbDepth_bounds Config.params).2
    rw [← hlen, BitVec.toNat_ofNat, Nat.mod_eq_of_lt (by omega)]
  exact { h with
    statusReserved := withOutValid_toNat_lt h.statusReserved
    faultIff := (Bool.eq_iff_iff.1 (faulted_finishEnc b s)).trans h.faultIff
    outLength := hcount
    outBound := hfits
    outInvalid := fun hinvalid => absurd ((outValid_finishEnc b s).symm.trans hinvalid) (by decide)
    betweenCommands := ⟨h.betweenCommands.1, rfl⟩ }

theorem enc : Inv (enc Config.params s) := by
  rcases encBody_cases Config.params (Machine.emptyOut s) with
    ⟨cause, sub, ch, info, w, j, hrec, henc⟩ | ⟨hlegal, hsblen, w, j, bytes, hlen, henc⟩
  · rw [Machine.enc, henc]
    exact (h.emptyOut.raiseFault true hrec).withIdle j
  · rw [Machine.enc, henc]
    exact h.emptyOut.finishEnc w j hlen (hlen ▸ stream_fits hlegal hsblen)

theorem run : Inv (run Config.params s) := by
  simp only [Machine.run]
  split
  · exact h.gen
  · exact h.gen.enc

theorem dispatchCommand {v : Word} {t : State} (ht : dispatchCommand v s = .next t) : Inv t := by
  simp only [Machine.dispatchCommand, execNop, execGen, execEnc, execRun, execClr, reservedCommand] at ht
  split_ifs at ht <;> cases ht
  · exact h
  · exact h.gen
  · exact h.enc
  · exact h.run
  · exact h.clearFault
  · exact h.raiseFault false ⟨rfl, rfl⟩

theorem execWcr {r : Reg} {v : Word} {t : State} (ht : execWcr r v s = .next t) : Inv t := by
  cases r with
  | cmd => exact h.dispatchCommand ht
  | _ => cases ht; exact h.writeReg _ v

theorem execWsb {n : Word} {ch : Channel} {v : Word} {t : State} (ht : execWsb n ch v s = .next t) : Inv t := by
  rw [Machine.execWsb] at ht
  split at ht
  · cases ht; exact h.writeCell ‹_› ch v
  · cases ht

theorem execRsb {n : Word} {ch : Channel} {t : State} (ht : execRsb n ch s = .next t) : Inv t := by
  rw [Machine.execRsb] at ht
  split at ht
  · split at ht <;> cases ht
    exact h.withHost _ _
  · cases ht

theorem execRout {j : Word} {t : State} (ht : execRout j s = .next t) : Inv t := by
  rw [Machine.execRout] at ht
  split at ht
  · split at ht <;> cases ht
    exact h.withHost _ _
  · cases ht

end Inv

/-! ### Every step -/

/-- The operations that a transaction of the host stands for: the five transactions and the five commands (30_encoding.md R71, R74). -/
def ofHost : Instr → Bool
  | .wcr _ _ | .rcr _ | .wsb _ _ _ | .rsb _ _ | .rout _ | .nop | .gen | .enc | .run | .clr => true
  | _ => false

theorem ofHost_of_decodeCommand {v : Word} {i : Instr} (h : decodeCommand v = some i) : ofHost i = true := by
  simp only [decodeCommand] at h
  split_ifs at h <;> cases h <;> rfl

theorem ofHost_of_decodeWrite {a v : Word} {i : Instr} (h : decodeWrite a v = .ok i) : ofHost i = true := by
  rw [decodeWrite] at h
  split at h
  · cases h
  · split at h <;> cases h
    · exact ofHost_of_decodeCommand ‹_›
    · rfl
  · cases h; rfl

theorem ofHost_of_decodeRead {a : Word} {i : Instr} (h : decodeRead a = .ok i) : ofHost i = true := by
  rw [decodeRead] at h
  split at h <;> cases h
  rfl

/-- No transaction stands for an operation of the datapath. -/
theorem ofHost_of_decodeTransaction {hd a v : Word} {i : Instr} (h : decodeTransaction hd a v = .ok i) : ofHost i = true := by
  simp only [decodeTransaction] at h
  split at h
  · cases h
  · split at h
    · split at h
      · cases h
      · exact ofHost_of_decodeWrite h
    · split_ifs at h
      exact ofHost_of_decodeRead h
    · cases h; rfl
    · split_ifs at h; cases h; rfl
    · split_ifs at h; cases h; rfl
    · cases h

/-- What a transaction of the host performs keeps the invariant; a command is the dispatch of its word. -/
theorem Inv.exec {s t : State} {i : Instr} (h : Inv s) (hi : ofHost i = true) (ht : exec i s = .next t) : Inv t := by
  cases i with
  | wcr r v => exact h.execWcr ht
  | rcr r => cases ht; exact h.withHost _ _
  | wsb n ch v => exact h.execWsb ht
  | rsb n ch => exact h.execRsb ht
  | rout j => exact h.execRout ht
  | nop => exact h.dispatchCommand (v := 0) ht
  | gen => exact h.dispatchCommand (v := 1) ht
  | enc => exact h.dispatchCommand (v := 2) ht
  | run => exact h.dispatchCommand (v := 3) ht
  | clr => exact h.dispatchCommand (v := 15) ht
  | _ => cases hi

theorem inv_reset : Inv State.reset where
  ctrlReserved := rfl
  sblenBound := by decide
  dlenBound := by decide
  flenBound := by decide
  statusReserved := by decide
  faultIff := by decide
  faultRecord := .inl rfl
  outLength := rfl
  outBound := Nat.zero_le _
  outInvalid := fun _ => rfl
  cellsSorted := reset_memory_wf
  cellsBound := fun _ hc => absurd hc List.not_mem_nil
  betweenCommands := ⟨rfl, rfl⟩

/-- Settles O9, field by field. -/
theorem resetMeetsInvariant : Obligations.ResetMeetsInvariant := inv_reset

/-- Settles O8, by the cases of a step: no place is set between commands, so it idles, resets, or performs what a transaction of the host
stands for. -/
theorem stepKeepsInvariant : Obligations.StepKeepsInvariant := by
  intro s t h ht
  rcases step_cases s with ⟨st, hst, -⟩ | ⟨-, -, hstep⟩ | ⟨rest, -, -, hstep⟩ | ⟨hd, a, v, rest, -, -, hstep⟩
  · exact absurd (h.betweenCommands.1.symm.trans hst) (by simp)
  · cases hstep.symm.trans ht
    exact h
  · cases hstep.symm.trans ht
    exact { inv_reset with }
  · rw [hstep] at ht
    cases hdec : decode (.transaction hd a v) with
    | ok i =>
      rw [execCode_of_decode_ok hdec] at ht
      exact (h.withHost rest .none).exec (ofHost_of_decodeTransaction hdec) ht
    | reject r =>
      rw [execCode_of_decode_reject hdec] at ht
      cases ht

/-! ### After reset -/

theorem readReg_reset (r : Reg) : readReg State.reset r = 0 := by
  cases r <;> rfl

theorem readCell_reset (n : Nat) (ch : Channel) : readCell State.reset n ch = none := rfl

/-- Settles O11, by the reset values of the registers and the empty buffers. -/
theorem resetLeavesEverythingZero : Obligations.ResetLeavesEverythingZero :=
  ⟨readReg_reset, readCell_reset, rfl⟩

end Sys2Proof.Machine
end

section
/-! PROOFS. Of `CTRL`, `GEN` reads the sweep bit only: each of its parts does the same to two states that differ in `CTRL` and agree in it. -/

namespace Sys2Proof.Machine

/-- The state with another content of `CTRL`. -/
def withCtrl (c : Word) (s : State) : State := { s with ctrl := c }

/-- An operation that keeps the sweep bit and, at two states that differ in the rest of `CTRL`, does the same. -/
def SweepOnly (f : State → State) : Prop :=
  ∀ (s : State) (c : Word), ctrlSweep c = ctrlSweep s.ctrl →
    ctrlSweep (f s).ctrl = ctrlSweep s.ctrl ∧ f (withCtrl c s) = withCtrl c (f s)

theorem SweepOnly.comp {f g : State → State} (hf : SweepOnly f) (hg : SweepOnly g) : SweepOnly (fun s => g (f s)) := by
  intro s c h
  obtain ⟨hkeep, hfc⟩ := hf s c h
  obtain ⟨hkeep', hgc⟩ := hg (f s) c (h.trans hkeep.symm)
  exact ⟨hkeep'.trans hkeep, by simp only [hfc, hgc]⟩

/-- An operation that does not read `CTRL` at all. -/
theorem SweepOnly.of_ignores {f : State → State} (hkeep : ∀ s, (f s).ctrl = s.ctrl)
    (hf : ∀ s c, f (withCtrl c s) = withCtrl c (f s)) : SweepOnly f :=
  fun s c _ => ⟨by rw [hkeep], hf s c⟩

theorem deriveRate_sweepOnly (p : Params) : SweepOnly (deriveRate p) := by
  intro s c h
  refine ⟨by rw [deriveRate_only_work], ?_⟩
  have hsweep : sweepLog (withCtrl c s) = sweepLog s := h
  rw [deriveRate, deriveRate, hsweep]
  split <;> rfl

theorem phaseOp_sweepOnly (p : Params) (ch : Channel) : SweepOnly (phaseOp p ch) := by
  intro s c h
  refine ⟨by rw [phaseOp_only_work], ?_⟩
  have hsweep : sweepLog (withCtrl c s) = sweepLog s := h
  rw [phaseOp, phaseOp, hsweep]
  split <;> cases ch <;> rfl

theorem genFrame_sweepOnly (p : Params) : SweepOnly (genFrame p) := by
  have hTime : SweepOnly timeOp := .of_ignores (fun _ => rfl) fun _ _ => rfl
  have hTshift : SweepOnly tshift := .of_ignores (fun _ => rfl) fun _ _ => rfl
  have hMute : SweepOnly mute := .of_ignores (fun _ => rfl) fun _ _ => rfl
  have hFade : SweepOnly fade := .of_ignores (fun _ => rfl) fun _ _ => rfl
  have hApply (ch : Channel) : SweepOnly (fadeApply ch) := .of_ignores (fun _ => rfl) fun _ _ => by cases ch <;> rfl
  have hVol (ch : Channel) : SweepOnly (vol ch) := .of_ignores (fun _ => rfl) fun _ _ => by cases ch <;> rfl
  have hStore : SweepOnly (frameStore p) := .of_ignores (fun _ => rfl) fun _ _ => by
    simp only [frameStore, writeCell, withCtrl]
  have hSines := ((hTime.comp hTshift).comp (phaseOp_sweepOnly p .left)).comp (phaseOp_sweepOnly p .right)
  have hFaded := (hSines.comp hMute).comp hFade
  have hLeft := (hFaded.comp (hApply .left)).comp (hVol .left)
  exact ((hLeft.comp (hApply .right)).comp (hVol .right)).comp hStore

theorem nextFrame_sweepOnly : SweepOnly nextFrame := .of_ignores (fun _ => rfl) fun _ _ => rfl

theorem genFrames_sweepOnly (p : Params) (k : Nat) : SweepOnly (genFrames p k) := by
  induction k with
  | zero => exact fun _ _ _ => ⟨rfl, rfl⟩
  | succ k ih => exact ((genFrame_sweepOnly p).comp nextFrame_sweepOnly).comp ih

theorem genDerive_sweepOnly (p : Params) : SweepOnly (genDerive p) := by
  have hN : SweepOnly (deriveN p) := .of_ignores (fun _ => rfl) fun _ _ => rfl
  have hDt : SweepOnly (deriveDt p) := .of_ignores (fun _ => rfl) fun _ _ => rfl
  have hD : SweepOnly (deriveD p) := .of_ignores (fun _ => rfl) fun _ _ => rfl
  have hF : SweepOnly (deriveF p) := .of_ignores (fun _ => rfl) fun _ _ => rfl
  show SweepOnly fun s => deriveRate p (deriveF p (deriveD p (deriveDt p (deriveN p s))))
  exact (((hN.comp hDt).comp hD).comp hF).comp (deriveRate_sweepOnly p)

theorem latchCounts_sweepOnly : SweepOnly latchCounts := .of_ignores (fun _ => rfl) fun _ _ => rfl

theorem genBody_sweepOnly (p : Params) : SweepOnly (genBody p) := by
  intro s c h
  obtain ⟨hkeep, hlatch⟩ := (genDerive_sweepOnly p).comp latchCounts_sweepOnly s c h
  beta_reduce at hkeep hlatch
  obtain ⟨hkeep', hframes⟩ := genFrames_sweepOnly p (latchCounts (genDerive p s)).work.bigN.toNat _ c (h.trans hkeep.symm)
  refine ⟨hkeep'.trans hkeep, ?_⟩
  rw [genBody, hlatch]
  exact hframes

theorem failedClause_withCtrl (p : Params) {s : State} {c : Word} (h : ctrlSweep c = ctrlSweep s.ctrl) :
    failedClause p (withCtrl c s) = failedClause p s := by
  have hsweep : sweepLog (withCtrl c s) = sweepLog s := h
  simp only [failedClause, hsweep]
  rfl

theorem gen_withCtrl (p : Params) {s : State} {c : Word} (h : ctrlSweep c = ctrlSweep s.ctrl) :
    gen p (withCtrl c s) = withCtrl c (gen p s) := by
  simp only [gen, validate, failedClause_withCtrl p h]
  cases failedClause p s with
  | none => exact congrArg endCommand (genBody_sweepOnly p s c h).2
  | some raised => rfl

theorem exec_gen_of_not_faulted {s : State} (h : faulted s = false) : exec .gen s = .next (gen Config.params s) := by
  show execGen s = _
  rw [execGen, if_neg (by simp [h])]

/-- Settles O29: `GEN` is made of operations that read no other bit of `CTRL` than the sweep bit. -/
theorem genIgnoresDepth : Obligations.GenIgnoresDepth := by
  intro s c hf h
  refine ⟨gen Config.params s, exec_gen_of_not_faulted hf, ?_⟩
  have hf' : faulted (withCtrl c s) = false := hf
  exact (exec_gen_of_not_faulted hf').trans (congrArg _ (gen_withCtrl Config.params h))

end Sys2Proof.Machine
end

section
/-! PROOFS. Of the block, `ENC` reads the depth, `SBLEN` and `SB` only: each of its parts, at two states that agree on what it reads, goes on at
both to states that agree again, or raises the same fault at both. -/

namespace Sys2Proof.Machine

/-- Two states between two samples of `ENC`, with no fault, that agree on all that the rest of the command reads (20_memory.md R64). -/
structure SameEncInput (s s' : State) : Prop where
  sblen : s'.sblen = s.sblen
  cells : s'.sb = s.sb
  stream : s'.out = s.out
  frame : s'.work.n = s.work.n
  draws : s'.draws = s.draws
  noFault : faulted s = false
  noFault' : faulted s' = false

/-- Two states that show the host the same stream, or the same fault. -/
structure SameStream (t t' : State) : Prop where
  out : t'.out = t.out
  outlen : t'.outlen = t.outlen
  outValid : outValid t' = outValid t
  faulted : faulted t' = faulted t
  fault : Machine.faulted t = true → t'.fault = t.fault

/-- Two runs of a piece of `ENC` that end alike: both go on, to states that agree for the rest of the command, or both raised one fault. -/
def SameEnd : Flow → Flow → Prop
  | .go t, .go t' => SameEncInput t t'
  | .raised t, .raised t' => SameStream t t'
  | _, _ => False

theorem SameEnd.bind {f f' : Flow} {g g' : State → Flow} (hf : SameEnd f f')
    (hg : ∀ t t', SameEncInput t t' → SameEnd (g t) (g' t')) : SameEnd (f.bind g) (f'.bind g') := by
  cases f <;> cases f'
  case go.go t t' => exact hg t t' hf
  case raised.raised => exact hf
  all_goals exact hf.elim

/-- A fault out of `ENC` leaves nothing of the old output, whatever it was (60_exceptions.md R180). -/
theorem SameStream.of_raiseFault (cause : Cause) (sub : BitVec 8) (ch : Channel) (info : BitVec 32) (s s' : State) (w w' : Work) :
    SameStream { raiseFault true cause sub ch info s with work := w } { raiseFault true cause sub ch info s' with work := w' } where
  out := rfl
  outlen := rfl
  outValid := (outValid_emptyOut _).trans (outValid_emptyOut _).symm
  faulted := (faulted_raiseFault true cause sub ch info s').trans (faulted_raiseFault true cause sub ch info s).symm
  fault _ := rfl

/-! ### The draws -/

theorem quantize_draws {p : Params} {mode : RoundMode} {scale : F64} {s t : State} (h : quantize p mode scale s = .go t) :
    t.draws = s.draws := by
  rcases quantize_cases p mode scale s with ⟨-, hq⟩ | ⟨-, hq⟩
  · exact absurd (hq.symm.trans h) (by simp)
  · cases hq.symm.trans h
    rfl

/-- An encoder takes a draw at depth 32 and none at the integer depths (log entry 7). -/
theorem encodeOp_draws (p : Params) {b : Nat} (hb : legalDepth b = true) {s t : State} (h : encodeOp p b s = .go t) :
    t.draws = s.draws + if b = 32 then 1 else 0 := by
  have hb' : b = 16 ∨ b = 24 ∨ b = 32 := by simpa [legalDepth, or_assoc] using hb
  rcases hb' with rfl | rfl | rfl
  · obtain ⟨u, hu, ht⟩ := bind_eq_go (k := fun s1 => .go (pack16 s1)) h
    cases ht
    exact (quantize_draws hu :)
  · obtain ⟨u, hu, ht⟩ := bind_eq_go (k := fun s1 => .go (pack24 s1)) h
    cases ht
    exact (quantize_draws hu :)
  · cases h
    rfl

theorem encSample_draws (p : Params) {b : Nat} (hb : legalDepth b = true) (ch : Channel) {s t : State}
    (h : encSample p b ch s = .go t) : t.draws = s.draws + if b = 32 then 1 else 0 := by
  simp only [encSample] at h
  split at h
  · cases h
  · obtain ⟨u, hu, ht⟩ := bind_eq_go h
    cases ht
    exact (encodeOp_draws p hb hu :)

/-! ### The parts of `ENC` -/

namespace SameEncInput

variable {s s' : State} (h : SameEncInput s s')
include h

theorem readCell (n : Nat) (ch : Channel) : readCell s' n ch = readCell s n ch := by
  rw [Machine.readCell, Machine.readCell, h.cells]

theorem encodable (b n : Nat) (ch : Channel) : encodable s' b n ch = encodable s b n ch := by
  rw [Machine.encodable, Machine.encodable, h.readCell]

theorem cellFault (n : Nat) (ch : Channel) : cellFault s' n ch = cellFault s n ch := by
  rw [Machine.cellFault, Machine.cellFault, h.readCell]

theorem encSample (p : Params) {b : Nat} (hb : legalDepth b = true) (ch : Channel) :
    SameEnd (encSample p b ch s) (encSample p b ch s') := by
  have hsame : Machine.encodable s' b s'.work.n ch = Machine.encodable s b s.work.n ch := by rw [h.frame, h.encodable]
  rcases encSample_cases p hb ch s with ⟨hbad, w, hs⟩ | ⟨hgood, v, hv, w, k, hn, hs⟩
  · rcases encSample_cases p hb ch s' with ⟨-, w', hs'⟩ | ⟨hgood', -⟩
    · obtain ⟨cause, sub, -, hword⟩ := cellFault_recordable s s.work.n ch
      rw [hs, hs', h.frame, h.cellFault, hword]
      exact .of_raiseFault cause sub ch (BitVec.ofNat 32 s.work.n) s s' w w'
    · exact absurd (hgood'.symm.trans (hsame.trans hbad)) (by decide)
  · rcases encSample_cases p hb ch s' with ⟨hbad', -⟩ | ⟨-, v', hv', w', k', hn', hs'⟩
    · exact absurd (hbad'.symm.trans (hsame.trans hgood)) (by decide)
    · obtain rfl : v' = v := by
        rw [h.frame, h.readCell, hv] at hv'
        exact (Option.some.inj hv').symm
      have hdraws : k' = k := by
        have hk := encSample_draws p hb ch hs
        have hk' := encSample_draws p hb ch hs'
        exact hk'.trans (h.draws ▸ hk.symm)
      rw [hs, hs']
      exact { h with
        stream := by rw [h.stream, h.draws]
        frame := hn'.trans (h.frame.trans hn.symm)
        draws := hdraws }

theorem encFrame (p : Params) {b : Nat} (hb : legalDepth b = true) : SameEnd (encFrame p b s) (encFrame p b s') :=
  (h.encSample p hb .left).bind fun _ _ ht => ht.encSample p hb .right

theorem nextFrame : SameEncInput (nextFrame s) (nextFrame s') :=
  { h with frame := congrArg (· + 1) h.frame }

theorem encFrames (p : Params) {b : Nat} (hb : legalDepth b = true) (k : Nat) :
    SameEnd (encFrames p b k s) (encFrames p b k s') := by
  induction k generalizing s s' with
  | zero => exact h
  | succ k ih => exact (h.encFrame p hb).bind fun _ _ ht => ih ht.nextFrame

/-- `OUTLEN` is computed from `SBLEN` and the depth, so the successful end shows the same too (43_quantize_pack.md R153). -/
theorem finishEnc (b : Nat) : SameStream (finishEnc b s) (finishEnc b s') where
  out := h.stream
  outlen := by simp [h.sblen]
  outValid := by simp
  faulted := by simp [h.noFault, h.noFault']
  fault hfault := by simp [h.noFault] at hfault

end SameEncInput

theorem SameEnd.finish {f f' : Flow} (h : SameEnd f f') (b : Nat) :
    SameStream (f.bind fun t => .go (finishEnc b t)).state (f'.bind fun t => .go (finishEnc b t)).state := by
  cases f <;> cases f'
  case go.go t t' => exact SameEncInput.finishEnc h b
  case raised.raised => exact h
  all_goals exact h.elim

/-- The depth and the length are checked before a cell is read, and both checks read only what the two states agree on. -/
theorem encBody_sameStream (p : Params) {s s' : State} (hdepth : bitDepth s' = bitDepth s)
    (h : SameEncInput { s with work := { s.work with n := 0 } } { s' with work := { s'.work with n := 0 } }) :
    SameStream (encBody p s).state (encBody p s').state := by
  have hlength : s'.sblen.toNat = s.sblen.toNat := congrArg BitVec.toNat h.sblen
  simp only [encBody, hdepth, hlength]
  by_cases hb : bitDepth s = 16 ∨ bitDepth s = 24 ∨ bitDepth s = 32
  · have hlegal : legalDepth (bitDepth s) = true := by simpa [legalDepth, or_assoc] using hb
    rw [if_pos hb, if_pos hb]
    by_cases hlen : sbDepth p < s.sblen.toNat
    · rw [if_pos hlen, if_pos hlen]
      exact .of_raiseFault .bufferFault 1 .left 0 s s' s.work s'.work
    · rw [if_neg hlen, if_neg hlen]
      exact (h.encFrames p hlegal s.sblen.toNat).finish (bitDepth s)
  · rw [if_neg hb, if_neg hb]
    exact .of_raiseFault .unsupportedBitDepth 0 .left 0 s s' s.work s'.work

theorem SameStream.endCommand {t t' : State} (h : SameStream t t') : SameStream (endCommand t) (endCommand t') := { h with }

/-- `ENC` starts on an empty output, so it does not matter what the old one holds (40_host_commands.md R98). -/
theorem enc_sameStream (p : Params) {s s' : State} (hf : faulted s = false) (hf' : faulted s' = false)
    (hdepth : bitDepth s' = bitDepth s) (hsblen : s'.sblen = s.sblen) (hsb : s'.sb = s.sb) (hdraws : s'.draws = s.draws) :
    SameStream (enc p s) (enc p s') := by
  have hdepthEmpty : bitDepth (emptyOut s') = bitDepth (emptyOut s) := hdepth
  exact (encBody_sameStream p hdepthEmpty
    { sblen := hsblen
      cells := hsb
      stream := rfl
      frame := rfl
      draws := hdraws
      noFault := (faulted_emptyOut s).trans hf
      noFault' := (faulted_emptyOut s').trans hf' }).endCommand

theorem exec_enc_of_not_faulted {s : State} (h : faulted s = false) : exec .enc s = .next (enc Config.params s) := by
  show execEnc s = _
  rw [execEnc, if_neg (by simp [h])]

/-- Settles O52: two states that agree on the depth, `SBLEN`, `SB` and the draws agree on all that the first sample reads, and each sample
keeps them so. -/
theorem encReadsDepthLengthAndCells : Obligations.EncReadsDepthLengthAndCells := by
  intro s s' hf hf' hdepth hsblen hsb hdraws
  obtain ⟨hout, houtlen, hvalid, hfaulted, hfault⟩ := enc_sameStream Config.params hf hf' hdepth hsblen hsb hdraws
  exact ⟨_, _, exec_enc_of_not_faulted hf, exec_enc_of_not_faulted hf', hout, houtlen, hvalid, hfaulted, hfault⟩

end Sys2Proof.Machine
end

section
/-! PROOFS. The encoder and the decoder are inverse (30_encoding.md R71 to R76): what the fields of a header, a register index and a command
word are, which transactions stand for an operation, and from these that `decode` undoes `encode` and `encode` undoes `decodeTransaction`. -/

namespace Sys2Proof.Machine

/-! ### Register indices -/

@[simp] theorem regAt_regWord (r : Reg) : regAt (regWord r).toNat = some r := by
  cases r <;> rfl

theorem regIndex_of_regAt {n : Nat} {r : Reg} (h : regAt n = some r) : regIndex r = n := by
  unfold regAt at h
  split at h <;> cases h <;> rfl

/-- An address word that names a register is the register's index. -/
theorem regWord_of_regAt {a : Word} {r : Reg} (h : regAt a.toNat = some r) : regWord r = a := by
  rw [regWord, regIndex_of_regAt h, BitVec.ofNat_toNat, BitVec.setWidth_eq]

theorem regWord_toNat_le (r : Reg) : (regWord r).toNat ≤ 15 := by
  cases r <;> decide

/-! ### Command words -/

theorem decodeCommand_eq_none_iff (v : Word) : decodeCommand v = none ↔ isCommandWord v = false := by
  simp only [decodeCommand, isCommandWord]
  split_ifs <;> simp_all

/-- A `WCR` is well formed where it issues no command. -/
theorem wellFormed_wcr_iff (r : Reg) (v : Word) :
    (Instr.wcr r v).wellFormed = true ↔ (r = .cmd → decodeCommand v = none) := by
  rw [decodeCommand_eq_none_iff]
  cases r <;> simp [Instr.wellFormed]

/-- The word of a command is the one its encoding writes to `CMD` (R74). -/
theorem wellFormed_and_encode_of_decodeCommand {v : Word} {i : Instr} (h : decodeCommand v = some i) :
    i.wellFormed = true ∧ encode i = commandCode v := by
  rw [decodeCommand] at h
  split_ifs at h with h0 h1 h2 h3 h15 <;> cases h <;> subst v <;> exact ⟨rfl, rfl⟩

/-! ### Headers -/

/-- The bits of `H` that must be zero are all but the kind, bits 2:0, and the channel, bit 8 (R71). -/
theorem getElem_headerZeroMask : ∀ (i : Nat) (hi : i < 64), headerZeroMask[i] = decide (3 ≤ i ∧ i ≠ 8) := by
  decide

/-- The channel bit of a buffer transaction is bit 8, added to the bits of the kind. -/
theorem getElem_bufferHeader (kind : Word) (ch : Channel) (i : Nat) (hi : i < 64) :
    (bufferHeader kind ch)[i] = (kind[i] || (decide (i = 8) && decide (ch = .right))) := by
  have hbit : ∀ (j : Nat) (hj : j < 64), (0x100 : Word)[j] = decide (j = 8) := by decide
  cases ch with
  | left => simp [bufferHeader]
  | right => rw [bufferHeader, BitVec.getElem_or, hbit i hi, decide_eq_true rfl, Bool.and_true]

theorem decide_headerChannel_eq_right (h : Word) : decide (headerChannel h = .right) = h[8] := by
  rw [headerChannel, BitVec.getLsbD_eq_getElem (by decide)]
  cases h[8] <;> rfl

theorem getElem_headerKind (h : Word) (i : Nat) (hi : i < 64) :
    (BitVec.ofNat 64 (headerKind h))[i] = (decide (i < 3) && h[i]) := by
  rw [headerKind, BitVec.ofNat_toNat, BitVec.getElem_setWidth, BitVec.getLsbD_extractLsb', Nat.zero_add,
    BitVec.getLsbD_eq_getElem hi]

theorem getElem_of_headerZero {h : Word} (hz : h &&& headerZeroMask = 0) {i : Nat} (hi : i < 64) (h3 : 3 ≤ i) (h8 : i ≠ 8) :
    h[i] = false := by
  have hand : (h &&& headerZeroMask)[i] = (0#64)[i] := by rw [hz]; rfl
  simpa [getElem_headerZeroMask i hi, h3, h8] using hand

/-- A header whose must-be-zero bits are zero is its kind and its channel bit and nothing else. -/
theorem header_eq {h : Word} (hz : h &&& headerZeroMask = 0) :
    h = bufferHeader (BitVec.ofNat 64 (headerKind h)) (headerChannel h) := by
  ext i hi
  rw [getElem_bufferHeader, getElem_headerKind, decide_headerChannel_eq_right]
  rcases Nat.lt_or_ge i 3 with h3 | h3
  · simp [h3, show i ≠ 8 by omega]
  · by_cases h8 : i = 8
    · subst i; simp
    · simp [getElem_of_headerZero hz hi h3 h8, h8]

/-! ### Transactions -/

/-- The transactions that stand for an operation, one constructor per row of format T, the writes of `CMD` that are commands apart
(30_encoding.md R71, R74). `decode_transaction_eq_ok_iff` ties it to the decoder. -/
inductive Admitted : Word → Word → Word → Instr → Prop where
  | write (r : Reg) (v : Word) : (r = .cmd → decodeCommand v = none) → Admitted 0 (regWord r) v (.wcr r v)
  | command (v : Word) (i : Instr) : decodeCommand v = some i → Admitted 0 (regWord .cmd) v i
  | read (r : Reg) : Admitted 1 (regWord r) 0 (.rcr r)
  | writeCell (n : Word) (ch : Channel) (v : Word) : Admitted (bufferHeader 2 ch) n v (.wsb n ch v)
  | readCell (n : Word) (ch : Channel) : Admitted (bufferHeader 3 ch) n 0 (.rsb n ch)
  | readOut (j : Word) : Admitted 4 j 0 (.rout j)

theorem decodeWrite_regWord_cmd (v : Word) :
    decodeWrite (regWord .cmd) v = .ok ((decodeCommand v).getD (.wcr .cmd v)) := by
  rw [decodeWrite, regAt_regWord]
  cases decodeCommand v <;> rfl

theorem decodeWrite_regWord {r : Reg} (hr : r ≠ .cmd) (v : Word) : decodeWrite (regWord r) v = .ok (.wcr r v) := by
  rw [decodeWrite, regAt_regWord]
  cases r with
  | cmd => exact absurd rfl hr
  | _ => rfl

theorem decodeRead_regWord (r : Reg) : decodeRead (regWord r) = .ok (.rcr r) := by
  rw [decodeRead, regAt_regWord]

theorem admitted_of_decodeWrite {a v : Word} {i : Instr} (h : decodeWrite a v = .ok i) : Admitted 0 a v i := by
  cases hr : regAt a.toNat with
  | none => simp [decodeWrite, hr] at h
  | some r =>
    obtain rfl := regWord_of_regAt hr
    by_cases hcmd : r = .cmd
    · subst r
      rw [decodeWrite_regWord_cmd] at h
      cases hv : decodeCommand v with
      | some j => rw [hv] at h; cases h; exact .command v _ hv
      | none => rw [hv] at h; cases h; exact .write _ v fun _ => hv
    · rw [decodeWrite_regWord hcmd] at h
      cases h
      exact .write r v fun hc => absurd hc hcmd

theorem admitted_of_decodeRead {a : Word} {i : Instr} (h : decodeRead a = .ok i) : Admitted 1 a 0 i := by
  cases hr : regAt a.toNat with
  | none => simp [decodeRead, hr] at h
  | some r =>
    obtain rfl := regWord_of_regAt hr
    rw [decodeRead_regWord] at h
    cases h
    exact .read r

/-- A transaction that may carry no data decodes with zero data only. -/
theorem data_eq_zero_of_ok {v : Word} {d : Decoded} {i : Instr} (h : (if v ≠ 0 then .reject .dataOnRead else d) = .ok i) :
    v = 0 ∧ d = .ok i := by
  split_ifs at h with hv
  exact ⟨not_not.1 hv, h⟩

/-- The decoder gives an operation for the admitted transactions only: a header that is admitted is its kind and its channel bit, and a
transaction that carries no channel or no data has zeros there. -/
theorem admitted_of_decode {h a v : Word} {i : Instr} (hd : decode (.transaction h a v) = .ok i) : Admitted h a v i := by
  rw [decode, decodeTransaction] at hd
  split at hd
  · cases hd
  next hz =>
    rw [header_eq (not_not.1 hz)]
    generalize headerKind h = kind at hd
    generalize headerChannel h = ch at hd
    match kind, ch, hd with
    | 0, .left, hd => exact admitted_of_decodeWrite hd
    | 1, .left, hd =>
      obtain ⟨rfl, hd⟩ := data_eq_zero_of_ok hd
      exact admitted_of_decodeRead hd
    | 2, ch, hd => cases hd; exact .writeCell a ch v
    | 3, ch, hd =>
      obtain ⟨rfl, hd⟩ := data_eq_zero_of_ok hd
      cases hd
      exact .readCell a ch
    | 4, .left, hd =>
      obtain ⟨rfl, hd⟩ := data_eq_zero_of_ok hd
      cases hd
      exact .readOut a
    | 0, .right, hd | 1, .right, hd | 4, .right, hd | _ + 5, _, hd => cases hd

/-- An admitted transaction stands for its operation. -/
theorem Admitted.decode {h a v : Word} {i : Instr} (hi : Admitted h a v i) : decode (.transaction h a v) = .ok i := by
  cases hi with
  | write r _ hcmd =>
    show decodeWrite (regWord r) v = _
    by_cases hr : r = .cmd
    · subst r
      rw [decodeWrite_regWord_cmd, hcmd rfl]
      rfl
    · exact decodeWrite_regWord hr v
  | command _ _ hv => exact (decodeWrite_regWord_cmd v).trans (by rw [hv]; rfl)
  | read r => exact decodeRead_regWord r
  | writeCell _ ch => cases ch <;> rfl
  | readCell _ ch => cases ch <;> rfl
  | readOut => rfl

/-- The decoder's answer on a transaction, said without its branches. -/
theorem decode_transaction_eq_ok_iff {h a v : Word} {i : Instr} : decode (.transaction h a v) = .ok i ↔ Admitted h a v i :=
  ⟨admitted_of_decode, Admitted.decode⟩

/-- Settles O1: what the host can ask for is encoded as an admitted transaction, and an operation of the datapath as a place of its command
with a content of `CTRL` that selects it. -/
theorem decodeOfEncode : Obligations.DecodeOfEncode := by
  intro i hwf
  cases i with
  | wcr r v => exact (Admitted.write r v ((wellFormed_wcr_iff r v).1 hwf)).decode
  | rcr r => exact (Admitted.read r).decode
  | wsb n ch v => exact (Admitted.writeCell n ch v).decode
  | rsb n ch => exact (Admitted.readCell n ch).decode
  | rout j => exact (Admitted.readOut j).decode
  | nop => exact (Admitted.command 0 _ rfl).decode
  | gen => exact (Admitted.command 1 _ rfl).decode
  | enc => exact (Admitted.command 2 _ rfl).decode
  | run => exact (Admitted.command 3 _ rfl).decode
  | clr => exact (Admitted.command 15 _ rfl).decode
  | _ => rfl

/-- Settles O2, by the kinds of admitted transactions. -/
theorem encodeOfDecode : Obligations.EncodeOfDecode := by
  intro h a v i hd
  cases decode_transaction_eq_ok_iff.1 hd with
  | write r _ hcmd => exact ⟨(wellFormed_wcr_iff r v).2 hcmd, rfl⟩
  | command _ _ hv => exact wellFormed_and_encode_of_decodeCommand hv
  | read | writeCell | readCell | readOut => exact ⟨rfl, rfl⟩

/-- Settles O3: the words of seven rows of formats T and CMD and of one of SEQ are those of the encoder; of `CTRL` the bits that select
nothing at a place do not matter. -/
theorem writtenWordsDecode : Obligations.WrittenWordsDecode :=
  ⟨decodeOfEncode (.wcr .duration _) rfl, decodeOfEncode (.rcr .status) rfl, decodeOfEncode (.wsb 0 .right _) rfl,
    decodeOfEncode (.rsb 1 .left) rfl, decodeOfEncode (.rout 31999) rfl, decodeOfEncode .enc rfl, decodeOfEncode .clr rfl,
    rfl, rfl, rfl, decodeOfEncode .mute rfl⟩

/-! ### What is refused -/

theorem exec_wsb_of_ge {n : Word} (hn : sbDepth Config.params ≤ n.toNat) (ch : Channel) (v : Word) (s : State) :
    exec (.wsb n ch v) s = .refused .frameBeyondBuffer :=
  if_neg (not_lt.2 hn)

theorem exec_rsb_of_ge {n : Word} (hn : sbDepth Config.params ≤ n.toNat) (ch : Channel) (s : State) :
    exec (.rsb n ch) s = .refused .frameBeyondBuffer :=
  if_neg (not_lt.2 hn)

theorem exec_rout_of_ge {j : Word} {s : State} (hj : s.outlen.toNat ≤ j.toNat) :
    exec (.rout j) s = .refused .offsetBeyondStream :=
  if_neg (not_lt.2 hj)

namespace Admitted

variable {h a v : Word} {i : Instr}

/-- The must-be-zero rules of format T hold of an admitted transaction, as of every encoding. -/
theorem header_legal (hi : Admitted h a v i) :
    h &&& headerZeroMask = 0 ∧ headerKind h < 5 ∧ (headerChannel h = .right → headerKind h = 2 ∨ headerKind h = 3) := by
  cases hi with
  | write | command => exact Laws.HeaderLegal.wcr .cmd v
  | read r => exact Laws.HeaderLegal.rcr r
  | writeCell _ ch => exact Laws.HeaderLegal.wsb a ch v
  | readCell _ ch => exact Laws.HeaderLegal.rsb a ch
  | readOut => exact Laws.HeaderLegal.rout a

/-- A read carries no data (R71). -/
theorem data_eq_zero (hi : Admitted h a v i) (hk : headerKind h = 1 ∨ headerKind h = 3 ∨ headerKind h = 4) : v = 0 := by
  cases hi with
  | write | command => exact absurd hk (by decide)
  | writeCell _ ch => cases ch <;> exact absurd hk (by decide)
  | read | readCell | readOut => rfl

/-- The address of a register transaction is a register's index (R71). -/
theorem address_le (hi : Admitted h a v i) (hk : headerKind h = 0 ∨ headerKind h = 1) : a.toNat ≤ 15 := by
  cases hi with
  | write | command | read => exact regWord_toNat_le _
  | writeCell _ ch | readCell _ ch => cases ch <;> exact absurd hk (by decide)
  | readOut => exact absurd hk (by decide)

/-- A frame that `SB` does not have is refused (20_memory.md R59). -/
theorem exec_of_sbDepth_le (hi : Admitted h a v i) (hk : headerKind h = 2 ∨ headerKind h = 3)
    (ha : sbDepth Config.params ≤ a.toNat) (s : State) : exec i s = .refused .frameBeyondBuffer := by
  cases hi with
  | write | command | read | readOut => exact absurd hk (by decide)
  | writeCell _ ch => exact exec_wsb_of_ge ha ch v s
  | readCell _ ch => exact exec_rsb_of_ge ha ch s

/-- An offset beyond the stream is refused (20_memory.md R59). -/
theorem exec_of_outlen_le (hi : Admitted h a v i) (hk : headerKind h = 4) {s : State} (ha : s.outlen.toNat ≤ a.toNat) :
    exec i s = .refused .offsetBeyondStream := by
  cases hi with
  | write | command | read => exact absurd hk (by decide)
  | writeCell _ ch | readCell _ ch => cases ch <;> exact absurd hk (by decide)
  | readOut => exact exec_rout_of_ge ha

end Admitted

/-- Settles O4: what the decoder rejects is refused, and of an admitted transaction the only grounds left are the addresses of cells and
bytes, which `exec` refuses. -/
theorem inadmissibleTransactionsRefused : Obligations.InadmissibleTransactionsRefused := by
  intro s h a v rest hs hin hground
  rw [step_transaction hs hin]
  cases hd : decode (.transaction h a v) with
  | reject r => exact ⟨_, execCode_of_decode_reject hd _⟩
  | ok i =>
    have hi := decode_transaction_eq_ok_iff.1 hd
    obtain ⟨hzero, hkind, hright⟩ := hi.header_legal
    rw [execCode_of_decode_ok hd]
    rcases hground with hbits | h5 | ⟨hch, h2, h3⟩ | ⟨hv, hk⟩ | ⟨ha, hk⟩ | ⟨ha, hk⟩ | ⟨ha, hk⟩
    · exact absurd hzero hbits
    · exact absurd hkind (not_lt.2 h5)
    · exact absurd (hright hch) (not_or.2 ⟨h2, h3⟩)
    · exact absurd (hi.data_eq_zero hk) hv
    · exact absurd (hi.address_le hk) (not_le.2 ha)
    · exact ⟨_, hi.exec_of_sbDepth_le hk ha _⟩
    · exact ⟨_, hi.exec_of_outlen_le hk ha⟩

/-! ### The operation at a place -/

/-- At a place the step is the encoding of that place, with the place gone. -/
theorem step_place {s : State} {st : Stage} (hs : s.stage = some st) :
    step s = execCode (.place st s.ctrl) { s with stage := none } := by
  simp only [step, hs]

/-- Settles O6: the step is `execCode` of the place, whose outcome is that of the decoder. -/
theorem stepRunsSelectedOperation : Obligations.StepRunsSelectedOperation := by
  intro s st hs
  rw [step_place hs]
  exact ⟨fun _ hd => execCode_of_decode_ok hd _, fun _ hd => execCode_of_decode_reject hd _⟩

/-! ### Packed bytes -/

/-- Dropping the high bits of an integer's pattern gives its pattern at fewer bits. -/
theorem extractLsb'_ofInt {k w : Nat} (h : k ≤ w) (q : Int) : (BitVec.ofInt w q).extractLsb' 0 k = BitVec.ofInt k q := by
  rw [← BitVec.setWidth_eq_extractLsb' h]
  apply BitVec.eq_of_toNat_eq
  have hdvd : ((2 ^ k : Nat) : Int) ∣ (2 ^ w : Nat) := Int.natCast_dvd_natCast.2 (Nat.pow_dvd_pow 2 h)
  have hpos : (0 : Int) ≤ q % (2 ^ w : Nat) := Int.emod_nonneg _ (by positivity)
  rw [BitVec.toNat_setWidth, BitVec.toNat_ofInt, BitVec.toNat_ofInt, ← Int.emod_emod_of_dvd q hdvd,
    Int.toNat_emod hpos (Int.natCast_nonneg _), Int.toNat_natCast]

theorem exec_pack16 (s : State) :
    exec .pack16 s = .next { s with work := { s.work with
      bytes := [(BitVec.ofInt 16 s.work.q).extractLsb' 0 8, (BitVec.ofInt 16 s.work.q).extractLsb' 8 8] } } := rfl

theorem exec_pack24 (s : State) :
    exec .pack24 s = .next { s with work := { s.work with
      bytes := [(BitVec.ofInt 32 s.work.q).extractLsb' 0 8, (BitVec.ofInt 32 s.work.q).extractLsb' 8 8,
        (BitVec.ofInt 32 s.work.q).extractLsb' 16 8] } } := rfl

/-- The two low bytes of a pattern, put together again (30_encoding.md R77). -/
theorem append_two_bytes {w : Nat} (u : BitVec w) : u.extractLsb' 8 8 ++ u.extractLsb' 0 8 = u.extractLsb' 0 16 :=
  BitVec.extractLsb'_append_extractLsb'_eq_extractLsb' rfl

/-- The three low bytes of a pattern, put together again (30_encoding.md R78). -/
theorem append_three_bytes {w : Nat} (u : BitVec w) :
    u.extractLsb' 16 8 ++ u.extractLsb' 8 8 ++ u.extractLsb' 0 8 = u.extractLsb' 0 24 := by
  have hhigh : u.extractLsb' 16 8 ++ u.extractLsb' 8 8 = u.extractLsb' 8 16 :=
    BitVec.extractLsb'_append_extractLsb'_eq_extractLsb' rfl
  rw [hhigh]
  exact BitVec.extractLsb'_append_extractLsb'_eq_extractLsb' rfl

/-- Settles O48: the bytes are the low 16 or 24 bits of the pattern of `q`, and a pattern of `k` bits reads back every integer of its
range. -/
theorem packedBytesReadBack : Obligations.PackedBytesReadBack := by
  intro s
  refine ⟨fun hlo hhi => ⟨_, _, _, exec_pack16 s, rfl, ?_⟩, fun hlo hhi => ⟨_, _, _, _, exec_pack24 s, rfl, ?_⟩⟩
  · rw [append_two_bytes, extractLsb'_ofInt le_rfl]
    exact BitVec.toInt_ofInt_eq_self (by decide) (by omega) (by omega)
  · rw [append_three_bytes, extractLsb'_ofInt (by decide)]
    exact BitVec.toInt_ofInt_eq_self (by decide) (by omega) (by omega)

end Sys2Proof.Machine
end

section
/-! PROOFS. The transactions of the host and the dispatch of command words (40_host_commands.md R90 to R96, R100, R101): what each answers
where it is admitted, and where it is refused. -/

namespace Sys2Proof.Machine

/-! ### `WCR` and `RCR` -/

/-- A write of a register other than `CMD` is that register's write, in every state (R90). -/
theorem exec_wcr_of_ne_cmd {r : Reg} (hr : r ≠ .cmd) (v : Word) (s : State) : exec (.wcr r v) s = .next (writeReg s r v) := by
  show execWcr r v s = _
  cases r with
  | cmd => exact absurd rfl hr
  | _ => rfl

/-- The low half of a word, extended again, is the word modulo `2^32` (00_scope.md R11). -/
theorem setWidth_lowHalf (v : Word) : (v.extractLsb' 0 32).setWidth 64 = BitVec.ofNat 64 (v.toNat % 2 ^ 32) := by
  apply BitVec.eq_of_toNat_eq
  rw [BitVec.toNat_setWidth, BitVec.extractLsb'_toNat, BitVec.toNat_ofNat, Nat.shiftRight_zero]

theorem writeReg_sblen (s : State) (v : Word) : writeReg s .sblen v = { s with sblen := BitVec.ofNat 64 (v.toNat % 2 ^ 32) } := by
  rw [writeReg, setWidth_lowHalf]

/-- Settles O13: a register other than `CMD` is written by `writeReg`, whose arms are the rule's; only the low half that `SBLEN` keeps is
said in another form there. -/
theorem writeRegister : Obligations.WriteRegister := by
  intro v s
  have hwrite : ∀ r, r ≠ .cmd → exec (.wcr r v) s = .next (writeReg s r v) := fun r hr => exec_wcr_of_ne_cmd hr v s
  rw [← writeReg_sblen]
  exact ⟨hwrite .ctrl nofun, hwrite .duration nofun, hwrite .sampleRate nofun, hwrite .f0l nofun, hwrite .f1l nofun,
    hwrite .f0r nofun, hwrite .f1r nofun, hwrite .delay nofun, hwrite .volume nofun, hwrite .sblen nofun, hwrite .status nofun,
    hwrite .fault nofun, hwrite .dlen nofun, hwrite .flen nofun, hwrite .outlen nofun⟩

theorem exec_rcr (r : Reg) (s : State) : exec (.rcr r) s = .next { s with reply := .word (readReg s r) } := rfl

/-- There is no register above index 15 (10_state.md R20). -/
theorem regAt_eq_none {a : Word} (h : 15 < a.toNat) : regAt a.toNat = none := by
  rw [Option.eq_none_iff_forall_ne_some]
  intro r hr
  have hle := regWord_toNat_le r
  rw [regWord_of_regAt hr] at hle
  omega

theorem decode_read (a : Word) : decode (.transaction 1 a 0) = decodeRead a := rfl

/-- Settles O15: the reply is `readReg`, whose arms are the sixteen registers, and no register has an index above 15. -/
theorem readRegister : Obligations.ReadRegister := by
  refine ⟨fun r s => ?_, fun a ha => ?_⟩
  · rw [exec_rcr]
    cases r <;> rfl
  · rw [decode_read, decodeRead, regAt_eq_none ha]

/-! ### `WSB`, `RSB` and `ROUT` -/

theorem exec_wsb_of_lt {n : Word} (hn : n.toNat < sbDepth Config.params) (ch : Channel) (v : Word) (s : State) :
    exec (.wsb n ch v) s = .next (writeCell s n.toNat ch v) :=
  if_pos hn

/-- Settles O16: a write of a cell that `SB` has reads back there and nowhere else. -/
theorem HostPort.writeCell : Obligations.WriteCell := by
  intro n ch v s
  refine ⟨fun hn => ⟨_, exec_wsb_of_lt hn ch v s, readCell_writeCell_same s n.toNat ch v, fun a ha => ?_, rfl⟩,
    fun hn => exec_wsb_of_ge hn ch v s⟩
  exact read_write_other s.sb v ha

theorem exec_rsb_of_some {n : Word} {ch : Channel} {s : State} {v : Word} (hn : n.toNat < sbDepth Config.params)
    (hv : readCell s n.toNat ch = some v) : exec (.rsb n ch) s = .next { s with reply := .word v } := by
  show execRsb n ch s = _
  rw [execRsb, if_pos hn, hv]

theorem exec_rsb_of_none {n : Word} {ch : Channel} {s : State} (hn : n.toNat < sbDepth Config.params)
    (hv : readCell s n.toNat ch = none) : exec (.rsb n ch) s = .refused .cellHoldsNoValue := by
  show execRsb n ch s = _
  rw [execRsb, if_pos hn, hv]

/-- Settles O17, by whether the frame is one of `SB` and the cell holds a value. -/
theorem HostPort.readCell : Obligations.ReadCell := by
  intro n ch s
  exact ⟨fun hn _ hv => exec_rsb_of_some hn hv, fun hn hv => exec_rsb_of_none hn hv, fun hn => exec_rsb_of_ge hn ch s⟩

theorem exec_rout_of_lt {j : Word} {s : State} (hlen : j.toNat < s.outlen.toNat) (hj : j.toNat < s.out.length) :
    exec (.rout j) s = .next { s with reply := .byte s.out[j.toNat] } := by
  show execRout j s = _
  rw [execRout, if_pos hlen, readOut, List.getElem?_eq_getElem hj]

/-- Settles O18: below `OUTLEN`, which counts the bytes of `OUT`, there is a byte to reply. -/
theorem readOutputByte : Obligations.ReadOutputByte := by
  intro j s hlen
  exact ⟨fun hj => exec_rout_of_lt (hlen ▸ hj) hj, exec_rout_of_ge⟩

/-! ### Commands -/

theorem exec_nop (s : State) : exec .nop s = .next s := rfl

theorem exec_clr (s : State) : exec .clr s = .next (clearFault s) := rfl

/-- Settles O19: `NOP` answers the state it is given. -/
theorem nopChangesNothing : Obligations.NopChangesNothing := exec_nop

/-- Settles O20: `CLR` is the return from a fault. -/
theorem clearForgetsTheFault : Obligations.ClearForgetsTheFault := exec_clr

/-- The commands that a recorded fault refuses (R101). -/
theorem exec_command_of_faulted {s : State} (h : faulted s = true) :
    exec .gen s = .refused .commandWhileFaulted ∧ exec .enc s = .refused .commandWhileFaulted ∧
    exec .run s = .refused .commandWhileFaulted :=
  ⟨if_pos h, if_pos h, if_pos h⟩

/-- A reserved word written to `CMD` is no command's (R95). -/
theorem exec_wcr_cmd_of_reserved {v : Word} (h0 : v ≠ 0) (h1 : v ≠ 1) (h2 : v ≠ 2) (h3 : v ≠ 3) (h15 : v ≠ 15) (s : State) :
    exec (.wcr .cmd v) s = reservedCommand v s := by
  show dispatchCommand v s = _
  rw [dispatchCommand, if_neg h0, if_neg h1, if_neg h2, if_neg h3, if_neg h15]

/-- While a fault is recorded every word but those of `NOP` and `CLR` is refused, reserved or not (R101). -/
theorem exec_wcr_cmd_of_faulted {s : State} (h : faulted s = true) {v : Word} (h0 : v ≠ 0) (h15 : v ≠ 15) :
    exec (.wcr .cmd v) s = .refused .commandWhileFaulted := by
  obtain ⟨hgen, henc, hrun⟩ := exec_command_of_faulted h
  by_cases h1 : v = 1
  · subst h1; exact hgen
  by_cases h2 : v = 2
  · subst h2; exact henc
  by_cases h3 : v = 3
  · subst h3; exact hrun
  rw [exec_wcr_cmd_of_reserved h0 h1 h2 h3 h15, reservedCommand, if_pos h]

/-- The word of two appended fields, as a number. -/
theorem toNat_append_eq_add {m n : Nat} (x : BitVec m) (y : BitVec n) : (x ++ y).toNat = x.toNat * 2 ^ n + y.toNat := by
  rw [BitVec.toNat_append, ← Nat.shiftLeft_add_eq_or_of_lt y.isLt, Nat.shiftLeft_eq]

/-- `FAULT` as a number: its four fields at their places (10_state.md R25). -/
theorem faultWord_toNat (cause : Cause) (sub : BitVec 8) (ch : Channel) (info : BitVec 32) :
    (faultWord cause sub ch info).toNat =
      info.toNat * 2 ^ 32 + (channelBit ch).toNat * 2 ^ 16 + sub.toNat * 2 ^ 8 + (causeCode cause).toNat := by
  rw [faultWord, toNat_append_eq_add, toNat_append_eq_add, toNat_append_eq_add, toNat_append_eq_add]
  simp only [BitVec.ofNat_eq_ofNat, BitVec.toNat_zero]
  omega

/-- What IllegalCommand records: the low half of the word over the cause 5 (60_exceptions.md R176). -/
theorem faultWord_illegalCommand (v : Word) :
    faultWord .illegalCommand 0 .left (v.extractLsb' 0 32) = BitVec.ofNat 64 (v.toNat % 2 ^ 32 * 2 ^ 32 + 5) := by
  apply BitVec.eq_of_toNat_eq
  rw [faultWord_toNat, BitVec.extractLsb'_toNat, Nat.shiftRight_zero, BitVec.toNat_ofNat]
  simp only [channelBit, causeCode, BitVec.ofNat_eq_ofNat, BitVec.toNat_ofNat]
  omega

/-- With no fault recorded a reserved word raises IllegalCommand (R95). -/
theorem reservedCommand_of_not_faulted {s : State} (h : faulted s = false) (v : Word) :
    reservedCommand v s = .next { s with
      fault := BitVec.ofNat 64 (v.toNat % 2 ^ 32 * 2 ^ 32 + 5), status := s.status ||| 1 } := by
  rw [reservedCommand, h, if_neg (by decide), ← faultWord_illegalCommand]
  rfl

/-- Settles O14: the legal words are dispatched to their commands, a recorded fault refuses the others, and without one they are
reserved. -/
theorem commandDispatch : Obligations.CommandDispatch := by
  intro s
  refine ⟨rfl, rfl, rfl, rfl, rfl, fun hf v h0 h15 => exec_wcr_cmd_of_faulted hf h0 h15, fun hf v h0 h1 h2 h3 h15 => ?_⟩
  rw [exec_wcr_cmd_of_reserved h0 h1 h2 h3 h15, reservedCommand_of_not_faulted hf]

/-- Settles O21: what a recorded fault refuses, and the two commands that do not ask for it. -/
theorem faultedRefusesCommands : Obligations.FaultedRefusesCommands := by
  intro s hf
  obtain ⟨hgen, henc, hrun⟩ := exec_command_of_faulted hf
  refine ⟨hgen, henc, hrun, fun v hv => ?_, ⟨_, exec_nop s⟩, ⟨_, exec_clr s⟩⟩
  have hword : v ≠ 0 ∧ v ≠ 15 := by
    constructor <;> (rintro rfl; exact absurd hv (by decide))
  exact exec_wcr_cmd_of_faulted hf hword.1 hword.2

end Sys2Proof.Machine
end

section
/-! PROOFS. `GEN` and `RUN` as commands: what a failed `VALIDATE` leaves, and that `RUN` is the two commands in sequence. -/

namespace Sys2Proof.Machine

theorem exec_run_of_not_faulted {s : State} (h : faulted s = false) : exec .run s = .next (run Config.params s) := by
  show execRun s = _
  rw [execRun, if_neg (by simp [h])]

theorem run_of_gen_faulted {p : Params} {s : State} (h : faulted (gen p s) = true) : run p s = gen p s := if_pos h

theorem run_of_gen_not_faulted {p : Params} {s : State} (h : faulted (gen p s) = false) : run p s = enc p (gen p s) :=
  if_neg (by simp [h])

theorem exec_validate (s : State) : exec .validate s = .next (validate Config.params s).state := rfl

/-- A `GEN` whose configuration fails is the fault entry alone (R97). -/
theorem gen_of_failedClause {p : Params} {s : State} {cause : Cause} {sub : BitVec 8} (h : failedClause p s = some (cause, sub)) :
    gen p s = endCommand (raiseFault false cause sub .left 0 s) := by
  simp only [gen, validate, h]

/-- Settles O24: `VALIDATE` changes nothing unless a clause fails, so here one does, and `GEN` ends with what it raised. -/
theorem genFaultLeavesTheRest : Obligations.GenFaultLeavesTheRest := by
  intro s t hs ht hf
  rw [exec_validate] at ht
  rcases validate_cases Config.params s with ⟨-, hv⟩ | ⟨cause, sub, hclause, hv⟩
  · rw [hv] at ht
    cases ht
    exact absurd (hf.symm.trans hs) (by decide)
  · rw [hv] at ht
    cases ht
    have hgen := gen_of_failedClause hclause
    have hrun : run Config.params s = endCommand (raiseFault false cause sub .left 0 s) := by
      rw [run_of_gen_faulted (by rw [hgen]; exact hf), hgen]
    rw [exec_gen_of_not_faulted hs, exec_run_of_not_faulted hs, hgen, hrun]
    exact ⟨rfl, rfl⟩

/-- Settles O53, by whether `GEN` faults. -/
theorem runIsGenThenEnc : Obligations.RunIsGenThenEnc := by
  intro s hs
  refine ⟨gen Config.params s, run Config.params s, exec_gen_of_not_faulted hs, exec_run_of_not_faulted hs,
    run_of_gen_faulted, fun hg => ?_⟩
  rw [run_of_gen_not_faulted hg, exec_enc_of_not_faulted hg]

end Sys2Proof.Machine
end

section
/-! PROOFS. `ENC` of a buffer whose cells can all be encoded: each sample appends its bytes, so those of the cell at address `a` stand at
`a x B` on (43_quantize_pack.md R152). -/

namespace Sys2Proof.Machine

/-- A drawn pattern of binary32 is a quiet NaN (R148). -/
theorem isQuietNan32_nan32 (p : Params) (k : Nat) : isQuietNan32 (nan32 p k) = true := by
  have hexp : (nan32 p k).extractLsb' 23 8 = 0xFF := by
    ext i hi
    rw [nan32, BitVec.getElem_extractLsb', BitVec.getLsbD_append, if_neg (by omega), BitVec.getLsbD_append,
      if_pos (by omega), show 23 + i - (1 + 22) = i by omega, BitVec.getLsbD_eq_getElem hi]
  have hquiet : (nan32 p k).getLsbD 22 = true := by
    rw [nan32, BitVec.getLsbD_append, if_pos (by decide), BitVec.getLsbD_append, if_neg (by decide)]
    rfl
  rw [isQuietNan32, hexp, hquiet]
  rfl

/-- The bytes of the cells at the addresses from `a` on, `k` of them, in the order of the addresses. -/
def SamplesAt (p : Params) (b : Nat) (m : Memory) (a k : Nat) (bytes : List Byte) : Prop :=
  bytes.length = k * (b / 8) ∧
  ∀ i v, i < k → Memory.read m (a + i) = some v →
    ∃ nan, isQuietNan32 nan = true ∧ ∀ o, o < b / 8 → bytes[i * (b / 8) + o]? = (sampleBytes p nan b (asF64 v))[o]?

theorem SamplesAt.nil (p : Params) (b : Nat) (m : Memory) (a : Nat) : SamplesAt p b m a 0 [] :=
  ⟨by simp, fun _ _ hi => absurd hi (Nat.not_lt_zero _)⟩

/-- The bytes of the one cell at an address. -/
theorem SamplesAt.singleton {p : Params} {b : Nat} (hb : legalDepth b = true) {m : Memory} {a : Nat} {v : Word}
    (hv : Memory.read m a = some v) (k : Nat) : SamplesAt p b m a 1 (sampleBytes p (nan32 p k) b (asF64 v)) := by
  refine ⟨by rw [length_sampleBytes p _ hb, Nat.one_mul], fun i v' hi hv' => ⟨_, isQuietNan32_nan32 p k, fun o _ => ?_⟩⟩
  obtain rfl : i = 0 := by omega
  rw [Nat.add_zero, hv] at hv'
  obtain rfl := Option.some.inj hv'
  rw [Nat.zero_mul, Nat.zero_add]

/-- Bytes of consecutive cells, one after the other. -/
theorem SamplesAt.append {p : Params} {b : Nat} {m : Memory} {a k k' : Nat} {bytes bytes' : List Byte}
    (h : SamplesAt p b m a k bytes) (h' : SamplesAt p b m (a + k) k' bytes') :
    SamplesAt p b m a (k + k') (bytes ++ bytes') := by
  obtain ⟨hlen, hsample⟩ := h
  obtain ⟨hlen', hsample'⟩ := h'
  refine ⟨by rw [List.length_append, hlen, hlen', Nat.add_mul], fun i v hi hv => ?_⟩
  rcases Nat.lt_or_ge i k with hik | hik
  · obtain ⟨nan, hnan, hbytes⟩ := hsample i v hik hv
    refine ⟨nan, hnan, fun o ho => ?_⟩
    have hin : i * (b / 8) + o < bytes.length := by
      calc i * (b / 8) + o < (i + 1) * (b / 8) := by rw [Nat.succ_mul]; omega
        _ ≤ k * (b / 8) := Nat.mul_le_mul_right _ hik
        _ = bytes.length := hlen.symm
    rw [List.getElem?_append_left hin, hbytes o ho]
  · obtain ⟨j, rfl⟩ := Nat.exists_eq_add_of_le hik
    obtain ⟨nan, hnan, hbytes⟩ := hsample' j v (by omega) (by rwa [Nat.add_assoc])
    refine ⟨nan, hnan, fun o ho => ?_⟩
    have hsplit : (k + j) * (b / 8) + o = bytes.length + (j * (b / 8) + o) := by rw [hlen, Nat.add_mul, Nat.add_assoc]
    rw [hsplit, List.getElem?_append_right (Nat.le_add_right _ _), Nat.add_sub_cancel_left, hbytes o ho]

/-- A piece of `ENC` that goes on, with the frame counter at `n` then, having appended the bytes of `k` cells from address `a` on. -/
def Appends (p : Params) (b : Nat) (s : State) (a k n : Nat) (f : Flow) : Prop :=
  ∃ (w : Work) (j : Nat) (bytes : List Byte), w.n = n ∧ SamplesAt p b s.sb a k bytes ∧
    f = .go { s with work := w, draws := j, out := s.out ++ bytes }

/-- Two pieces of `ENC` in sequence: the second starts where the first left the frame counter, on the same cells. -/
theorem Appends.bind {p : Params} {b : Nat} {s : State} {a k n k' n' : Nat} {f : Flow} {g : State → Flow}
    (hf : Appends p b s a k n f) (hg : ∀ t, t.work.n = n → t.sb = s.sb → Appends p b t (a + k) k' n' (g t)) :
    Appends p b s a (k + k') n' (f.bind g) := by
  obtain ⟨w, j, bytes, hn, hbytes, rfl⟩ := hf
  obtain ⟨w', j', bytes', hn', hbytes', hgt⟩ := hg { s with work := w, draws := j, out := s.out ++ bytes } hn rfl
  exact ⟨w', j', bytes ++ bytes', hn', hbytes.append hbytes', by rw [bind_go, hgt, List.append_assoc]⟩

/-- Whether a cell can be encoded is read off `SB`. -/
theorem encodable_of_sb_eq {s t : State} (h : t.sb = s.sb) (b n : Nat) (ch : Channel) : encodable t b n ch = encodable s b n ch := by
  simp only [encodable, readCell, h]

theorem encSample_appends (p : Params) {b : Nat} (hb : legalDepth b = true) {ch : Channel} {s : State}
    (h : encodable s b s.work.n ch = true) :
    Appends p b s (cellAddress s.work.n ch) 1 s.work.n (encSample p b ch s) := by
  rcases encSample_cases p hb ch s with ⟨hbad, -⟩ | ⟨-, v, hv, w, k, hn, hgo⟩
  · exact absurd (hbad.symm.trans h) (by decide)
  · exact ⟨w, k, _, hn, .singleton hb hv _, hgo⟩

/-- One frame is the cells at the addresses `2n` and `2n + 1`. -/
theorem encFrame_appends (p : Params) {b : Nat} (hb : legalDepth b = true) {s : State}
    (h : ∀ ch, encodable s b s.work.n ch = true) : Appends p b s (2 * s.work.n) 2 s.work.n (encFrame p b s) := by
  have hright : ∀ t, t.work.n = s.work.n → t.sb = s.sb →
      Appends p b t (cellAddress s.work.n .right) 1 s.work.n (encSample p b .right t) := by
    intro t hn hsb
    rw [← hn]
    exact encSample_appends p hb (by rw [encodable_of_sb_eq hsb, hn, h])
  exact (encSample_appends p hb (h .left)).bind hright

/-- The frame counter plays no part in what was appended. -/
theorem Appends.of_nextFrame {p : Params} {b : Nat} {s : State} {a k n : Nat} {f : Flow}
    (h : Appends p b (nextFrame s) a k n f) : Appends p b s a k n f := h

/-- Frames from the frame counter on, by induction on their number. -/
theorem encFrames_appends (p : Params) {b : Nat} (hb : legalDepth b = true) (k : Nat) (s : State)
    (h : ∀ n ch, n < s.work.n + k → encodable s b n ch = true) :
    Appends p b s (2 * s.work.n) (2 * k) (s.work.n + k) (encFrames p b k s) := by
  induction k generalizing s with
  | zero => exact ⟨s.work, s.draws, [], rfl, .nil p b s.sb _, by rw [encFrames, List.append_nil]⟩
  | succ k ih =>
    rw [Nat.mul_succ, Nat.add_comm (2 * k)]
    refine (encFrame_appends p hb fun ch => h _ ch (by omega)).bind fun t hn hsb => ?_
    have hcounter : (nextFrame t).work.n = s.work.n + 1 := congrArg (· + 1) hn
    have hnext := ih (nextFrame t) fun n ch hlt => by
      rw [encodable_of_sb_eq (show (nextFrame t).sb = s.sb from hsb)]
      exact h n ch (by omega)
    rw [hcounter, Nat.mul_succ, Nat.add_right_comm] at hnext
    exact hnext.of_nextFrame

/-- The flag that a stream of `ENC` sets, which it cleared when it emptied the output. -/
theorem withOutValid_withoutOutValid (w : Word) : withOutValid (withoutOutValid w) = w ||| 2 := by
  ext i hi
  rw [withOutValid, withoutOutValid, BitVec.getElem_or, BitVec.getElem_and, BitVec.getElem_not, BitVec.getElem_or]
  cases w[i] <;> cases (2 : Word)[i] <;> rfl

/-- `ENC` after it has emptied the output, on a buffer whose cells can all be encoded. -/
theorem encBody_of_encodable {p : Params} {s : State} (hb : legalDepth (bitDepth s) = true) (hlen : s.sblen.toNat ≤ sbDepth p)
    (h : ∀ n ch, n < s.sblen.toNat → encodable s (bitDepth s) n ch = true) :
    ∃ (w : Work) (j : Nat) (bytes : List Byte), SamplesAt p (bitDepth s) s.sb 0 (2 * s.sblen.toNat) bytes ∧
      encBody p s = .go (finishEnc (bitDepth s) { s with work := w, draws := j, out := s.out ++ bytes }) := by
  have hb' : bitDepth s = 16 ∨ bitDepth s = 24 ∨ bitDepth s = 32 := by simpa [legalDepth, or_assoc] using hb
  obtain ⟨w, j, bytes, -, hbytes, hgo⟩ := encFrames_appends p hb s.sblen.toNat { s with work := { s.work with n := 0 } }
    fun n ch hn => h n ch (by simpa using hn)
  refine ⟨w, j, bytes, hbytes, ?_⟩
  simp only [encBody]
  rw [if_pos hb', if_neg (not_lt.2 hlen), hgo, bind_go]

/-- `ENC` of a buffer whose cells can all be encoded (R152, R153). -/
theorem enc_of_encodable {p : Params} {s : State} (hb : legalDepth (bitDepth s) = true) (hlen : s.sblen.toNat ≤ sbDepth p)
    (h : ∀ n ch, n < s.sblen.toNat → encodable s (bitDepth s) n ch = true) :
    ∃ (j : Nat) (bytes : List Byte), SamplesAt p (bitDepth s) s.sb 0 (2 * s.sblen.toNat) bytes ∧
      enc p s = { s with
        out := bytes, outlen := BitVec.ofNat 64 (s.sblen.toNat * 2 * (bitDepth s / 8)), status := s.status ||| 2
        work := Work.idle, draws := j } := by
  obtain ⟨w, j, bytes, hbytes, hbody⟩ := encBody_of_encodable (s := emptyOut s) hb hlen h
  refine ⟨j, bytes, hbytes, ?_⟩
  rw [enc, hbody, ← withOutValid_withoutOutValid]
  rfl

/-- Settles O49: sample `(n, ch)` is the cell at address `2n + ch`. -/
theorem encPacksTheBuffer : Obligations.EncPacksTheBuffer := by
  intro s hs hb hlen h
  obtain ⟨j, bytes, ⟨hcount, hsample⟩, henc⟩ := enc_of_encodable hb hlen h
  refine ⟨_, exec_enc_of_not_faulted hs, ?_⟩
  rw [henc]
  refine ⟨rfl, by rw [hcount]; ring, fun n ch v hn hv => hsample _ v ?_ ?_⟩
  · exact cellAddress_lt ch hn
  · rwa [Nat.zero_add]

end Sys2Proof.Machine
end

section
/-! PROOFS. The counts of a configuration that passes `VALIDATE` (41_synth_nco.md R110, R112, R113): they are whole numbers of frames within
the sweep, so they fit their registers. -/

namespace Sys2Proof.Machine

/-! ### Data that are not negative -/

theorem finite_or_inf_of_nonneg {x : F64} (h : fge x posZero = true) : isFinite x = true ∨ x = .inf false := by
  cases x with
  | nan => exact absurd h (by decide)
  | inf neg =>
    cases neg with
    | true => exact absurd h (by decide)
    | false => exact .inr rfl
  | fin neg m e => exact .inl rfl

theorem fgt_inf_of_finite {y : F64} (hy : isFinite y = true) : fgt (.inf false) y = true := (comparisons_inf hy).2.2.1

theorem fge_posZero_iff {x : F64} (hx : isFinite x = true) : fge x posZero = true ↔ 0 ≤ value x := by
  rw [fge, fle_iff_value isFinite_posZero hx, value_posZero]

/-- A datum that is not negative and does not exceed a finite one is finite, and does not exceed it in value. -/
theorem finite_of_nonneg_of_not_fgt {x y : F64} (h0 : fge x posZero = true) (hy : isFinite y = true) (h : fgt x y = false) :
    isFinite x = true ∧ value x ≤ value y := by
  rcases finite_or_inf_of_nonneg h0 with hx | rfl
  · refine ⟨hx, not_lt.1 fun hlt => ?_⟩
    exact absurd (h.symm.trans ((flt_iff_value hy hx).2 hlt)) (by decide)
  · exact absurd (h.symm.trans (fgt_inf_of_finite hy)) (by decide)

theorem fge_of_fgt {x y : F64} (h : fgt x y = true) : fge x y = true := by
  rw [fge, fle, show flt y x = true from h, Bool.true_or]

/-- A datum whose sign is not set is not negative. -/
theorem fge_posZero_of_not_isNeg {x : F64} (hnan : isNaN x = false) (hneg : isNeg x = false) : fge x posZero = true := by
  cases x with
  | nan => cases hnan
  | inf neg => obtain rfl : neg = false := hneg; rfl
  | fin neg m e =>
    obtain rfl : neg = false := hneg
    have := two_zpow_pos e
    rw [fge_posZero_iff rfl]
    simp only [value, signedInt, Bool.false_eq_true, if_false]
    positivity

theorem isNeg_of_value_pos {x : F64} (hx : isFinite x = true) (h : 0 < value x) : isNeg x = false :=
  isNeg_of_fgt_posZero ((flt_iff_value isFinite_posZero hx).2 (by rwa [value_posZero]))

/-- A product of finite data that are not negative is not negative, whatever the signs of zeros are. -/
theorem fge_fmul_posZero {a b : F64} (ha : isFinite a = true) (hb : isFinite b = true) (ha0 : fge a posZero = true)
    (hb0 : fge b posZero = true) : fge (fmul a b) posZero = true := by
  obtain ⟨na, ma, ea, rfl⟩ := exists_fin_of_isFinite ha
  obtain ⟨nb, mb, eb, rfl⟩ := exists_fin_of_isFinite hb
  rw [fmul, round64]
  by_cases hm : ma * mb = 0
  · rw [hm, roundTo_zero, fge_posZero_iff rfl]
    exact (value_eq_zero_iff.2 rfl).ge
  · have hsign : ∀ {neg m e}, fge (.fin neg m e) posZero = true → m ≠ 0 → neg = false := fun h0 hne =>
      isNeg_of_value_pos rfl (lt_of_le_of_ne ((fge_posZero_iff rfl).1 h0) (Ne.symm (value_eq_zero_iff.not.2 hne)))
    obtain ⟨hma, hmb⟩ := Nat.mul_ne_zero_iff.1 hm
    rw [hsign ha0 hma, hsign hb0 hmb]
    obtain ⟨hneg, hnan⟩ := isNeg_roundTo 53 (-1074) 971 (false != false) (ma * mb) 1 (ea + eb)
    exact fge_posZero_of_not_isNeg hnan hneg

/-! ### Doubling -/

theorem two_eq : two = .fin false (2 ^ 52) (-51) := by decide +kernel

/-- Twice a datum of binary64 is one too, unless it is too large, so doubling is exact. -/
theorem value_fmul_two {x : F64} (h : canonical x) (hx : isFinite x = true) (hf : isFinite (fmul two x) = true) :
    value (fmul two x) = 2 * value x := by
  obtain ⟨neg, m, e, rfl⟩ := exists_fin_of_isFinite hx
  obtain ⟨hm, he, -⟩ := h
  have hexact : ((2 ^ 52 * m : Nat) : ℚ) / (1 : Nat) * 2 ^ (-51 + e) = m * 2 ^ (e + 1) := by
    rw [show e + 1 = 52 + (-51 + e) by ring, zpow_add₀ (by norm_num) 52]
    push_cast
    norm_num
    ring
  have hmul : fmul two (.fin neg m e) = roundTo 53 (-1074) 971 neg (2 ^ 52 * m) 1 (-51 + e) := by
    rw [two_eq, fmul, round64, Bool.false_bne]
  rw [hmul] at hf ⊢
  obtain ⟨-, hnear⟩ := roundingIsNearestEven 53 (-1074) 971 neg (2 ^ 52 * m) 1 (-51 + e) (by norm_num) (by norm_num) one_pos
  obtain ⟨m', q', hround, -, -, -, hbest⟩ := hnear fun hinf => by rw [hinf] at hf; cases hf
  have hdist := (hbest m (e + 1) hm (by omega)).1
  rw [hexact, sub_self, abs_zero] at hdist
  have hvalue : (m' : ℚ) * 2 ^ q' = m * 2 ^ (e + 1) := sub_eq_zero.1 (abs_nonpos_iff.1 hdist)
  rw [zpow_add_one₀ (by norm_num)] at hvalue
  rw [hround]
  cases neg <;> simp only [value, signedInt, Bool.false_eq_true, if_true, if_false] <;> push_cast <;> linarith

theorem ffloor_canonical {x : F64} (h : canonical x) : canonical (ffloor x) := by
  cases x with
  | nan => exact h
  | inf neg => exact h
  | fin neg m e =>
    rw [ffloor]
    split
    · exact h
    · exact round64_canonical neg one_pos 0

/-! ### The counts -/

theorem isFinite_fadeSeconds : isFinite fadeSeconds = true := by decide +kernel

theorem fge_fadeSeconds_posZero : fge fadeSeconds posZero = true := by decide +kernel

theorem isFinite_two : isFinite two = true := by decide +kernel

theorem fge_two_posZero : fge two posZero = true := by decide +kernel

namespace InputContract

variable {p : Params} {s : State} (h : InputContract p s)
include h

/-- `N` is not negative (R110). -/
theorem countN_nonneg : 0 ≤ countN p s := by
  have hprod := fge_fmul_posZero h.sampleRate.1 h.duration.1 (fge_of_fgt h.sampleRate.2) (fge_of_fgt h.duration.2)
  rw [h.countN_eq, Int.floor_nonneg]
  exact (fge_posZero_iff h.product_lt.1).1 hprod

/-- `N` as a datum is exact. -/
theorem u2f_countN : isFinite (u2f (countN p s)) = true ∧ value (u2f (countN p s)) = countN p s := by
  obtain ⟨n, hn⟩ := Int.eq_ofNat_of_zero_le h.countN_nonneg
  have hle := h.countN_le
  have hdepth := (sbDepth_bounds p).2
  obtain ⟨m, e, hu, hval⟩ := value_u2f (n := n) (by omega)
  rw [hn, hu]
  exact ⟨rfl, by simpa using hval⟩

/-- The delay is cut to the sweep, or is below `N` frames and rounded to a whole one (R112). -/
theorem countD_bounds : 0 ≤ countD p s ∧ countD p s ≤ countN p s := by
  obtain ⟨hNfinite, hNvalue⟩ := h.u2f_countN
  have hprod := fge_fmul_posZero h.delay.1 h.sampleRate.1 h.delay.2 (fge_of_fgt h.sampleRate.2)
  cases hcut : fge (fmul (asF64 s.delay) (asF64 s.sampleRate)) (u2f (countN p s)) with
  | true =>
    rw [countD, if_pos hcut]
    exact ⟨h.countN_nonneg, le_rfl⟩
  | false =>
    have hnotgt : fgt (fmul (asF64 s.delay) (asF64 s.sampleRate)) (u2f (countN p s)) = false :=
      Bool.eq_false_iff.2 fun hgt => absurd (hcut.symm.trans (fge_of_fgt hgt)) (by decide)
    obtain ⟨hfinite, hle⟩ := finite_of_nonneg_of_not_fgt hprod hNfinite hnotgt
    have hnonneg := (fge_posZero_iff hfinite).1 hprod
    obtain ⟨i, hi, hnear, -⟩ := frne_isInteger (fmul_canonical _ _) hfinite
    obtain ⟨hlow, hhigh⟩ := abs_le.1 hnear
    rw [hNvalue] at hle
    rw [countD, hcut, if_neg (by decide), hi.f2int p]
    have hi0 : (-1 : ℚ) < i := by linarith
    have hiN : (i : ℚ) < countN p s + 1 := by linarith
    exact ⟨by exact_mod_cast hi0, Int.lt_add_one_iff.1 (by exact_mod_cast hiN)⟩

/-- Where two fade windows fit the sweep, the product of `FADE_SECONDS` and the rate is finite and its floor is exact. -/
theorem two_mul_floor_fade_le
    (hfit : fgt (fmul two (ffloor (fmul fadeSeconds (asF64 s.sampleRate)))) (u2f (countN p s)) = false) :
    ∃ i : Int, f2int p (ffloor (fmul fadeSeconds (asF64 s.sampleRate))) = i ∧ 0 ≤ i ∧ 2 * i ≤ countN p s := by
  obtain ⟨hNfinite, hNvalue⟩ := h.u2f_countN
  have hprod := fge_fmul_posZero isFinite_fadeSeconds h.sampleRate.1 fge_fadeSeconds_posZero (fge_of_fgt h.sampleRate.2)
  have hcanonical := fmul_canonical fadeSeconds (asF64 s.sampleRate)
  generalize fmul fadeSeconds (asF64 s.sampleRate) = y at *
  rcases finite_or_inf_of_nonneg hprod with hy | rfl
  · have hfloor := ffloor_isInteger hcanonical hy
    have hfloor0 : fge (ffloor y) posZero = true := by
      rw [fge_posZero_iff hfloor.isFinite, hfloor.value]
      exact_mod_cast Int.floor_nonneg.2 ((fge_posZero_iff hy).1 hprod)
    obtain ⟨hfinite, hle⟩ := finite_of_nonneg_of_not_fgt
      (fge_fmul_posZero isFinite_two hfloor.isFinite fge_two_posZero hfloor0) hNfinite hfit
    rw [value_fmul_two (ffloor_canonical hcanonical) hfloor.isFinite hfinite, hfloor.value, hNvalue] at hle
    exact ⟨⌊value y⌋, hfloor.f2int p, Int.floor_nonneg.2 ((fge_posZero_iff hy).1 hprod), by exact_mod_cast hle⟩
  · have hinf : fmul two (ffloor (.inf false)) = .inf false := by decide +kernel
    rw [hinf, fgt_inf_of_finite hNfinite] at hfit
    cases hfit

/-- The fade windows are whole frames that the sweep has room for twice, or a quarter of it (R113). -/
theorem countF_bounds : 0 ≤ countF p s ∧ 2 * countF p s ≤ countN p s := by
  have hN := h.countN_nonneg
  cases hcut : fgt (fmul two (ffloor (fmul fadeSeconds (asF64 s.sampleRate)))) (u2f (countN p s)) with
  | true =>
    rw [countF, if_pos hcut, Int.fdiv_eq_ediv_of_nonneg _ (by decide)]
    omega
  | false =>
    obtain ⟨i, hi, hnonneg, hle⟩ := h.two_mul_floor_fade_le hcut
    rw [countF, hcut, if_neg (by decide), hi]
    exact ⟨hnonneg, hle⟩

end InputContract

/-- A count of frames as its register's word (00_scope.md R11). -/
theorem countWord_eq_ofInt {i : Int} (h0 : 0 ≤ i) (h : i < 2 ^ 32) : countWord i = BitVec.ofInt 64 i := by
  obtain ⟨n, rfl⟩ := Int.eq_ofNat_of_zero_le h0
  apply BitVec.eq_of_toNat_eq
  rw [countWord, BitVec.toNat_setWidth, BitVec.ofInt_natCast, BitVec.ofInt_natCast, BitVec.toNat_ofNat,
    BitVec.toNat_ofNat, Nat.mod_eq_of_lt (b := 2 ^ 32) (by omega)]

end Sys2Proof.Machine
end

section
/-! PROOFS. What `GEN` stores: the derivations leave the closed form's counts and rates in the temporaries, each frame keeps them and stores the
closed form's two values, and the frames of the sweep fill the cells below `2N`, one after the other. -/

namespace Sys2Proof.Machine

/-! ### The derivations -/

/-- The temporaries hold what the closed form says of the configuration in `s`; `DT` is determined where there is a frame. -/
structure SweepReady (p : Params) (s : State) (w : Work) : Prop where
  bigN : w.bigN = countN p s
  bigD : w.bigD = countD p s
  bigF : w.bigF = countF p s
  dt : 0 < countN p s → w.dt = stepDt p s
  kl : w.kl = configuredRate p s .left
  kr : w.kr = configuredRate p s .right

theorem deriveN_eq (p : Params) (s : State) : deriveN p s = { s with work := { s.work with bigN := countN p s } } := rfl

theorem deriveDt_eq {p : Params} {s : State} (h : s.work.bigN = countN p s) : deriveDt p s = { s with
    work := { s.work with dt := if 0 < countN p s then stepDt p s else asF64 p.dtOpen } } := by
  rw [deriveDt, h, stepDt]

theorem deriveD_eq {p : Params} {s : State} (h : s.work.bigN = countN p s) :
    deriveD p s = { s with work := { s.work with bigD := countD p s } } := by
  simp only [deriveD, countD, h]

theorem deriveF_eq {p : Params} {s : State} (h : s.work.bigN = countN p s) :
    deriveF p s = { s with work := { s.work with bigF := countF p s } } := by
  simp only [deriveF, countF, h]

/-- The rates of both channels, whichever operation `CTRL.SWEEP` selects (R114, R115). -/
theorem deriveRate_eq (p : Params) (s : State) : deriveRate p s = { s with
    work := { s.work with kl := configuredRate p s .left, kr := configuredRate p s .right } } := by
  rw [deriveRate, configuredRate, configuredRate]
  cases sweepLog s <;> rfl

/-- The derivations of `GEN` set temporaries only, to the closed form's values. -/
theorem genDerive_ready (p : Params) (s : State) : ∃ w : Work, SweepReady p s w ∧ genDerive p s = { s with work := w } := by
  rw [genDerive, deriveN_eq, deriveDt_eq rfl, deriveD_eq rfl, deriveF_eq rfl, deriveRate_eq]
  exact ⟨_, { bigN := rfl, bigD := rfl, bigF := rfl, dt := fun h => if_pos h, kl := rfl, kr := rfl }, rfl⟩

/-! ### One frame -/

/-- The sine of a channel at its time, whichever operation `CTRL.SWEEP` selects (R118, R119). -/
theorem phaseOp_eq (p : Params) (ch : Channel) (s : State) : phaseOp p ch s = { s with
    work := setSine s.work (if sweepLog s then phaseLogValue p (startFrequency s ch) (sweepRate s ch) (channelTime s ch)
      else phaseLinValue p (startFrequency s ch) (sweepRate s ch) (channelTime s ch)) ch } := by
  rw [phaseOp]
  cases sweepLog s <;> rfl

/-- One frame computes the closed form's values of both channels (R97). -/
theorem genFrame_values {p : Params} {s : State} (h : SweepReady p s s.work) (hN : 0 < countN p s) :
    (genFrame p s).work.vL = frameValue p s s.work.n .left ∧ (genFrame p s).work.vR = frameValue p s s.work.n .right := by
  have hleft : frameMuted p s s.work.n .left =
      if sweepLog s then phaseLogValue p (startFrequency s .left) s.work.kl (fmul (u2f s.work.n) s.work.dt)
      else phaseLinValue p (startFrequency s .left) s.work.kl (fmul (u2f s.work.n) s.work.dt) := by
    rw [h.kl, h.dt hN]
    rfl
  have hright : frameMuted p s s.work.n .right = if (s.work.n : Int) < s.work.bigD then posZero else
      if sweepLog s then
        phaseLogValue p (startFrequency s .right) s.work.kr (shiftedTime (asF64 s.delay) (fmul (u2f s.work.n) s.work.dt))
      else phaseLinValue p (startFrequency s .right) s.work.kr (shiftedTime (asF64 s.delay) (fmul (u2f s.work.n) s.work.dt)) := by
    rw [h.kr, h.dt hN, h.bigD]
    rfl
  rw [frameValue, frameValue, hleft, hright, ← h.bigN, ← h.bigF]
  simp only [genFrame, phaseOp_eq, frameStore_work, vol, setFinal, fadedValue, fadeApply, setFaded, sineValue, fade, mute, setSine,
    channelTime, sweepRate, startFrequency, sweepLog, tshift, timeOp]
  exact ⟨rfl, rfl⟩

/-! ### The frames of the sweep -/

/-- `m'` is `m` with the `k` frames from frame `i` on stored: each of their cells holds the pattern of the closed form's value, and every
other cell is as before. -/
structure FramesStored (p : Params) (s : State) (i k : Nat) (m m' : Memory) : Prop where
  stored : ∀ n ch, i ≤ n → n < i + k → ∃ d, Memory.read m' (cellAddress n ch) = some (storedPattern p d (frameValue p s n ch))
  others : ∀ a, a < 2 * i ∨ 2 * (i + k) ≤ a → Memory.read m' a = Memory.read m a

theorem FramesStored.zero (p : Params) (s : State) (i : Nat) (m : Memory) : FramesStored p s i 0 m m where
  stored _ _ hi hlt := absurd hlt (not_lt.2 hi)
  others _ _ := rfl

/-- The two stores of one frame. -/
theorem FramesStored.one (p : Params) (s : State) (n d d' : Nat) (m : Memory) :
    FramesStored p s n 1 m (Memory.write
      (Memory.write m (cellAddress n .left) (storedPattern p d (frameValue p s n .left)))
      (cellAddress n .right) (storedPattern p d' (frameValue p s n .right))) where
  stored n' ch hle hlt := by
    obtain rfl : n' = n := by omega
    cases ch with
    | left =>
      refine ⟨d, ?_⟩
      rw [read_write_other _ _ (by simp [cellAddress, channelIndex]), read_write_same]
    | right => exact ⟨d', read_write_same _ _ _⟩
  others a ha := by
    have hleft : a ≠ cellAddress n .left := by simp only [cellAddress, channelIndex]; omega
    have hright : a ≠ cellAddress n .right := by simp only [cellAddress, channelIndex]; omega
    rw [read_write_other _ _ hright, read_write_other _ _ hleft]

/-- Frames after frames: the later ones leave the cells of the earlier ones. -/
theorem FramesStored.append {p : Params} {s : State} {i k k' : Nat} {m m' m'' : Memory} (h : FramesStored p s i k m m')
    (h' : FramesStored p s (i + k) k' m' m'') : FramesStored p s i (k + k') m m'' where
  stored n ch hle hlt := by
    rcases Nat.lt_or_ge n (i + k) with hfirst | hsecond
    · obtain ⟨d, hd⟩ := h.stored n ch hle hfirst
      exact ⟨d, (h'.others _ (.inl (cellAddress_lt ch hfirst))).trans hd⟩
    · exact h'.stored n ch hsecond (by omega)
  others a ha := (h'.others a (by omega)).trans (h.others a (by omega))

/-- One frame stores the closed form's values at the frame counter and keeps what the next frame needs. -/
theorem genFrame_stored {p : Params} {s : State} (hN : 0 < countN p s) {w : Work} (h : SweepReady p s w) (j : Nat) (m : Memory) :
    ∃ (w' : Work) (m' : Memory), w'.n = w.n ∧ SweepReady p s w' ∧ FramesStored p s w.n 1 m m' ∧
      genFrame p { s with work := w, draws := j, sb := m } = { s with work := w', draws := j + 2, sb := m' } := by
  obtain ⟨w', hn, hbigN, hbigD, hbigF, hdt, hkl, hkr, hframe⟩ := genFrame_spec p { s with work := w, draws := j, sb := m }
  have hready : SweepReady p { s with work := w, draws := j, sb := m } w := { h with }
  obtain ⟨hleft, hright⟩ := genFrame_values (s := { s with work := w, draws := j, sb := m }) hready hN
  rw [hframe] at hleft hright
  have hvL : w'.vL = frameValue p s w.n .left := hleft
  have hvR : w'.vR = frameValue p s w.n .right := hright
  refine ⟨w', _, hn, ?_, FramesStored.one p s w.n j (j + 1) m, ?_⟩
  · exact { bigN := hbigN.trans h.bigN, bigD := hbigD.trans h.bigD, bigF := hbigF.trans h.bigF
            dt := fun hpos => hdt.trans (h.dt hpos), kl := hkl.trans h.kl, kr := hkr.trans h.kr }
  · rw [hframe, hvL, hvR]

/-- The frames of a `GEN` from the frame counter on, by induction on their number: of the configuration in `s` only the registers matter, so
each frame starts with other temporaries, draws and cells. -/
theorem genFrames_stored {p : Params} {s : State} (k : Nat) (hN : 0 < k → 0 < countN p s) {w : Work} (h : SweepReady p s w) (j : Nat)
    (m : Memory) : ∃ (w' : Work) (j' : Nat) (m' : Memory), FramesStored p s w.n k m m' ∧
      genFrames p k { s with work := w, draws := j, sb := m } = { s with work := w', draws := j', sb := m' } := by
  induction k generalizing w j m with
  | zero => exact ⟨w, j, m, .zero p s w.n m, rfl⟩
  | succ k ih =>
    have hpos := hN k.succ_pos
    obtain ⟨w', m', hn, hready, hfirst, hframe⟩ := genFrame_stored hpos h j m
    obtain ⟨w'', j'', m'', hrest, hframes⟩ := ih (fun _ => hpos) (w := { w' with n := w'.n + 1 }) { hready with } (j + 2) m'
    rw [hn] at hrest
    refine ⟨w'', j'', m'', ?_, ?_⟩
    · rw [Nat.add_comm k 1]
      exact hfirst.append hrest
    · rw [genFrames, hframe]
      exact hframes

/-! ### The command -/

/-- The state with the counts of its configuration in their registers. -/
def withCounts (p : Params) (s : State) : State :=
  { s with
    sblen := BitVec.ofInt 64 (countN p s), dlen := BitVec.ofInt 64 (countD p s), flen := BitVec.ofInt 64 (countF p s) }

/-- Of a configuration that passes, the counts fit their registers, so `GEN` latches them as they are (R97). -/
theorem latchCounts_eq {p : Params} {s : State} (hc : InputContract p s) {w : Work} (h : SweepReady p s w) :
    latchCounts { s with work := w } = { withCounts p s with work := { w with n := 0 } } := by
  have hdepth := (sbDepth_bounds p).2
  have hN0 := hc.countN_nonneg
  have hN := hc.countN_le
  obtain ⟨hD0, hD⟩ := hc.countD_bounds
  obtain ⟨hF0, hF⟩ := hc.countF_bounds
  simp only [latchCounts, h.bigN, h.bigD, h.bigF, countWord_eq_ofInt hN0 (by omega), countWord_eq_ofInt hD0 (by omega),
    countWord_eq_ofInt hF0 (by omega), withCounts]

/-- A `GEN` whose configuration passes sets the three counts and stores the frames of the sweep (R97). -/
theorem gen_stores {p : Params} {s : State} (h : failedClause p s = none) :
    ∃ (j : Nat) (m : Memory), FramesStored p s 0 (countN p s).toNat s.sb m ∧
      gen p s = { withCounts p s with sb := m, draws := j, work := Work.idle } := by
  obtain ⟨w, hready, hderive⟩ := genDerive_ready p s
  have hlatch := latchCounts_eq (inputContract_of_failedClause_eq_none h) hready
  have hready' : SweepReady p (withCounts p s) { w with n := 0 } := { hready with }
  obtain ⟨w', j, m, ⟨hstored, hothers⟩, hframes⟩ :=
    genFrames_stored (s := withCounts p s) (countN p s).toNat (fun hk => Int.pos_iff_toNat_pos.2 hk) hready' s.draws s.sb
  have hbody : genBody p s = { withCounts p s with work := w', draws := j, sb := m } := by
    rw [← hready.bigN] at hframes
    rw [genBody, hderive, hlatch]
    exact hframes
  refine ⟨j, m, ⟨hstored, hothers⟩, ?_⟩
  simp only [gen, validate, h, hbody]
  rfl

theorem frameValue_canonical (p : Params) (s : State) (n : Nat) (ch : Channel) : canonical (frameValue p s n ch) :=
  fmul_canonical _ _

/-- The pattern of a value that is not a NaN is no draw's. -/
theorem storedPattern_of_not_nan (p : Params) (k : Nat) {v : F64} (h : isNaN v = false) : storedPattern p k v = bitsF64 0 v := by
  cases v with
  | nan => cases h
  | inf neg => rfl
  | fin neg m e => rfl

/-- Settles O25: frame `n` of channel `ch` is stored at address `2n + ch`, as the pattern of its value, drawn for a NaN only. -/
theorem genStoresTheSweep : Obligations.GenStoresTheSweep := by
  intro s hs h
  obtain ⟨j, m, hframes, hgen⟩ := gen_stores h
  refine ⟨_, exec_gen_of_not_faulted hs, ?_⟩
  rw [hgen]
  refine ⟨rfl, fun n ch hn => ?_, fun a ha => hframes.others a (.inr (by rwa [Nat.zero_add]))⟩
  obtain ⟨d, hd⟩ := hframes.stored n ch n.zero_le (by rwa [Nat.zero_add])
  refine ⟨fun hnan => ?_, fun hnan => ⟨_, hd, ?_⟩⟩
  · rw [← storedPattern_of_not_nan Config.params d hnan]
    exact hd
  · rwa [asF64_storedPattern _ _ (frameValue_canonical _ _ _ _)]

end Sys2Proof.Machine
end

section
/-! PROOFS. The whole pipeline: a `RUN` of a valid configuration encodes the cells that its `GEN` stored. -/

namespace Sys2Proof.Machine

/-- A cell that `GEN` stored reads back as the closed form's value, whatever was drawn. -/
theorem FramesStored.read {p : Params} {s : State} {k : Nat} {m m' : Memory} (h : FramesStored p s 0 k m m') {n : Nat} (hn : n < k)
    (ch : Channel) : ∃ v, Memory.read m' (cellAddress n ch) = some v ∧ asF64 v = frameValue p s n ch := by
  obtain ⟨d, hd⟩ := h.stored n ch n.zero_le (by rwa [Nat.zero_add])
  exact ⟨_, hd, asF64_storedPattern p d (frameValue_canonical p s n ch)⟩

/-- A cell with a value can be encoded at depth 32, and at an integer depth if the value is not a NaN. -/
theorem encodable_of_readCell {s : State} {n : Nat} {ch : Channel} {v : Word} (hv : readCell s n ch = some v) {b : Nat}
    (h : b = 32 ∨ isNaN (asF64 v) = false) : encodable s b n ch = true := by
  rw [encodable, hv]
  rcases h with rfl | hnan
  · rfl
  · simp [hnan]

/-- `SBLEN` after a `GEN` that passed counts the frames of the sweep. -/
theorem withCounts_sblen_toNat {p : Params} {s : State} (h : InputContract p s) :
    (withCounts p s).sblen.toNat = (countN p s).toNat := by
  have hdepth := (sbDepth_bounds p).2
  have hN0 := h.countN_nonneg
  have hN := h.countN_le
  show (BitVec.ofInt 64 (countN p s)).toNat = _
  rw [BitVec.toNat_ofInt, Int.emod_eq_of_lt hN0 (by omega)]

/-- A `RUN` of a configuration that passes, at a depth that can encode its values: the frames of the sweep in `SB`, and their bytes in
`OUT` (R97 to R99). -/
theorem run_of_valid {p : Params} {s : State} (hs : faulted s = false) (h : failedClause p s = none)
    (hb : legalDepth (bitDepth s) = true)
    (hnan : ∀ n ch, n < (countN p s).toNat → bitDepth s = 32 ∨ isNaN (frameValue p s n ch) = false) :
    ∃ (j : Nat) (m : Memory) (bytes : List Byte), FramesStored p s 0 (countN p s).toNat s.sb m ∧
      SamplesAt p (bitDepth s) m 0 (2 * (countN p s).toNat) bytes ∧
      run p s = { withCounts p s with
        sb := m, out := bytes, outlen := BitVec.ofNat 64 ((countN p s).toNat * 2 * (bitDepth s / 8))
        status := s.status ||| 2, draws := j, work := Work.idle } := by
  have hc := inputContract_of_failedClause_eq_none h
  obtain ⟨d, m, hframes, hgen⟩ := gen_stores h
  have hdepth : bitDepth (gen p s) = bitDepth s := by rw [hgen]; rfl
  have hsblen : (gen p s).sblen.toNat = (countN p s).toNat := by rw [hgen]; exact withCounts_sblen_toNat hc
  have hlen : (gen p s).sblen.toNat ≤ sbDepth p := by rw [hsblen]; exact Int.toNat_le.2 hc.countN_le
  have hcells : ∀ n ch, n < (gen p s).sblen.toNat → encodable (gen p s) (bitDepth (gen p s)) n ch = true := by
    intro n ch hn
    rw [hsblen] at hn
    obtain ⟨v, hv, hvalue⟩ := hframes.read hn ch
    rw [hdepth]
    exact encodable_of_readCell (v := v) (by rw [hgen]; exact hv) (by rw [hvalue]; exact hnan n ch hn)
  obtain ⟨j, bytes, hbytes, henc⟩ := enc_of_encodable (hdepth ▸ hb) hlen hcells
  have hfaulted : faulted (gen p s) = false := by rw [hgen]; exact hs
  rw [hdepth, hsblen] at hbytes henc
  rw [hgen] at hbytes
  refine ⟨j, m, bytes, hframes, hbytes, ?_⟩
  rw [run_of_gen_not_faulted hfaulted, henc, hgen]
  rfl

/-- Settles O54: the bytes at the place of sample `(n, ch)` are those of the cell that `GEN` stored there, which reads as the closed form's
value. -/
theorem runProducesTheStream : Obligations.RunProducesTheStream := by
  intro s hs h hb hnan
  obtain ⟨j, m, bytes, hframes, ⟨hcount, hsample⟩, hrun⟩ := run_of_valid hs h hb hnan
  have hc := inputContract_of_failedClause_eq_none h
  have hfits := stream_fits hb (Int.toNat_le.2 hc.countN_le)
  have hdepth := (sbDepth_bounds Config.params).2
  have houtlen : (BitVec.ofNat 64 ((countN Config.params s).toNat * 2 * (bitDepth s / 8))).toNat =
      (countN Config.params s).toNat * 2 * (bitDepth s / 8) := by
    rw [BitVec.toNat_ofNat, Nat.mod_eq_of_lt (by omega)]
  refine ⟨_, exec_run_of_not_faulted hs, ?_⟩
  rw [hrun]
  refine ⟨by simp [outValid], ?_, rfl, rfl, houtlen, ?_, fun n ch hn => ?_⟩
  · simpa [faulted] using hs
  · rw [houtlen, hcount]; ring
  · obtain ⟨v, hv, hvalue⟩ := hframes.read hn ch
    rw [← hvalue]
    exact hsample _ v (cellAddress_lt ch hn) (by rwa [Nat.zero_add])

end Sys2Proof.Machine
end

section
/-! PROOFS. The NCO (41_synth_nco.md R110 to R119): the bounds of a valid configuration's counts together, the sweep rates, the time axis and the
sine of the phase. -/

namespace Sys2Proof.Machine

/-- Settles O26: a configuration in which no clause fails meets the input contract, which bounds each count. -/
theorem genCountsInRange : Obligations.GenCountsInRange := by
  intro s h
  have hc := inputContract_of_failedClause_eq_none h
  obtain ⟨hD0, hD⟩ := hc.countD_bounds
  obtain ⟨hF0, hF⟩ := hc.countF_bounds
  exact ⟨hc.countN_nonneg, hc.countN_le, hD0, hD, hF0, hF⟩

/-! ### The sweep rates -/

theorem exec_deriveKlin (s : State) : exec .deriveKlin s = .next (deriveKlin s) := rfl

theorem exec_deriveKlog (s : State) : exec .deriveKlog s = .next (deriveKlog Config.params s) := rfl

/-- Settles O31: each operation is its `derive` function, which is the expression tree of R114 or R115. -/
theorem sweepRates : Obligations.SweepRates := fun s => ⟨exec_deriveKlin s, exec_deriveKlog s⟩

/-! ### The time axis -/

theorem exec_time (s : State) : exec .time s = .next (timeOp s) := rfl

theorem exec_tshift (s : State) :
    exec .tshift s = .next { s with work := { s.work with tR := shiftedTime (asF64 s.delay) s.work.t } } := rfl

/-- Before the delay has passed the right channel stands at time zero (R117). -/
theorem shiftedTime_of_lt {dl t : F64} (hd : fgt dl posZero = true) (h : flt (fsub t dl) posZero = true) :
    shiftedTime dl t = posZero := by
  simp only [shiftedTime, hd, h, if_true]

theorem shiftedTime_of_not_lt {dl t : F64} (hd : fgt dl posZero = true) (h : flt (fsub t dl) posZero = false) :
    shiftedTime dl t = fsub t dl := by
  simp only [shiftedTime, hd, h, if_true, Bool.false_eq_true, if_false]

/-- Without a delay both channels have the same time (R117). -/
theorem shiftedTime_of_no_delay {dl : F64} (t : F64) (hd : fgt dl posZero = false) : shiftedTime dl t = t := by
  simp only [shiftedTime, hd, Bool.false_eq_true, if_false]

/-- Settles O32: `TSHIFT` sets the shifted time, which has the three branches of R117. -/
theorem timeAxis : Obligations.TimeAxis := by
  intro s
  rw [asF64_posZero, exec_tshift]
  refine ⟨exec_time s, fun hd h => ?_, fun hd h => ?_, fun hd => ?_⟩
  · rw [shiftedTime_of_lt hd h]
  · rw [shiftedTime_of_not_lt hd h]
  · rw [shiftedTime_of_no_delay _ hd]

/-! ### The sine of the phase -/

theorem exec_phaseLin (ch : Channel) (s : State) : exec (.phaseLin ch) s = .next { s with
    work := setSine s.work (phaseLinValue Config.params (startFrequency s ch) (sweepRate s ch) (channelTime s ch)) ch } := rfl

theorem exec_phaseLog (ch : Channel) (s : State) : exec (.phaseLog ch) s = .next { s with
    work := setSine s.work (phaseLogValue Config.params (startFrequency s ch) (sweepRate s ch) (channelTime s ch)) ch } := rfl

/-- Settles O33: each operation sets the sine of its channel from that channel's start frequency, rate and time, by the expression tree of
R118 or R119. -/
theorem sineOfThePhase : Obligations.SineOfThePhase := fun s =>
  ⟨exec_phaseLin .left s, exec_phaseLin .right s, exec_phaseLog .left s, exec_phaseLog .right s⟩

end Sys2Proof.Machine
end

section
/-! PROOFS. The envelope (42_envelope.md R130 to R137): one multiplication per gain, the fade ramps, the bounds of what is stored, the zeros before
the delay, and the two cells of a frame. -/

namespace Sys2Proof.Machine

/-! ### The operations, one by one -/

theorem exec_mute (s : State) : exec .mute s = .next (mute s) := rfl

theorem exec_fade (s : State) : exec .fade s = .next (fade s) := rfl

theorem exec_fadeApply (ch : Channel) (s : State) : exec (.fadeApply ch) s = .next (fadeApply ch s) := rfl

theorem exec_vol (ch : Channel) (s : State) : exec (.vol ch) s = .next (vol ch s) := rfl

theorem mute_of_lt {s : State} (h : (s.work.n : Int) < s.work.bigD) : mute s = { s with work := { s.work with sR := posZero } } := by
  rw [mute, if_pos h]

theorem mute_of_ge {s : State} (h : s.work.bigD ≤ (s.work.n : Int)) : mute s = s := by
  rw [mute, if_neg (not_lt.2 h)]

/-- Settles O34, by the two branches of `MUTE`. -/
theorem muteBeforeDelay : Obligations.MuteBeforeDelay := by
  intro s
  rw [exec_mute, asF64_posZero]
  exact ⟨fun h => by rw [mute_of_lt h], fun h => by rw [mute_of_ge h]⟩

/-- Settles O38: `FADE.APPLY` and `VOL` of each channel are their functions, which set that channel's temporary to the product. -/
theorem gainsMultiply : Obligations.GainsMultiply := fun s =>
  ⟨exec_fadeApply .left s, exec_fadeApply .right s, exec_vol .left s, exec_vol .right s⟩

/-! ### The cases of the fade gain (R131) -/

theorem fadeGain_no_window (n bigN : Int) : fadeGain n bigN 0 = one := by
  rw [fadeGain, if_pos rfl]

/-- A window of one frame has the gain 0 at either end. -/
theorem fadeGain_one_frame {n bigN : Int} (h : n < 1 ∨ bigN - 1 ≤ n) : fadeGain n bigN 1 = posZero := by
  rw [fadeGain, if_neg (by decide)]
  split
  · rfl
  · rw [if_pos (h.resolve_left ‹_›), if_pos rfl]

theorem fadeGain_rampIn {n bigN bigF : Int} (h0 : bigF ≠ 0) (h1 : bigF ≠ 1) (h : n < bigF) :
    fadeGain n bigN bigF = fdiv (u2f n) (u2f (bigF - 1)) := by
  rw [fadeGain, if_neg h0, if_pos h, if_neg h1]

theorem fadeGain_rampOut {n bigN bigF : Int} (h0 : bigF ≠ 0) (h1 : bigF ≠ 1) (hin : bigF ≤ n) (hout : bigN - bigF ≤ n) :
    fadeGain n bigN bigF = fdiv (u2f (bigF - 1 - (n - (bigN - bigF)))) (u2f (bigF - 1)) := by
  rw [fadeGain, if_neg h0, if_neg (not_lt.2 hin), if_pos hout, if_neg h1]

theorem fadeGain_between {n bigN bigF : Int} (h0 : bigF ≠ 0) (hin : bigF ≤ n) (hout : n < bigN - bigF) :
    fadeGain n bigN bigF = one := by
  rw [fadeGain, if_neg h0, if_neg (not_lt.2 hin), if_neg (not_le.2 hout)]

/-- Settles O35: `FADE` sets the gain to `fadeGain`, which has one lemma per case. -/
theorem fadeGainByCases : Obligations.FadeGainByCases := by
  intro s n bigN bigF gives
  have hgives : ∀ {g : F64}, fadeGain n bigN bigF = g → gives g := fun hg => hg ▸ exec_fade s
  rw [asF64_posZero]
  refine ⟨fun h => hgives ?_, fun h hn => hgives ?_, fun h0 h1 hn => hgives (fadeGain_rampIn h0 h1 hn), fun h _ hn => hgives ?_,
    fun h0 h1 hin hout => hgives (fadeGain_rampOut h0 h1 hin hout), fun h0 hin hout => hgives (fadeGain_between h0 hin hout)⟩
  · rw [h, fadeGain_no_window, one]
  · rw [h, fadeGain_one_frame (.inl hn)]
  · rw [h, fadeGain_one_frame (.inr hn)]

/-! ### The ends of the ramps -/

/-- A count below `2^53` as a datum (R9): finite, not signed, equal to the count. -/
theorem u2f_eq_fin {i : Int} (h0 : 0 ≤ i) (h : i < 2 ^ 53) : ∃ m e, u2f i = .fin false m e ∧ value (.fin false m e) = i := by
  obtain ⟨n, rfl⟩ := Int.eq_ofNat_of_zero_le h0
  obtain ⟨m, e, hu, hval⟩ := value_u2f (n := n) (by omega)
  exact ⟨m, e, hu, by rw [hval, Int.cast_natCast]⟩

/-- Zero over a positive count is `+0`. -/
theorem fdiv_u2f_zero {k : Int} (h0 : 0 < k) (h : k < 2 ^ 53) : fdiv (u2f 0) (u2f k) = posZero := by
  obtain ⟨m₀, e₀, hu₀, hval₀⟩ := u2f_eq_fin (i := 0) le_rfl (by norm_num)
  obtain rfl : m₀ = 0 := value_eq_zero_iff.1 (by rw [hval₀, Int.cast_zero])
  obtain ⟨m, e, hu, hval⟩ := u2f_eq_fin h0.le h
  have hm : m ≠ 0 := value_eq_zero_iff.not.1 (by rw [hval]; exact_mod_cast h0.ne')
  rw [hu₀, hu, fdiv, if_neg hm, round64, roundTo_zero, bne_self_eq_false, posZero]

theorem ratioLog2_self (n : Nat) : ratioLog2 n n = 0 := by
  simp [ratioLog2, pow2]

/-- One rounded to binary64 is `1.0`. -/
theorem round64_self {m : Nat} (hm : 0 < m) : round64 false m m 0 = one := by
  have hunit : roundUnit 53 (-1074) m m 0 = -52 := by rw [roundUnit, ratioLog2_self]; rfl
  have hmant : divNearestEven (m * pow2 (0 - -52)) (m * pow2 (-52 - 0)) = 2 ^ 52 := by
    rw [Nat.mul_comm, show m * pow2 (-52 - 0) = m from Nat.mul_one m, divNearestEven_mul hm]
    rfl
  simp only [round64, roundTo, hm.ne', hunit, hmant, one_eq]
  rfl

/-- A positive count over itself is `1.0`. -/
theorem fdiv_u2f_self {k : Int} (h0 : 0 < k) (h : k < 2 ^ 53) : fdiv (u2f k) (u2f k) = one := by
  obtain ⟨m, e, hu, hval⟩ := u2f_eq_fin h0.le h
  have hm : m ≠ 0 := value_eq_zero_iff.not.1 (by rw [hval]; exact_mod_cast h0.ne')
  rw [hu, fdiv, if_neg hm, bne_self_eq_false, sub_self, round64_self (Nat.pos_of_ne_zero hm)]

/-- The gain is 0 at the first and at the last frame, whether the window has one frame or more. -/
theorem fadeGain_ends {bigN bigF : Int} (hF : 1 ≤ bigF) (hN : 2 * bigF ≤ bigN) (hlt : bigN < 2 ^ 32) :
    fadeGain 0 bigN bigF = posZero ∧ fadeGain (bigN - 1) bigN bigF = posZero := by
  rcases hF.eq_or_lt with rfl | hF
  · exact ⟨fadeGain_one_frame (.inl one_pos), fadeGain_one_frame (.inr le_rfl)⟩
  · have hzero := fdiv_u2f_zero (k := bigF - 1) (by omega) (by omega)
    refine ⟨?_, ?_⟩
    · rw [fadeGain_rampIn (by omega) (by omega) (by omega), hzero]
    · rw [fadeGain_rampOut (by omega) (by omega) (by omega) (by omega),
        show bigF - 1 - (bigN - 1 - (bigN - bigF)) = 0 by omega, hzero]

/-- The gain is 1 at the inner ends of windows of two or more frames. -/
theorem fadeGain_inner_ends {bigN bigF : Int} (hF : 2 ≤ bigF) (hN : 2 * bigF ≤ bigN) (hlt : bigN < 2 ^ 32) :
    fadeGain (bigF - 1) bigN bigF = one ∧ fadeGain (bigN - bigF) bigN bigF = one := by
  have hself := fdiv_u2f_self (k := bigF - 1) (by omega) (by omega)
  refine ⟨?_, ?_⟩
  · rw [fadeGain_rampIn (by omega) (by omega) (by omega), hself]
  · rw [fadeGain_rampOut (by omega) (by omega) (by omega) le_rfl, sub_self, sub_zero, hself]

/-- Settles O37: the outer ends are a zero over the window's last index, the inner ends that index over itself, and between the windows no
ramp applies. -/
theorem fadeGainEndPoints : Obligations.FadeGainEndPoints := by
  intro bigN bigF hF hN hlt
  obtain ⟨hfirst, hlast⟩ := fadeGain_ends hF hN hlt
  rw [asF64_posZero]
  exact ⟨hfirst, hlast, fun h2 => fadeGain_inner_ends h2 hN hlt, fun n => fadeGain_between (by omega)⟩

/-! ### Data of magnitude at most 1 -/

/-- A finite datum in `[-1, 1]`. -/
structure InUnit (x : F64) : Prop where
  finite : isFinite x = true
  abs_le : |value x| ≤ 1

theorem inUnit_posZero : InUnit posZero := ⟨rfl, by rw [value_posZero]; norm_num⟩

theorem inUnit_one : InUnit one := ⟨isFinite_one, by rw [value_one]; norm_num⟩

/-- What the comparisons with `-1.0` and `1.0` say. -/
theorem inUnit_iff_fle {x : F64} : InUnit x ↔ fle negOne x = true ∧ fle x one = true := by
  constructor
  · intro h
    obtain ⟨hlow, hhigh⟩ := abs_le.1 h.abs_le
    rw [fle_iff_value isFinite_negOne h.finite, fle_iff_value h.finite isFinite_one, value_negOne, value_one]
    exact ⟨hlow, hhigh⟩
  · rintro ⟨hlow, hhigh⟩
    have hx : isFinite x = true := by
      cases x with
      | nan => exact absurd hhigh (by decide +kernel)
      | inf neg =>
        cases neg with
        | true => exact absurd hlow (by decide +kernel)
        | false => exact absurd hhigh (by decide +kernel)
      | fin neg m e => rfl
    rw [fle_iff_value isFinite_negOne hx, value_negOne] at hlow
    rw [fle_iff_value hx isFinite_one, value_one] at hhigh
    exact ⟨hx, abs_le.2 ⟨hlow, hhigh⟩⟩

/-- Rounding does not pass 1: it is a datum itself, and the result is a nearest one. -/
theorem inUnit_roundTo (neg : Bool) {n d : Nat} {e : Int} (hd : 0 < d) (h : (n : ℚ) / d * 2 ^ e ≤ 1) :
    InUnit (roundTo 53 (-1074) 971 neg n d e) := by
  obtain ⟨hinf, hnear⟩ := roundingIsNearestEven 53 (-1074) 971 neg n d e (by norm_num) (by norm_num) hd
  have hfinite : roundTo 53 (-1074) 971 neg n d e ≠ .inf neg := by
    have hlarge : (1 : ℚ) < ((2 : ℚ) ^ (53 + 1) - 1) * 2 ^ ((971 : Int) - 1) :=
      one_lt_mul_of_le_of_lt (by norm_num) (one_lt_zpow₀ (by norm_num) (by norm_num))
    rw [ne_eq, hinf, not_le]
    exact h.trans_lt hlarge
  obtain ⟨m, q, hround, -, -, -, hbest⟩ := hnear hfinite
  have hdist := (hbest (2 ^ 52) (-52) (by norm_num) (by norm_num)).1
  rw [show ((2 ^ 52 : Nat) : ℚ) * 2 ^ (-52 : Int) = 1 by norm_num, abs_of_nonneg (sub_nonneg.2 h)] at hdist
  have hvalue := (le_abs_self _).trans hdist
  rw [hround]
  exact ⟨rfl, by rw [abs_value]; linarith⟩

theorem InUnit.fmul {a b : F64} (ha : InUnit a) (hb : InUnit b) : InUnit (fmul a b) := by
  obtain ⟨n, d, e, hd, hexact, hmul⟩ := (arithmetic_of_finite ha.finite hb.finite).1
  rw [hmul]
  refine inUnit_roundTo _ hd ?_
  rw [hexact, abs_mul]
  exact mul_le_one₀ ha.abs_le (abs_nonneg _) hb.abs_le

/-! ### The fade gain is a gain -/

/-- A finite datum in `[0, 1]` whose sign is not set. -/
structure IsGain (g : F64) : Prop where
  inUnit : InUnit g
  sign : isNeg g = false

theorem IsGain.fge_posZero {g : F64} (h : IsGain g) : fge g posZero = true :=
  fge_posZero_of_not_isNeg (isNaN_of_isFinite h.inUnit.finite) h.sign

theorem isGain_one : IsGain one := ⟨inUnit_one, by rw [one_eq]; rfl⟩

theorem isGain_posZero : IsGain posZero := ⟨inUnit_posZero, rfl⟩

/-- A count over one that is no smaller. -/
theorem isGain_fdiv_u2f {i k : Int} (hi : 0 ≤ i) (hik : i ≤ k) (hk : 0 < k) (h : k < 2 ^ 53) : IsGain (fdiv (u2f i) (u2f k)) := by
  obtain ⟨m, e, hu, hval⟩ := u2f_eq_fin hi (by omega)
  obtain ⟨m', e', hu', hval'⟩ := u2f_eq_fin hk.le h
  have hkq : (0 : ℚ) < k := by exact_mod_cast hk
  obtain ⟨n, d, q, hd, hexact, hdiv⟩ := fdiv_fin_eq_roundTo (na := false) (nb := false) (ma := m) (ea := e) (mb := m') (eb := e')
    (by rw [hval']; exact hkq.ne')
  rw [hu, hu', hdiv]
  refine ⟨inUnit_roundTo _ hd ?_, (isNeg_roundTo ..).1⟩
  rw [hexact, hval, hval', abs_of_nonneg (by positivity), div_le_one hkq]
  exact_mod_cast hik

/-- Of a buffer whose windows do not overlap the gain of every frame is one, whichever case of R131 gives it. -/
theorem isGain_fadeGain {n bigN bigF : Int} (hn : 0 ≤ n) (hnN : n < bigN) (hF : 0 ≤ bigF) (hN : 2 * bigF ≤ bigN)
    (hlt : bigN < 2 ^ 32) : IsGain (fadeGain n bigN bigF) := by
  rcases eq_or_ne bigF 0 with rfl | h0
  · rw [fadeGain_no_window]
    exact isGain_one
  rcases lt_or_ge n (bigN - bigF) with hbefore | hout
  · rcases lt_or_ge n bigF with hin | hin
    · rcases eq_or_ne bigF 1 with rfl | h1
      · rw [fadeGain_one_frame (.inl hin)]
        exact isGain_posZero
      · rw [fadeGain_rampIn h0 h1 hin]
        exact isGain_fdiv_u2f hn (by omega) (by omega) (by omega)
    · rw [fadeGain_between h0 hin hbefore]
      exact isGain_one
  · rcases eq_or_ne bigF 1 with rfl | h1
    · rw [fadeGain_one_frame (.inr hout)]
      exact isGain_posZero
    · rw [fadeGain_rampOut h0 h1 (by omega) hout]
      exact isGain_fdiv_u2f (by omega) (by omega) (by omega) (by omega)

/-- Settles O36: the gain of every case is a ratio of counts in order, or a constant. -/
theorem fadeGainInRange : Obligations.FadeGainInRange := by
  intro n bigN bigF hn hnN hF hN hlt
  have hgain := isGain_fadeGain hn hnN hF hN hlt
  rw [asF64_posZero]
  exact ⟨hgain.fge_posZero, (inUnit_iff_fle.1 hgain.inUnit).2⟩

/-! ### The values of a configuration that passes `VALIDATE` -/

/-- The fade windows of a configuration that passes do not overlap. -/
theorem InputContract.isGain_fade {p : Params} {s : State} (h : InputContract p s) {n : Nat} (hn : (n : Int) < countN p s) :
    IsGain (fadeGain n (countN p s) (countF p s)) := by
  have hdepth := (sbDepth_bounds p).2
  have hN := h.countN_le
  obtain ⟨hF0, hF⟩ := h.countF_bounds
  exact isGain_fadeGain (by omega) hn hF0 hF (by omega)

/-- The volume of a configuration that passes lies in `[0, 1]`; it may be a negative zero. -/
theorem InputContract.inUnit_volume {p : Params} {s : State} (h : InputContract p s) : InUnit (asF64 s.volume) := by
  obtain ⟨h0, h1⟩ := h.volume
  have hlow : fle negOne posZero = true := by decide +kernel
  exact inUnit_iff_fle.2 ⟨fle_trans hlow h0, h1⟩

/-- A finite sine was taken at a finite operand, where `SIN_BOUND` holds (R10). -/
theorem inUnit_sinFn {p : Params} {x : F64} (h : isFinite (sinFn p x) = true) : InUnit (sinFn p x) := by
  cases hx : isFinite x with
  | false =>
    rw [sinFn_of_not_finite p hx] at h
    cases h
  | true =>
    have hadmits := sinAdmits_sinFn p hx
    simp only [sinAdmits, Bool.and_eq_true, and_assoc] at hadmits
    exact inUnit_iff_fle.2 hadmits.2

/-- Either sweep ends in `SIN` (R118, R119). -/
theorem frameSine_eq_sinFn (p : Params) (s : State) (n : Nat) (ch : Channel) : ∃ x, frameSine p s n ch = sinFn p x := by
  rw [frameSine]
  split
  · exact ⟨_, rfl⟩
  · exact ⟨_, rfl⟩

/-- `MUTE` leaves the sine or gives a zero. -/
theorem inUnit_frameMuted {p : Params} {s : State} {n : Nat} {ch : Channel} (h : InUnit (frameSine p s n ch)) :
    InUnit (frameMuted p s n ch) := by
  cases ch with
  | left => exact h
  | right =>
    rw [frameMuted]
    split
    · exact inUnit_posZero
    · exact h

/-- Settles O28: the stored value is a product of three factors in `[-1, 1]`. -/
theorem cellsInRange : Obligations.CellsInRange := by
  intro s n ch h hn hsine
  have hc := inputContract_of_failedClause_eq_none h
  obtain ⟨x, hx⟩ := frameSine_eq_sinFn Config.params s n ch
  have hbound : InUnit (frameSine Config.params s n ch) := by
    rw [hx] at hsine ⊢
    exact inUnit_sinFn hsine
  have hmuted := inUnit_frameMuted hbound
  exact inUnit_iff_fle.1 ((hmuted.fmul (hc.isGain_fade hn).inUnit).fmul hc.inUnit_volume)

/-! ### The zeros before the delay -/

/-- The product of `+0` and a finite datum whose sign is not set is `+0`. -/
theorem fmul_posZero {x : F64} (hx : isFinite x = true) (hneg : isNeg x = false) : fmul posZero x = posZero := by
  obtain ⟨neg, m, e, rfl⟩ := exists_fin_of_isFinite hx
  obtain rfl : neg = false := hneg
  rw [posZero, fmul, Nat.zero_mul, round64, roundTo_zero, bne_self_eq_false]

/-- Before the delay the right value is `+0`, unless the volume is a negative zero (R130, R135; log entry 23). -/
theorem InputContract.frameValue_before_delay {p : Params} {s : State} (h : InputContract p s) (hvol : isNeg (asF64 s.volume) = false)
    {n : Nat} (hn : (n : Int) < countD p s) : frameValue p s n .right = posZero := by
  have hgain := h.isGain_fade (hn.trans_le h.countD_bounds.2)
  rw [frameValue, frameMuted, if_pos hn, fmul_posZero hgain.inUnit.finite hgain.sign, fmul_posZero h.inUnit_volume.finite hvol]

theorem bitsF64_posZero (u : Word) : bitsF64 u posZero = 0 := rfl

/-- Settles O27: `GEN` stores the pattern of each frame's value, which is `+0` in the right cells before the delay. -/
theorem delayedCellsAreZero : Obligations.DelayedCellsAreZero := by
  intro s hs h hvol
  have hc := inputContract_of_failedClause_eq_none h
  obtain ⟨t, hexec, -, hcells, -⟩ := genStoresTheSweep s hs h
  refine ⟨t, hexec, fun n hn => ?_⟩
  have hlt : n < (countN Config.params s).toNat := by
    have := hc.countD_bounds.2
    omega
  have hzero := hc.frameValue_before_delay hvol hn
  rw [(hcells n .right hlt).1 (by rw [hzero]; rfl), hzero, bitsF64_posZero]

/-! ### The two cells of a frame -/

theorem exec_frame_of_lt {s : State} (h : s.work.n < sbDepth Config.params) : exec .frame s = .next (frameStore Config.params s) :=
  if_pos h

theorem exec_frame_of_ge {s : State} (h : sbDepth Config.params ≤ s.work.n) : exec .frame s = .fault .noSuchCell :=
  if_neg (not_lt.2 h)

/-- The store of the right cell leaves the left one. -/
theorem readCell_frameStore_left (p : Params) (s : State) :
    readCell (frameStore p s) s.work.n .left = some (storedPattern p s.draws s.work.vL) := by
  rw [readCell, frameStore_sb, read_write_other _ _ (by simp [cellAddress, channelIndex]), read_write_same]

theorem readCell_frameStore_right (p : Params) (s : State) :
    readCell (frameStore p s) s.work.n .right = some (storedPattern p (s.draws + 1) s.work.vR) := by
  rw [readCell, frameStore_sb, read_write_same]

theorem read_frameStore_other (p : Params) (s : State) {a : Nat} (hleft : a ≠ cellAddress s.work.n .left)
    (hright : a ≠ cellAddress s.work.n .right) : Memory.read (frameStore p s).sb a = Memory.read s.sb a := by
  rw [frameStore_sb, read_write_other _ _ hright, read_write_other _ _ hleft]

/-- Settles O39: the pattern that is stored reads back as the value, also where it is a NaN's draw. -/
theorem frameStoresBothCells : Obligations.FrameStoresBothCells := fun s hL hR =>
  ⟨fun h => ⟨_, _, _, exec_frame_of_lt h, rfl, readCell_frameStore_left _ s, asF64_storedPattern _ _ hL,
    readCell_frameStore_right _ s, asF64_storedPattern _ _ hR, fun _ => read_frameStore_other _ s⟩, exec_frame_of_ge⟩

end Sys2Proof.Machine
end

section
/-! PROOFS. Rounding keeps the order: the nearest even integer grows with what is rounded, and so does the value that `roundTo` gives in its
format; a datum of the format is rounded to itself. -/

namespace Sys2Proof.Machine

/-- `i` is an integer nearest to `x`, the even one where two are as near: `NearestEven` for either sign. -/
structure NearestEvenInt (x : ℚ) (i : Int) : Prop where
  near : |x - i| ≤ 1 / 2
  even : |x - i| = 1 / 2 → i % 2 = 0

theorem NearestEven.toInt {x : ℚ} {m : Nat} (h : NearestEven x m) : NearestEvenInt x m := by
  obtain ⟨hnear, heven⟩ := h
  rw [abs_sub_comm] at hnear heven
  refine ⟨hnear, fun htie => ?_⟩
  have := heven htie
  omega

namespace NearestEvenInt

/-- An integer is nearest to itself. -/
theorem self (i : Int) : NearestEvenInt i i := ⟨by norm_num, by norm_num⟩

theorem neg {x : ℚ} {i : Int} (h : NearestEvenInt x i) : NearestEvenInt (-x) (-i) := by
  have habs : |-x - ((-i : Int) : ℚ)| = |x - i| := by rw [← abs_neg]; congr 1; push_cast; ring
  refine ⟨habs.trans_le h.near, fun htie => ?_⟩
  have := h.even (habs.symm.trans htie)
  omega

/-- A larger number has no smaller nearest even integer: integers in the wrong order could only be the two neighbours of one midpoint, and one
of these is odd. -/
theorem mono {x y : ℚ} {i j : Int} (hi : NearestEvenInt x i) (hj : NearestEvenInt y j) (h : x ≤ y) : i ≤ j := by
  by_contra hlt
  obtain ⟨hxlow, -⟩ := abs_le.1 hi.near
  obtain ⟨-, hyhigh⟩ := abs_le.1 hj.near
  have hstep : (j : ℚ) + 1 ≤ i := by exact_mod_cast not_le.1 hlt
  have hneighbours : (j : ℚ) + 1 = i := by linarith
  have hieven : i % 2 = 0 := hi.even (by rw [abs_of_nonpos] <;> linarith)
  have hjeven : j % 2 = 0 := hj.even (by rw [abs_of_nonneg] <;> linarith)
  have : j + 1 = i := by exact_mod_cast hneighbours
  omega

theorem unique {x : ℚ} {i j : Int} (hi : NearestEvenInt x i) (hj : NearestEvenInt x j) : i = j :=
  le_antisymm (hi.mono hj le_rfl) (hj.mono hi le_rfl)

end NearestEvenInt

/-- A number with its top bit set exceeds every mantissa of a smaller unit. -/
theorem top_mul_unit_le {prec : Nat} (hp : 0 < prec) {q q' : Int} {y : ℚ} (hlt : q < q') (htop : 2 ^ (prec - 1) ≤ y) :
    (2 : ℚ) ^ prec * 2 ^ q ≤ y * 2 ^ q' := by
  calc (2 : ℚ) ^ prec * 2 ^ q = 2 ^ (prec - 1) * 2 ^ (q + 1) := by
        rw [zpow_add_one₀ (by norm_num), ← Nat.sub_add_cancel hp, pow_succ, Nat.add_sub_cancel]; ring
    _ ≤ y * 2 ^ q' :=
      mul_le_mul htop (zpow_le_zpow_right₀ (by norm_num) hlt) (two_zpow_pos _).le (htop.trans' (by positivity))

namespace RoundsTo

variable {prec : Nat} {qmin q q' : Int} {x x' : ℚ} {m m' : Nat}

/-- The unit grows with the value: a number that calls for a larger unit than another is at least `2^(prec - 1)` of its units. -/
theorem unit_mono (h : RoundsTo prec qmin x q m) (h' : RoundsTo prec qmin x' q' m') (hp : 0 < prec)
    (hle : x * 2 ^ q ≤ x' * 2 ^ q') : q ≤ q' := by
  by_contra hlt
  have htop : (2 : ℚ) ^ (prec - 1) ≤ x := h.top_le (by have := h'.unit_le; omega)
  have hsmall : x' * 2 ^ q' < 2 ^ prec * 2 ^ q' := mul_lt_mul_of_pos_right h'.lt_top (two_zpow_pos q')
  exact absurd hle (not_le.2 (hsmall.trans_le (top_mul_unit_le hp (not_le.1 hlt) htop)))

/-- With a unit that is not the smallest one the mantissa has its top bit set too. -/
theorem top_le_mantissa (h : RoundsTo prec qmin x q m) (hne : q ≠ qmin) : 2 ^ (prec - 1) ≤ m := by
  have := (NearestEvenInt.self (2 ^ (prec - 1) : Nat)).mono h.nearest.toInt (by exact_mod_cast h.top_le hne)
  exact_mod_cast this

/-- Rounding keeps the order: with equal units the nearest integers do, and a larger unit has more than the largest mantissa of the smaller
one. -/
theorem value_mono (h : RoundsTo prec qmin x q m) (h' : RoundsTo prec qmin x' q' m') (hp : 0 < prec)
    (hle : x * 2 ^ q ≤ x' * 2 ^ q') : (m : ℚ) * 2 ^ q ≤ m' * 2 ^ q' := by
  rcases (h.unit_mono h' hp hle).eq_or_lt with rfl | hlt
  · have hmono := h.nearest.toInt.mono h'.nearest.toInt ((mul_le_mul_iff_of_pos_right (two_zpow_pos q)).1 hle)
    have : (m : ℚ) ≤ m' := by exact_mod_cast hmono
    have := two_zpow_pos q
    gcongr
  · have htop : (2 : ℚ) ^ (prec - 1) ≤ m' := by
      exact_mod_cast h'.top_le_mantissa (by have := h.unit_le; omega)
    have hm : (m : ℚ) ≤ 2 ^ prec := by exact_mod_cast h.mantissa_le_top
    exact (mul_le_mul_of_nonneg_right hm (two_zpow_pos q).le).trans (top_mul_unit_le hp hlt htop)

/-- A number has one unit and one mantissa. -/
theorem unique (h : RoundsTo prec qmin x q m) (h' : RoundsTo prec qmin x' q' m') (hp : 0 < prec)
    (heq : x * 2 ^ q = x' * 2 ^ q') : q = q' ∧ m = m' := by
  obtain rfl := le_antisymm (h.unit_mono h' hp heq.le) (h'.unit_mono h hp heq.ge)
  obtain rfl := mul_right_cancel₀ (two_zpow_pos q).ne' heq
  exact ⟨rfl, by exact_mod_cast h.nearest.toInt.unique h'.nearest.toInt⟩

/-- A mantissa of the format in the unit of its size is rounded to itself. -/
theorem self (hm : m < 2 ^ prec) (hq : qmin ≤ q) (htop : q ≠ qmin → 2 ^ (prec - 1) ≤ m) : RoundsTo prec qmin m q m where
  nearest := ⟨by norm_num, by norm_num⟩
  unit_le := hq
  lt_top := by exact_mod_cast hm
  top_le hne := by exact_mod_cast htop hne

end RoundsTo

/-- The magnitude of a finite result of `roundTo`, zero included: the rounded mantissa in its unit. -/
theorem abs_value_roundTo {prec : Nat} {qmin qmax : Int} {neg : Bool} {n d : Nat} {e : Int} (hp : 2 ≤ prec) (hq : qmin ≤ qmax)
    (hd : 0 < d) (h : isFinite (roundTo prec qmin qmax neg n d e) = true) :
    ∃ x q m, RoundsTo prec qmin x q m ∧ x * 2 ^ q = (n : ℚ) / d * 2 ^ e ∧
      |value (roundTo prec qmin qmax neg n d e)| = m * 2 ^ q := by
  rcases Nat.eq_zero_or_pos n with rfl | hn
  · exact ⟨_, qmin, 0, RoundsTo.self (by positivity) le_rfl (absurd rfl), by simp, by rw [roundTo_zero, abs_value]⟩
  · obtain ⟨x, q, m, hrounds, hexact, hround⟩ := roundTo_eq_roundedDatum qmin qmax neg e (two_pos.trans_le hp) hn hd
    refine ⟨x, q, m, hrounds, hexact, ?_⟩
    rcases hrounds.roundedDatum_cases hp hq neg with ⟨-, hdatum⟩ | ⟨-, m', q', hdatum, -, -, -, hvalue, -⟩
    · rw [hround, hdatum] at h
      cases h
    · rw [hround, hdatum, abs_value, hvalue]

/-- Rounding keeps the order of magnitudes, whatever the fractions that give the exact values. -/
theorem abs_value_roundTo_mono {prec : Nat} {qmin qmax : Int} {neg neg' : Bool} {n n' d d' : Nat} {e e' : Int} (hp : 2 ≤ prec)
    (hq : qmin ≤ qmax) (hd : 0 < d) (hd' : 0 < d') (h : isFinite (roundTo prec qmin qmax neg n d e) = true)
    (h' : isFinite (roundTo prec qmin qmax neg' n' d' e') = true) (hle : (n : ℚ) / d * 2 ^ e ≤ (n' : ℚ) / d' * 2 ^ e') :
    |value (roundTo prec qmin qmax neg n d e)| ≤ |value (roundTo prec qmin qmax neg' n' d' e')| := by
  obtain ⟨x, q, m, hrounds, hexact, hvalue⟩ := abs_value_roundTo hp hq hd h
  obtain ⟨x', q', m', hrounds', hexact', hvalue'⟩ := abs_value_roundTo hp hq hd' h'
  rw [hvalue, hvalue']
  exact hrounds.value_mono hrounds' (by omega) (by rwa [hexact, hexact'])

/-- A datum of the format, in its one form, is what every fraction equal to it is rounded to. -/
theorem roundTo_of_exact {prec : Nat} {qmin qmax : Int} (neg : Bool) {n d m : Nat} {e q : Int} (hp : 0 < prec) (hd : 0 < d)
    (hm : m < 2 ^ prec) (hq : qmin ≤ q) (hqmax : q ≤ qmax) (htop : q ≠ qmin → 2 ^ (prec - 1) ≤ m)
    (hexact : (n : ℚ) / d * 2 ^ e = m * 2 ^ q) : roundTo prec qmin qmax neg n d e = .fin neg m q := by
  rcases Nat.eq_zero_or_pos n with rfl | hn
  · obtain rfl : m = 0 := by
      simpa [(two_zpow_pos q).ne'] using hexact
    obtain rfl : q = qmin := by
      by_contra hne
      exact absurd (htop hne) (by simp)
    exact roundTo_zero ..
  · obtain ⟨x, q₀, m₀, hrounds, hx, hround⟩ := roundTo_eq_roundedDatum qmin qmax neg e hp hn hd
    obtain ⟨rfl, rfl⟩ := hrounds.unique (RoundsTo.self hm hq htop) hp (hx.trans hexact)
    have hm0 : m₀ ≠ 0 := by
      rintro rfl
      rw [Nat.cast_zero, zero_mul] at hexact
      exact absurd hexact (by have := two_zpow_pos e; positivity)
    rw [hround, roundedDatum, if_neg hm0, if_neg hm.ne, if_neg (by omega)]

/-- What does not exceed a mantissa in a unit of the format does not overflow. -/
theorem isFinite_roundTo_of_le {prec : Nat} {qmin qmax : Int} (neg : Bool) {n d m : Nat} {e q : Int} (hp : 2 ≤ prec) (hd : 0 < d)
    (hm : m < 2 ^ prec) (hq : qmin ≤ q) (hqmax : q ≤ qmax) (hle : (n : ℚ) / d * 2 ^ e ≤ m * 2 ^ q) :
    isFinite (roundTo prec qmin qmax neg n d e) = true := by
  obtain ⟨hinf, hnear⟩ := roundingIsNearestEven prec qmin qmax neg n d e hp (hq.trans hqmax) hd
  have hm1 : (m : ℚ) + 1 ≤ 2 ^ prec := by exact_mod_cast hm
  have hbelow : (n : ℚ) / d * 2 ^ e < (2 ^ (prec + 1) - 1) * 2 ^ (qmax - 1) := by
    calc (n : ℚ) / d * 2 ^ e ≤ m * 2 ^ q := hle
      _ ≤ (2 ^ prec - 1) * 2 ^ qmax :=
        mul_le_mul (by linarith) (zpow_le_zpow_right₀ (by norm_num) hqmax) (two_zpow_pos q).le (by linarith [m.cast_nonneg (α := ℚ)])
      _ = (2 ^ (prec + 1) - 2) * 2 ^ (qmax - 1) := by rw [zpow_sub_one₀ (by norm_num), pow_succ]; ring
      _ < (2 ^ (prec + 1) - 1) * 2 ^ (qmax - 1) := mul_lt_mul_of_pos_right (by linarith) (two_zpow_pos _)
  obtain ⟨m', q', hround, -⟩ := hnear (hinf.not.2 (not_le.2 hbelow))
  rw [hround]
  rfl

/-- A mantissa in a unit of the format, in whatever form, keeps its value. -/
theorem abs_value_roundTo_of_mem {prec : Nat} {qmin qmax : Int} (neg : Bool) {m : Nat} {q : Int} (hp : 2 ≤ prec)
    (hm : m < 2 ^ prec) (hq : qmin ≤ q) (hqmax : q ≤ qmax) : |value (roundTo prec qmin qmax neg m 1 q)| = m * 2 ^ q := by
  have hexact : ((m : Nat) : ℚ) / (1 : Nat) * 2 ^ q = m * 2 ^ q := by rw [Nat.cast_one, div_one]
  have hfinite := isFinite_roundTo_of_le neg hp one_pos hm hq hqmax hexact.le
  obtain ⟨hinf, hnear⟩ := roundingIsNearestEven prec qmin qmax neg m 1 q hp (hq.trans hqmax) one_pos
  obtain ⟨m', q', hround, -, -, -, hbest⟩ := hnear fun h => by rw [h] at hfinite; cases hfinite
  have hdist := (hbest m q hm hq).1
  rw [hexact, sub_self, abs_zero] at hdist
  rw [hround, abs_value]
  exact sub_eq_zero.1 (abs_nonpos_iff.1 hdist)

/-- Rounding does not pass a datum of the format. -/
theorem abs_value_roundTo_le {prec : Nat} {qmin qmax : Int} (neg : Bool) {n d m : Nat} {e q : Int} (hp : 2 ≤ prec) (hd : 0 < d)
    (hm : m < 2 ^ prec) (hq : qmin ≤ q) (hqmax : q ≤ qmax) (hle : (n : ℚ) / d * 2 ^ e ≤ m * 2 ^ q) :
    |value (roundTo prec qmin qmax neg n d e)| ≤ m * 2 ^ q := by
  have hexact : ((m : Nat) : ℚ) / (1 : Nat) * 2 ^ q = m * 2 ^ q := by rw [Nat.cast_one, div_one]
  have hmono := abs_value_roundTo_mono (neg := neg) (neg' := neg) hp (hq.trans hqmax) hd one_pos
    (isFinite_roundTo_of_le neg hp hd hm hq hqmax hle) (isFinite_roundTo_of_le neg hp one_pos hm hq hqmax hexact.le)
    (hle.trans_eq hexact.symm)
  rwa [abs_value_roundTo_of_mem neg hp hm hq hqmax] at hmono

end Sys2Proof.Machine
end

section
/-! PROOFS. The integer quantizers and the packers (43_quantize_pack.md R145 to R147, R149 to R152, R154): `CLIP` cuts to `[-1, 1]`, the product with
the scale is rounded to a datum within the scale, and that to the nearest even integer; each of the three keeps the order and the sign. -/

namespace Sys2Proof.Machine

/-! ### `CLIP` -/

theorem exec_clip (s : State) : exec .clip s = .next { s with work := { s.work with c := clipValue s.work.x } } := rfl

theorem clipValue_of_fgt {x : F64} (h : fgt x one = true) : clipValue x = one := if_pos h

theorem clipValue_of_flt {x : F64} (hhigh : fgt x one = false) (hlow : flt x negOne = true) : clipValue x = negOne := by
  rw [clipValue, hhigh, if_neg Bool.false_ne_true, if_pos hlow]

theorem clipValue_of_between {x : F64} (hhigh : fgt x one = false) (hlow : flt x negOne = false) : clipValue x = x := by
  rw [clipValue, hhigh, if_neg Bool.false_ne_true, hlow, if_neg Bool.false_ne_true]

/-- No datum is above 1 and below -1. -/
theorem not_fgt_one_of_flt_negOne {x : F64} (h : flt x negOne = true) : fgt x one = false := by
  refine Bool.eq_false_iff.2 fun hgt => ?_
  have habs : flt one negOne = true := flt_trans hgt h
  exact absurd habs (by decide +kernel)

/-- Settles O40, by the three branches of the clipped value. -/
theorem clipLimitsToUnit : Obligations.ClipLimitsToUnit := by
  intro s one' negOne' gives
  have hgives : ∀ {c : F64}, clipValue s.work.x = c → gives c := fun hc => hc ▸ exec_clip s
  exact ⟨fun h => hgives (clipValue_of_fgt h), fun h => hgives (clipValue_of_flt (not_fgt_one_of_flt_negOne h) h),
    fun hhigh hlow => hgives (clipValue_of_between hhigh hlow), hgives rfl⟩

/-- What is not less is greater or equal, of data that are not NaNs. -/
theorem fle_of_not_flt {x y : F64} (hx : isNaN x = false) (hy : isNaN y = false) (h : flt x y = false) : fle y x = true := by
  rw [fle_iff]
  refine ⟨hy, hx, not_lt.1 fun hlt => ?_⟩
  exact absurd (h.symm.trans (flt_iff.2 ⟨hx, hy, hlt⟩)) (by decide)

theorem isNaN_one : isNaN one = false := isNaN_of_isFinite isFinite_one

theorem isNaN_negOne : isNaN negOne = false := isNaN_of_isFinite isFinite_negOne

/-- A clipped value is a finite datum in `[-1, 1]`. -/
theorem inUnit_clipValue {x : F64} (hx : isNaN x = false) : InUnit (clipValue x) := by
  cases hhigh : fgt x one with
  | true => rw [clipValue_of_fgt hhigh]; exact inUnit_one
  | false =>
    cases hlow : flt x negOne with
    | true =>
      rw [clipValue_of_flt hhigh hlow]
      exact ⟨isFinite_negOne, by rw [value_negOne]; norm_num⟩
    | false =>
      rw [clipValue_of_between hhigh hlow]
      exact inUnit_iff_fle.2 ⟨fle_of_not_flt hx isNaN_negOne hlow, fle_of_not_flt isNaN_one hx hhigh⟩

/-- Clipping is cutting off at both bounds, in the order of the data. -/
theorem extendedValue_clipValue {x : F64} (hx : isNaN x = false) :
    extendedValue (clipValue x) = max (extendedValue negOne) (min (extendedValue x) (extendedValue one)) := by
  have hbounds : extendedValue negOne ≤ extendedValue one := (fle_iff.1 (by decide +kernel : fle negOne one = true)).2.2
  cases hhigh : fgt x one with
  | true =>
    obtain ⟨-, -, hlt⟩ := flt_iff.1 hhigh
    rw [clipValue_of_fgt hhigh, min_eq_right hlt.le, max_eq_right hbounds]
  | false =>
    obtain ⟨-, -, hle⟩ := fle_iff.1 (fle_of_not_flt isNaN_one hx hhigh)
    rw [min_eq_left hle]
    cases hlow : flt x negOne with
    | true =>
      obtain ⟨-, -, hlt⟩ := flt_iff.1 hlow
      rw [clipValue_of_flt hhigh hlow, max_eq_left hlt.le]
    | false =>
      obtain ⟨-, -, hge⟩ := fle_iff.1 (fle_of_not_flt hx isNaN_negOne hlow)
      rw [clipValue_of_between hhigh hlow, max_eq_right hge]

/-- Clipping keeps the order. -/
theorem value_clipValue_mono {x y : F64} (h : fle x y = true) : value (clipValue x) ≤ value (clipValue y) := by
  obtain ⟨hx, hy, hle⟩ := fle_iff.1 h
  have hfx := (inUnit_clipValue hx).finite
  have hfy := (inUnit_clipValue hy).finite
  rw [← fle_iff_value hfx hfy, fle_iff, extendedValue_clipValue hx, extendedValue_clipValue hy]
  exact ⟨isNaN_of_isFinite hfx, isNaN_of_isFinite hfy, max_le_max_left _ (min_le_min_right _ hle)⟩

theorem isNaN_fneg (x : F64) : isNaN (fneg x) = isNaN x := by
  cases x <;> rfl

/-- The other sign turns the order round. -/
theorem flt_fneg_fneg (x y : F64) : flt (fneg x) (fneg y) = flt y x := by
  cases x with
  | nan => exact (comparisons_nan y).1.symm
  | inf n =>
    cases y with
    | nan => rfl
    | inf m => cases n <;> cases m <;> rfl
    | fin => cases n <;> rfl
  | fin nx mx ex =>
    cases y with
    | nan => rfl
    | inf m => cases m <;> rfl
    | fin ny my ey =>
      rw [Bool.eq_iff_iff, flt_iff_value rfl rfl, flt_iff_value rfl rfl, value_fneg, value_fneg, neg_lt_neg_iff]

theorem fneg_one : fneg one = negOne := by rw [one_eq, negOne_eq]; rfl

theorem fneg_negOne : fneg negOne = one := by rw [one_eq, negOne_eq]; rfl

/-- Clipping keeps the sign: each bound is the other's negative. -/
theorem clipValue_fneg (x : F64) : clipValue (fneg x) = fneg (clipValue x) := by
  have hhigh : fgt (fneg x) one = flt x negOne := by rw [← fneg_negOne]; exact flt_fneg_fneg negOne x
  have hlow : flt (fneg x) negOne = fgt x one := by rw [← fneg_one]; exact flt_fneg_fneg x one
  cases hx : flt x negOne with
  | true =>
    rw [clipValue_of_flt (not_fgt_one_of_flt_negOne hx) hx, clipValue_of_fgt (hhigh.trans hx), fneg_negOne]
  | false =>
    cases hx' : fgt x one with
    | true => rw [clipValue_of_fgt hx', clipValue_of_flt (hhigh.trans hx) (hlow.trans hx'), fneg_one]
    | false => rw [clipValue_of_between hx' hx, clipValue_of_between (hhigh.trans hx) (hlow.trans hx')]

/-! ### Scaling -/

theorem roundTo_not (prec : Nat) (qmin qmax : Int) (neg : Bool) (n d : Nat) (e : Int) :
    roundTo prec qmin qmax (!neg) n d e = fneg (roundTo prec qmin qmax neg n d e) := by
  simp only [roundTo]
  split_ifs <;> rfl

theorem fmul_fneg_of_finite {a b : F64} (ha : isFinite a = true) (hb : isFinite b = true) : fmul (fneg a) b = fneg (fmul a b) := by
  obtain ⟨na, ma, ea, rfl⟩ := exists_fin_of_isFinite ha
  obtain ⟨nb, mb, eb, rfl⟩ := exists_fin_of_isFinite hb
  rw [fneg, fmul, fmul, round64, round64, ← roundTo_not, Bool.not_bne]

/-- The scale of a quantizer: the datum `k` is equal to the positive integer `K`. -/
structure IsScale (k : F64) (K : Int) : Prop where
  canonical : canonical k
  finite : isFinite k = true
  value_eq : value k = K
  nonneg : 0 ≤ K

theorem isScale_scale16 : IsScale scale16 32767 := by
  have heq : scale16 = .fin false 0x1FFFC000000000 (-38) := by decide +kernel
  exact ⟨asF64_canonical _, by rw [heq]; rfl, by rw [heq]; norm_num [value, signedInt], by norm_num⟩

theorem isScale_scale24 : IsScale scale24 8388607 := by
  have heq : scale24 = .fin false 0x1FFFFFC0000000 (-30) := by decide +kernel
  exact ⟨asF64_canonical _, by rw [heq]; rfl, by rw [heq]; norm_num [value, signedInt], by norm_num⟩

namespace IsScale

variable {k : F64} {K : Int} (hk : IsScale k K)
include hk

theorem value_nonneg : 0 ≤ value k := by
  rw [hk.value_eq]; exact_mod_cast hk.nonneg

/-- A product of a datum in `[-1, 1]` with the scale does not pass the scale, which is a datum itself. -/
theorem fmul_bounds {c : F64} (hc : InUnit c) : isFinite (fmul c k) = true ∧ |value (fmul c k)| ≤ K := by
  obtain ⟨n, d, e, hd, hexact, hmul⟩ := (arithmetic_of_finite hc.finite hk.finite).1
  have hscale : |value k| = K := (abs_of_nonneg hk.value_nonneg).trans hk.value_eq
  obtain ⟨neg, m, q, rfl⟩ := exists_fin_of_isFinite hk.finite
  obtain ⟨hm, hq, hqmax, -⟩ := hk.canonical
  rw [abs_value] at hscale
  have hle : (n : ℚ) / d * 2 ^ e ≤ m * 2 ^ q := by
    rw [hexact, abs_mul, abs_value]
    exact mul_le_of_le_one_left (by have := two_zpow_pos q; positivity) hc.abs_le
  rw [hmul, ← hscale]
  exact ⟨isFinite_roundTo_of_le _ (by norm_num) hd hm hq hqmax hle, abs_value_roundTo_le _ (by norm_num) hd hm hq hqmax hle⟩

/-- Scaling keeps the order of magnitudes. -/
theorem abs_fmul_mono {a b : F64} (ha : InUnit a) (hb : InUnit b) (h : |value a| ≤ |value b|) :
    |value (fmul a k)| ≤ |value (fmul b k)| := by
  obtain ⟨n, d, e, hd, hexact, hmul⟩ := (arithmetic_of_finite ha.finite hk.finite).1
  obtain ⟨n', d', e', hd', hexact', hmul'⟩ := (arithmetic_of_finite hb.finite hk.finite).1
  have hfinite := (hk.fmul_bounds ha).1
  have hfinite' := (hk.fmul_bounds hb).1
  rw [hmul] at hfinite ⊢
  rw [hmul'] at hfinite' ⊢
  refine abs_value_roundTo_mono (by norm_num) (by norm_num) hd hd' hfinite hfinite' ?_
  rw [hexact, hexact', abs_mul, abs_mul]
  exact mul_le_mul_of_nonneg_right h (abs_nonneg _)

theorem value_fmul_nonneg {c : F64} (hc : InUnit c) (h : 0 ≤ value c) : 0 ≤ value (fmul c k) :=
  (fge_posZero_iff (hk.fmul_bounds hc).1).1
    (fge_fmul_posZero hc.finite hk.finite ((fge_posZero_iff hc.finite).2 h) ((fge_posZero_iff hk.finite).2 hk.value_nonneg))

theorem value_fmul_fneg {c : F64} (hc : InUnit c) : value (fmul (fneg c) k) = -value (fmul c k) := by
  rw [fmul_fneg_of_finite hc.finite hk.finite, value_fneg]

/-- Scaling keeps the order of data that are not negative. -/
theorem value_fmul_mono_of_nonneg {a b : F64} (ha : InUnit a) (hb : InUnit b) (h0 : 0 ≤ value a) (h : value a ≤ value b) :
    value (fmul a k) ≤ value (fmul b k) := by
  have hb0 := h0.trans h
  have habs := hk.abs_fmul_mono ha hb (by rwa [abs_of_nonneg h0, abs_of_nonneg hb0])
  rwa [abs_of_nonneg (hk.value_fmul_nonneg ha h0), abs_of_nonneg (hk.value_fmul_nonneg hb hb0)] at habs

end IsScale

theorem InUnit.fneg {c : F64} (hc : InUnit c) : InUnit (fneg c) := by
  obtain ⟨neg, m, e, rfl⟩ := exists_fin_of_isFinite hc.finite
  exact ⟨rfl, by rw [value_fneg, abs_neg]; exact hc.abs_le⟩

/-- Scaling keeps the order: of two negative data the negatives are compared. -/
theorem IsScale.value_fmul_mono {k : F64} {K : Int} (hk : IsScale k K) {a b : F64} (ha : InUnit a) (hb : InUnit b)
    (h : value a ≤ value b) : value (fmul a k) ≤ value (fmul b k) := by
  rcases le_total 0 (value a) with ha0 | ha0
  · exact hk.value_fmul_mono_of_nonneg ha hb ha0 h
  have hneg := hk.value_fmul_nonneg ha.fneg (by rw [value_fneg]; linarith)
  rw [hk.value_fmul_fneg ha] at hneg
  rcases le_total 0 (value b) with hb0 | hb0
  · have := hk.value_fmul_nonneg hb hb0
    linarith
  · have hmono := hk.value_fmul_mono_of_nonneg hb.fneg ha.fneg (by rw [value_fneg]; linarith)
      (by rw [value_fneg, value_fneg]; linarith)
    rw [hk.value_fmul_fneg ha, hk.value_fmul_fneg hb] at hmono
    linarith

/-! ### The quantized integers -/

/-- The integer of a clipped and scaled sample is the nearest one to the product, the even one at a tie. -/
theorem IsScale.nearestEvenInt {k : F64} {K : Int} (hk : IsScale k K) (p : Params) {x : F64} (hx : isNaN x = false) :
    NearestEvenInt (value (fmul (clipValue x) k)) (f2int p (frne (fmul (clipValue x) k))) := by
  obtain ⟨i, hi, hnear, heven⟩ := frne_isInteger (fmul_canonical _ _) (hk.fmul_bounds (inUnit_clipValue hx)).1
  rw [hi.f2int p]
  exact ⟨hnear, heven⟩

/-- A quantized integer lies between the integers of the two ends of the scale. -/
theorem IsScale.quantized_bounds {k : F64} {K : Int} (hk : IsScale k K) (p : Params) {x : F64} (hx : isNaN x = false) :
    -K ≤ f2int p (frne (fmul (clipValue x) k)) ∧ f2int p (frne (fmul (clipValue x) k)) ≤ K := by
  have hi := hk.nearestEvenInt p hx
  obtain ⟨hlow, hhigh⟩ := abs_le.1 (hk.fmul_bounds (inUnit_clipValue hx)).2
  exact ⟨(NearestEvenInt.self (-K)).mono hi (by exact_mod_cast hlow), hi.mono (.self K) hhigh⟩

/-- Settles O42: the product does not pass the scale, which is an integer. -/
theorem quantizedRange : Obligations.QuantizedRange := fun p _ hx =>
  ⟨isScale_scale16.quantized_bounds p hx, isScale_scale24.quantized_bounds p hx⟩

theorem IsScale.quantized_fneg {k : F64} {K : Int} (hk : IsScale k K) (p : Params) {x : F64} (hx : isNaN x = false) :
    f2int p (frne (fmul (clipValue (fneg x)) k)) = -f2int p (frne (fmul (clipValue x) k)) := by
  have hneg := hk.nearestEvenInt p ((isNaN_fneg x).trans hx)
  have hvalue : value (fmul (clipValue (fneg x)) k) = -value (fmul (clipValue x) k) := by
    rw [clipValue_fneg, hk.value_fmul_fneg (inUnit_clipValue hx)]
  exact (hvalue ▸ hneg).unique (hk.nearestEvenInt p hx).neg

/-- Settles O43: the product of the negative is the negative, and its nearest even integer is too. -/
theorem quantizersAreOdd : Obligations.QuantizersAreOdd := fun p _ hx =>
  ⟨isScale_scale16.quantized_fneg p hx, isScale_scale24.quantized_fneg p hx⟩

theorem IsScale.quantized_mono {k : F64} {K : Int} (hk : IsScale k K) (p : Params) {x y : F64} (h : fle x y = true) :
    f2int p (frne (fmul (clipValue x) k)) ≤ f2int p (frne (fmul (clipValue y) k)) := by
  obtain ⟨hx, hy, -⟩ := fle_iff.1 h
  exact (hk.nearestEvenInt p hx).mono (hk.nearestEvenInt p hy)
    (hk.value_fmul_mono (inUnit_clipValue hx) (inUnit_clipValue hy) (value_clipValue_mono h))

/-- Settles O44: clipping, scaling and rounding keep the order. -/
theorem quantizersAreMonotone : Obligations.QuantizersAreMonotone := fun p _ _ h =>
  ⟨isScale_scale16.quantized_mono p h, isScale_scale24.quantized_mono p h⟩

/-! ### The operations -/

theorem exec_q16 (s : State) : exec .q16 s = .next (quantize Config.params .tiesToEven scale16 s).state := rfl

/-- `Q24_ROUND` has the spec's value, ties to even (R147). -/
theorem exec_q24 (s : State) : exec .q24 s = .next (quantize Config.params .tiesToEven scale24 s).state := rfl

theorem quantize_of_isNaN {s : State} (h : isNaN s.work.x = true) (p : Params) (mode : RoundMode) (scale : F64) :
    quantize p mode scale s = .raised (raiseFault true .quantizeNaN 0 s.work.ch (BitVec.ofNat 32 s.work.n) s) :=
  ((quantize_cases p mode scale s).resolve_right fun hq => by cases h.symm.trans hq.1).2

theorem quantize_of_not_isNaN {s : State} (h : isNaN s.work.x = false) (p : Params) (mode : RoundMode) (scale : F64) :
    quantize p mode scale s = .go { s with work :=
      { s.work with c := clipValue s.work.x, q := quantizeValue p mode scale (clipValue s.work.x) } } :=
  ((quantize_cases p mode scale s).resolve_left fun hq => by cases h.symm.trans hq.1).2

/-- Settles O41, by what the quantizer does with a NaN and with any other datum. -/
theorem integerQuantizers : Obligations.IntegerQuantizers := by
  intro s
  rw [exec_q16, exec_q24]
  refine ⟨fun h => ?_, fun h => ?_⟩
  · rw [quantize_of_not_isNaN h, quantize_of_not_isNaN h]
    exact ⟨rfl, rfl⟩
  · rw [quantize_of_isNaN h, quantize_of_isNaN h]
    exact ⟨rfl, rfl⟩

theorem exec_pack32 (s : State) :
    exec .pack32 s = .next { s with work := { s.work with
      bytes := [s.work.w.extractLsb' 0 8, s.work.w.extractLsb' 8 8, s.work.w.extractLsb' 16 8, s.work.w.extractLsb' 24 8] } } := rfl

theorem exec_framepack (s : State) : exec .framepack s = .next { s with out := s.out ++ s.work.bytes } := rfl

/-- Settles O47, packer by packer. -/
theorem packersAndFramepack : Obligations.PackersAndFramepack := fun s =>
  ⟨exec_pack16 s, exec_pack24 s, exec_pack32 s, exec_framepack s⟩

end Sys2Proof.Machine
end

section
/-! PROOFS. The conversion to binary32 (43_quantize_pack.md R148, R156): the fields of a pattern and its value, the pattern of a rounded value, and
the nearest value for either sign. -/

namespace Sys2Proof.Machine

/-! ### Patterns of binary32 -/

/-- The data that binary32 has, each in its one form (00_scope.md R7). -/
def canonical32 : F64 → Prop
  | .nan => True
  | .inf _ => True
  | .fin _ m e => m < 2 ^ 24 ∧ -149 ≤ e ∧ e ≤ 104 ∧ (2 ^ 23 ≤ m ∨ e = -149)

/-- The value of a pattern of binary32 in the form of its own format: `asF32` before it is written as a datum of binary64. -/
def datum32 (w : BitVec 32) : F64 :=
  if w.toNat / 2 ^ 23 % 256 = 255 then (if w.toNat % 2 ^ 23 = 0 then .inf (decide (2 ^ 31 ≤ w.toNat)) else .nan)
  else if w.toNat / 2 ^ 23 % 256 = 0 then .fin (decide (2 ^ 31 ≤ w.toNat)) (w.toNat % 2 ^ 23) (-149)
  else .fin (decide (2 ^ 31 ≤ w.toNat)) (w.toNat % 2 ^ 23 + 2 ^ 23) ((w.toNat / 2 ^ 23 % 256 : Nat) - 150)

/-- A datum of binary32 as one of binary64. -/
def widen : F64 → F64
  | .fin neg m e => round64 neg m 1 e
  | x => x

theorem asF32_eq_widen (w : BitVec 32) : asF32 w = widen (datum32 w) := by
  have hlt := w.isLt
  have hs : w.getLsbD 31 = decide (2 ^ 31 ≤ w.toNat) := by
    rw [BitVec.getLsbD, Nat.testBit_eq_decide_div_mod_eq]
    exact decide_eq_decide.2 (by omega)
  simp only [asF32, datum32, hs, BitVec.extractLsb'_toNat, Nat.shiftRight_eq_div_pow, pow_zero, Nat.div_one]
  split_ifs <;> rfl

theorem datum32_canonical (w : BitVec 32) : canonical32 (datum32 w) := by
  have hf : w.toNat % 2 ^ 23 < 2 ^ 23 := Nat.mod_lt _ (by norm_num)
  have he : w.toNat / 2 ^ 23 % 256 < 256 := Nat.mod_lt _ (by norm_num)
  rw [datum32]
  split_ifs
  · trivial
  · trivial
  · exact ⟨by omega, le_rfl, by norm_num, .inr rfl⟩
  · exact ⟨by omega, by omega, by omega, .inl (by omega)⟩

/-- A 32-bit number is put together from its sign, exponent and fraction fields (00_scope.md R7). -/
theorem packF32_fields {w : BitVec 32} {be frac : Nat} (hb : w.toNat / 2 ^ 23 % 256 = be) (hf : w.toNat % 2 ^ 23 = frac) :
    packF32 (decide (2 ^ 31 ≤ w.toNat)) be frac = w := by
  have hlt := w.isLt
  have hfields : (if decide (2 ^ 31 ≤ w.toNat) then 2 ^ 31 else 0) + be * 2 ^ 23 + frac = w.toNat := by
    simp only [decide_eq_true_eq]
    split <;> omega
  rw [packF32, hfields, BitVec.ofNat_toNat, BitVec.setWidth_eq]

/-- A pattern is that of its datum, if it is not a NaN's: an infinity, a subnormal value or zero, and a normal value each pack the fields they
were read from. -/
theorem bitsF32_datum32 {w : BitVec 32} (nan : BitVec 32) (h : isNaN (datum32 w) = false) : bitsF32 nan (datum32 w) = w := by
  have hfrac : w.toNat % 2 ^ 23 < 2 ^ 23 := Nat.mod_lt _ (by norm_num)
  rw [datum32] at h ⊢
  by_cases hinf : w.toNat / 2 ^ 23 % 256 = 255
  · rw [if_pos hinf] at h ⊢
    by_cases hz : w.toNat % 2 ^ 23 = 0
    · rw [if_pos hz]
      exact packF32_fields hinf hz
    · rw [if_neg hz] at h
      cases h
  · rw [if_neg hinf]
    by_cases hsub : w.toNat / 2 ^ 23 % 256 = 0
    · rw [if_pos hsub, bitsF32, if_pos hfrac]
      exact packF32_fields hsub rfl
    · rw [if_neg hsub, bitsF32, if_neg (by omega)]
      exact packF32_fields (by omega) (by omega)

theorem packF32_toNat (neg : Bool) {be frac : Nat} (hb : be < 256) (hf : frac < 2 ^ 23) :
    (packF32 neg be frac).toNat = (if neg then 2 ^ 31 else 0) + be * 2 ^ 23 + frac := by
  rw [packF32, BitVec.toNat_ofNat, Nat.mod_eq_of_lt]
  split <;> omega

/-- A finite datum of binary32 is that of its pattern: the fields that were packed are read again. -/
theorem datum32_bitsF32_fin (nan : BitVec 32) {neg : Bool} {m : Nat} {e : Int} (h : canonical32 (.fin neg m e)) :
    datum32 (bitsF32 nan (.fin neg m e)) = .fin neg m e := by
  obtain ⟨hm, he, hemax, htop⟩ := h
  rw [bitsF32]
  split
  · obtain rfl : e = -149 := by omega
    rw [datum32, packF32_toNat neg (by norm_num) ‹_›]
    cases neg <;> simp only [Bool.false_eq_true, if_true, if_false]
    · rw [if_neg (by omega), if_pos (by omega), decide_eq_false (by omega)]
      congr 1; omega
    · rw [if_neg (by omega), if_pos (by omega), decide_eq_true (by omega)]
      congr 1; omega
  · obtain ⟨b, hb⟩ : ∃ b : Nat, (e + 150).toNat = b := ⟨_, rfl⟩
    rw [hb, datum32, packF32_toNat neg (by omega) (by omega)]
    cases neg <;> simp only [Bool.false_eq_true, if_true, if_false]
    · rw [if_neg (by omega), if_neg (by omega), decide_eq_false (by omega)]
      congr 1 <;> omega
    · rw [if_neg (by omega), if_neg (by omega), decide_eq_true (by omega)]
      congr 1 <;> omega

/-! ### Widening -/

theorem isNaN_round64 (neg : Bool) (n d : Nat) (e : Int) : isNaN (round64 neg n d e) = false := (isNeg_roundTo ..).2

theorem isNaN_widen (x : F64) : isNaN (widen x) = isNaN x := by
  cases x with
  | nan => rfl
  | inf => rfl
  | fin neg m e => exact isNaN_round64 neg m 1 e

/-- A finite datum of binary32 is one of binary64, with its sign and value. -/
theorem widen_fin {neg : Bool} {m : Nat} {e : Int} (h : canonical32 (.fin neg m e)) :
    isFinite (widen (.fin neg m e)) = true ∧ isNeg (widen (.fin neg m e)) = neg ∧
      |value (widen (.fin neg m e))| = m * 2 ^ e := by
  obtain ⟨hm, he, hemax, -⟩ := h
  have hm53 : m < 2 ^ 53 := by omega
  refine ⟨?_, (isNeg_roundTo ..).1, abs_value_roundTo_of_mem neg (by norm_num) hm53 (by omega) (by omega)⟩
  exact isFinite_roundTo_of_le (q := e) neg (by norm_num) one_pos hm53 (by omega) (by omega) (by rw [Nat.cast_one, div_one])

/-- Narrowing undoes widening: the value is one of binary32, in whatever form binary64 has it. -/
theorem narrow32_widen {x : F64} (h : canonical32 x) : narrow32 (widen x) = x := by
  cases x with
  | nan => rfl
  | inf => rfl
  | fin neg m e =>
    obtain ⟨hfinite, hneg, hvalue⟩ := widen_fin h
    obtain ⟨hm, he, hemax, htop⟩ := h
    obtain ⟨neg', m', e', hwiden⟩ := exists_fin_of_isFinite hfinite
    rw [hwiden] at hneg hvalue ⊢
    obtain rfl : neg' = neg := hneg
    rw [abs_value] at hvalue
    exact roundTo_of_exact _ (by norm_num) one_pos hm he hemax (fun hne => htop.resolve_right hne)
      (by rw [Nat.cast_one, div_one, hvalue])

/-- Settles O46: the datum of a pattern is widened and narrowed to itself, and its pattern is that one. -/
theorem binary32RoundTrip : Obligations.Binary32RoundTrip := by
  intro w nan h
  rw [asF32_eq_widen] at h ⊢
  rw [f64to32, narrow32_widen (datum32_canonical w), bitsF32_datum32 nan ((isNaN_widen _).symm.trans h)]

/-- A finite pattern has a finite datum, with the same sign and magnitude. -/
theorem asF32_of_datum32 {w : BitVec 32} {neg : Bool} {m : Nat} {e : Int} (h : datum32 w = .fin neg m e) :
    isFinite (asF32 w) = true ∧ isNeg (asF32 w) = neg ∧ |value (asF32 w)| = m * 2 ^ e := by
  have hcanonical := datum32_canonical w
  rw [asF32_eq_widen]
  rw [h] at hcanonical ⊢
  exact widen_fin hcanonical

theorem exists_datum32_of_isFinite {w : BitVec 32} (h : isFinite (asF32 w) = true) : ∃ neg m e, datum32 w = .fin neg m e := by
  rw [asF32_eq_widen] at h
  cases hw : datum32 w with
  | nan => rw [hw] at h; cases h
  | inf neg => rw [hw] at h; cases h
  | fin neg m e => exact ⟨neg, m, e, rfl⟩

/-- The lowest bit of a finite pattern is the parity of its mantissa. -/
theorem getLsbD_zero_of_datum32 {w : BitVec 32} {neg : Bool} {m : Nat} {e : Int} (h : datum32 w = .fin neg m e) (hm : m % 2 = 0) :
    w.getLsbD 0 = false := by
  have hparity : w.toNat % 2 = 0 := by
    rw [datum32] at h
    split_ifs at h <;> cases h <;> omega
  rw [BitVec.getLsbD, Nat.testBit_zero, hparity]
  rfl

/-! ### Narrowing -/

/-- A finite result of `roundTo` has its top bit set, unless its unit is the smallest one. -/
theorem top_le_of_roundTo_eq_fin {prec : Nat} {qmin qmax : Int} {neg neg' : Bool} {n d m : Nat} {e q : Int} (hp : 0 < prec)
    (hd : 0 < d) (h : roundTo prec qmin qmax neg n d e = .fin neg' m q) : 2 ^ (prec - 1) ≤ m ∨ q = qmin := by
  rcases Nat.eq_zero_or_pos n with rfl | hn
  · rw [roundTo_zero] at h
    cases h
    exact .inr rfl
  · obtain ⟨x, q₀, m₀, hrounds, -, hround⟩ := roundTo_eq_roundedDatum qmin qmax neg e hp hn hd
    rw [hround, roundedDatum] at h
    split_ifs at h <;> cases h
    · exact .inr rfl
    · exact .inl le_rfl
    · exact or_iff_not_imp_right.2 hrounds.top_le_mantissa

/-- `m * 2^q` is a magnitude of binary32 that is nearest to `a`, with `m` even where another is as near. -/
def IsNearest32 (a : ℚ) (m : Nat) (q : Int) : Prop :=
  ∀ (k : Nat) (r : Int), k < 2 ^ 24 → -149 ≤ r →
    |(m : ℚ) * 2 ^ q - a| ≤ |(k : ℚ) * 2 ^ r - a| ∧
    (|(m : ℚ) * 2 ^ q - a| = |(k : ℚ) * 2 ^ r - a| → (m : ℚ) * 2 ^ q ≠ (k : ℚ) * 2 ^ r → m % 2 = 0)

/-- What the conversion makes of a finite datum: an infinity from the midpoint above the largest finite value on, and below it a finite pattern
of the same sign with a nearest magnitude. -/
theorem f64to32_cases (nan : BitVec 32) {x : F64} (hx : isFinite x = true) :
    ((2 : ℚ) ^ 128 - 2 ^ 103 ≤ |value x| ∧ f64to32 nan x = packF32 (isNeg x) 255 0) ∨
    (|value x| < (2 : ℚ) ^ 128 - 2 ^ 103 ∧
      ∃ m q, datum32 (f64to32 nan x) = .fin (isNeg x) m q ∧ IsNearest32 |value x| m q) := by
  obtain ⟨neg, n, e, rfl⟩ := exists_fin_of_isFinite hx
  obtain ⟨hinf, hnear⟩ := roundingIsNearestEven 24 (-149) 104 neg n 1 e (by norm_num) (by norm_num) one_pos
  have hthreshold : ((2 : ℚ) ^ (24 + 1) - 1) * 2 ^ ((104 : Int) - 1) = 2 ^ 128 - 2 ^ 103 := by norm_num
  have hexact : (n : ℚ) / (1 : Nat) * 2 ^ e = |value (.fin neg n e)| := by rw [Nat.cast_one, div_one, abs_value]
  rw [hthreshold, hexact] at hinf
  rw [hexact] at hnear
  rw [f64to32, narrow32]
  rcases le_or_gt ((2 : ℚ) ^ 128 - 2 ^ 103) (|value (.fin neg n e)|) with hover | hbelow
  · rw [hinf.2 hover]
    exact .inl ⟨hover, rfl⟩
  · obtain ⟨m, q, hround, hm, hq, hqmax, hbest⟩ := hnear (hinf.not.2 (not_le.2 hbelow))
    have htop := top_le_of_roundTo_eq_fin (by norm_num) one_pos hround
    rw [hround]
    exact .inr ⟨hbelow, m, q, datum32_bitsF32_fin nan ⟨hm, hq, hqmax, htop⟩, hbest⟩

/-! ### The nearest value of either sign -/

/-- A value is its magnitude with its sign. -/
theorem value_eq_signed (x : F64) : value x = if isNeg x then -|value x| else |value x| := by
  cases x with
  | nan => simp [value, isNeg]
  | inf => simp [value]
  | fin neg m e => rw [abs_value]; cases neg <;> simp [value, signedInt, isNeg]

/-- Values of one sign are as far apart as their magnitudes. -/
theorem abs_value_sub_value {x y : F64} (h : isNeg x = isNeg y) : |value x - value y| = |(|value x|) - (|value y|)| := by
  rw [value_eq_signed x, value_eq_signed y, h]
  split
  · rw [abs_neg, abs_neg, abs_abs, abs_abs, ← abs_neg]; congr 1; ring
  · rw [abs_abs, abs_abs]

/-- Only from 0 are two different numbers of one magnitude as far away. -/
theorem eq_zero_of_abs_sub_eq {x w u : ℚ} (hdist : |w - x| = |u - x|) (habs : |w| = |u|) (hne : w ≠ u) : x = 0 := by
  have hneg : w = -u := (abs_eq_abs.1 habs).resolve_left hne
  rcases abs_eq_abs.1 hdist with h | h
  · exact absurd (sub_left_injective h) hne
  · linarith

/-- A datum with the sign of `x` and a nearest magnitude is nearest to `x` among the values of either sign, and where another is as near its
mantissa is even: one of the same magnitude would be as near to 0 only, which is its own nearest magnitude. -/
theorem IsNearest32.value_nearest {x y z : F64} {m : Nat} {q : Int} (h : IsNearest32 |value x| m q) (hy : |value y| = m * 2 ^ q)
    (hneg : isNeg y = isNeg x) {k : Nat} {r : Int} (hk : k < 2 ^ 24) (hr : -149 ≤ r) (hz : |value z| = k * 2 ^ r) :
    |value y - value x| ≤ |value z - value x| ∧
    (|value y - value x| = |value z - value x| → value y ≠ value z → m % 2 = 0) := by
  obtain ⟨hnear, heven⟩ := h k r hk hr
  rw [← hy, ← hz, ← abs_value_sub_value hneg] at hnear heven
  have hmagnitudes : |(|value z|) - (|value x|)| ≤ |value z - value x| := abs_abs_sub_abs_le _ _
  refine ⟨hnear.trans hmagnitudes, fun htie hne => ?_⟩
  by_cases habs : |value y| = |value z|
  · have hx : value x = 0 := eq_zero_of_abs_sub_eq htie habs hne
    have hzero := (h 0 (-149) (by norm_num) le_rfl).1
    rw [← hy, hx, Nat.cast_zero, zero_mul, abs_zero, sub_self, abs_zero, sub_zero, abs_abs] at hzero
    have hy0 : |value y| = 0 := le_antisymm hzero (abs_nonneg _)
    exact absurd ((abs_eq_zero.1 hy0).trans (abs_eq_zero.1 (habs ▸ hy0)).symm) hne
  · exact heven (le_antisymm hnear (htie ▸ hmagnitudes)) habs

/-! ### `F32` -/

theorem exec_f32 (s : State) : exec .f32 s = .next (f32 Config.params s) := rfl

/-- The patterns of the infinities (00_scope.md R7). -/
theorem packF32_inf (neg : Bool) : packF32 neg 255 0 = if neg then 0xFF800000 else 0x7F800000 := by
  cases neg <;> rfl

theorem f64to32_inf (w : BitVec 32) (neg : Bool) : f64to32 w (.inf neg) = if neg then 0xFF800000 else 0x7F800000 :=
  packF32_inf neg

theorem f64to32_zero (w : BitVec 32) (neg : Bool) (e : Int) : f64to32 w (.fin neg 0 e) = packF32 neg 0 0 := by
  rw [f64to32, narrow32, roundTo_zero]
  rfl

/-- Settles O45: the cases of the conversion, of which the finite one has a nearest magnitude with the sign of the sample. -/
theorem float32Conversion : Obligations.Float32Conversion := by
  refine ⟨exec_f32, isQuietNan32_nan32, fun w => ⟨f64to32_inf w false, f64to32_inf w true, ?_, ?_⟩, fun nan x hx => ?_⟩
  · rw [asF64_posZero]; exact f64to32_zero w false _
  · rw [asF64_negZero]; exact f64to32_zero w true _
  intro w
  rcases f64to32_cases nan hx with ⟨hover, hw⟩ | ⟨hbelow, m, q, hw, hnearest⟩
  · exact ⟨fun _ => hw.trans (packF32_inf _), fun hbelow => absurd hbelow (not_lt.2 hover)⟩
  · obtain ⟨hfinite, hneg, habs⟩ := asF32_of_datum32 hw
    refine ⟨fun hover => absurd hbelow (not_lt.2 hover), fun _ => ⟨hfinite, hneg, fun u hu => ?_⟩⟩
    obtain ⟨neg', k, r, hdatum⟩ := exists_datum32_of_isFinite hu
    obtain ⟨hk, hr, -⟩ : canonical32 (.fin neg' k r) := hdatum ▸ datum32_canonical u
    obtain ⟨hnear, heven⟩ := hnearest.value_nearest habs hneg hk hr (asF32_of_datum32 hdatum).2.2
    exact ⟨hnear, fun htie hne => getLsbD_zero_of_datum32 hw (heven htie hne)⟩

end Sys2Proof.Machine
end

section
/-! PROOFS. Faults (60_exceptions.md): how a step can stop, what fault entry records, and which clause of the input contract `VALIDATE`
reports. -/

namespace Sys2Proof.Machine

/-! ### How a step can stop -/

theorem step_of_empty_inbox {s : State} (hs : s.stage = none) (hi : s.inbox = []) : step s = .next s := by
  simp only [step, hs, hi]

theorem step_of_reset {s : State} {rest : List Input} (hs : s.stage = none) (hi : s.inbox = .reset :: rest) :
    step s = .next (resetBlock s rest) := by
  simp only [step, hs, hi]

/-- Settles O7: with no place set the step is what the head of the inbox asks for. -/
theorem stepIdlesAndResets : Obligations.StepIdlesAndResets := fun _ hs =>
  ⟨step_of_empty_inbox hs, fun _ => step_of_reset hs⟩

/-- An outcome at `s` that is a next state or one of the spec's refusals: never a fault, never an unmodelled instruction, and refused for a
recorded fault only where one is recorded (40_host_commands.md R101). -/
def RefusedOnly (s : State) : Host.Outcome State Fault Refusal → Prop
  | .next _ => True
  | .fault _ => False
  | .refused (.notModelled _) => False
  | .refused .commandWhileFaulted => faulted s = true
  | .refused _ => True

/-- A command word's dispatch refuses for a recorded fault only (R95). -/
theorem refusedOnly_dispatchCommand (v : Word) (s : State) : RefusedOnly s (dispatchCommand v s) := by
  simp only [dispatchCommand, execNop, execGen, execEnc, execRun, execClr, reservedCommand]
  split_ifs <;> trivial

theorem refusedOnly_execWcr (r : Reg) (v : Word) (s : State) : RefusedOnly s (execWcr r v s) := by
  cases r with
  | cmd => exact refusedOnly_dispatchCommand v s
  | _ => trivial

theorem refusedOnly_execWsb (n : Word) (ch : Channel) (v : Word) (s : State) : RefusedOnly s (execWsb n ch v s) := by
  rw [execWsb]
  split <;> trivial

theorem refusedOnly_execRsb (n : Word) (ch : Channel) (s : State) : RefusedOnly s (execRsb n ch s) := by
  rw [execRsb]
  split
  · split <;> trivial
  · trivial

theorem refusedOnly_execRout (j : Word) (s : State) : RefusedOnly s (execRout j s) := by
  rw [execRout]
  split
  · split <;> trivial
  · trivial

/-- What a transaction of the host performs; a command is the dispatch of its word. -/
theorem refusedOnly_exec {i : Instr} (hi : ofHost i = true) (s : State) : RefusedOnly s (exec i s) := by
  cases i with
  | wcr r v => exact refusedOnly_execWcr r v s
  | rcr r => trivial
  | wsb n ch v => exact refusedOnly_execWsb n ch v s
  | rsb n ch => exact refusedOnly_execRsb n ch s
  | rout j => exact refusedOnly_execRout j s
  | nop => exact refusedOnly_dispatchCommand 0 s
  | gen => exact refusedOnly_dispatchCommand 1 s
  | enc => exact refusedOnly_dispatchCommand 2 s
  | run => exact refusedOnly_dispatchCommand 3 s
  | clr => exact refusedOnly_dispatchCommand 15 s
  | _ => cases hi

/-- Between commands no place is set, so a step performs nothing but what a transaction stands for. -/
theorem refusedOnly_step {s : State} (hs : s.stage = none) : RefusedOnly s (step s) := by
  rcases step_cases s with ⟨st, hst, -⟩ | ⟨-, -, hstep⟩ | ⟨rest, -, -, hstep⟩ | ⟨h, a, v, rest, -, -, hstep⟩
  · exact absurd (hs.symm.trans hst) (by simp)
  · rw [hstep]; trivial
  · rw [hstep]; trivial
  · rw [hstep]
    cases hdec : decode (.transaction h a v) with
    | ok i =>
      rw [execCode_of_decode_ok hdec]
      exact refusedOnly_exec (ofHost_of_decodeTransaction hdec) { s with inbox := rest, reply := .none }
    | reject r => rw [execCode_of_decode_reject hdec]; trivial

/-- Settles O10: the step is refused only, and of the refusals the one for a recorded fault asks for one. -/
theorem stopsAreTheRefusals : Obligations.StopsAreTheRefusals := by
  intro s h
  have hstep := refusedOnly_step h.betweenCommands.1
  refine ⟨fun f hf => ?_, fun m hm => ?_, fun hfaulted hrefused => ?_⟩
  · rw [hf] at hstep; exact hstep
  · rw [hm] at hstep; exact hstep
  · rw [hrefused] at hstep
    exact absurd (hfaulted.symm.trans hstep) (by decide)

/-! ### Fault entry -/

/-- The sub-code of `FAULT` reads back (10_state.md R25). -/
theorem faultSub_faultWord (cause : Cause) (sub : BitVec 8) (ch : Channel) (info : BitVec 32) :
    faultSub (faultWord cause sub ch info) = sub := by
  apply BitVec.eq_of_toNat_eq
  rw [faultSub, BitVec.extractLsb'_toNat, faultWord_toNat, Nat.shiftRight_eq_div_pow]
  omega

/-- The channel of `FAULT` reads back. -/
theorem faultChannel_faultWord (cause : Cause) (sub : BitVec 8) (ch : Channel) (info : BitVec 32) :
    faultChannel (faultWord cause sub ch info) = channelBit ch := by
  apply BitVec.eq_of_toNat_eq
  rw [faultChannel, BitVec.extractLsb'_toNat, faultWord_toNat, Nat.shiftRight_eq_div_pow]
  omega

/-- The bits of `FAULT` that are reserved read 0. -/
theorem reserved_faultWord (cause : Cause) (sub : BitVec 8) (ch : Channel) (info : BitVec 32) :
    (faultWord cause sub ch info).extractLsb' 17 15 = 0 := by
  apply BitVec.eq_of_toNat_eq
  rw [BitVec.extractLsb'_toNat, faultWord_toNat, Nat.shiftRight_eq_div_pow, BitVec.ofNat_eq_ofNat, BitVec.toNat_zero]
  omega

/-- The `INFO` of `FAULT` reads back. -/
theorem faultInfo_faultWord (cause : Cause) (sub : BitVec 8) (ch : Channel) (info : BitVec 32) :
    faultInfo (faultWord cause sub ch info) = info := by
  apply BitVec.eq_of_toNat_eq
  rw [faultInfo, BitVec.extractLsb'_toNat, faultWord_toNat, Nat.shiftRight_eq_div_pow]
  omega

/-- Setting `FAULTED` touches no other bit of `STATUS` than the two flags (R24). -/
theorem reserved_withFaulted (w : Word) : withFaulted w &&& ~~~3 = w &&& ~~~3 := by
  rw [withFaulted, BitVec.and_or_distrib_right, show (1 : Word) &&& ~~~3 = 0 by decide]
  exact BitVec.or_zero

/-- Clearing `OUTVALID` touches no other bit of `STATUS` than the two flags (R24). -/
theorem reserved_withoutOutValid (w : Word) : withoutOutValid w &&& ~~~3 = w &&& ~~~3 := by
  rw [withoutOutValid, BitVec.and_assoc, show (~~~2 : Word) &&& ~~~3 = ~~~3 by decide]

theorem outValid_raiseFault_enc (cause : Cause) (sub : BitVec 8) (ch : Channel) (info : BitVec 32) (s : State) :
    outValid (raiseFault true cause sub ch info s) = false := outValid_emptyOut _

theorem reserved_status_raiseFault (inEnc : Bool) (cause : Cause) (sub : BitVec 8) (ch : Channel) (info : BitVec 32) (s : State) :
    (raiseFault inEnc cause sub ch info s).status &&& ~~~3 = s.status &&& ~~~3 := by
  cases inEnc with
  | false => exact reserved_withFaulted s.status
  | true => exact (reserved_withoutOutValid _).trans (reserved_withFaulted s.status)

/-- Settles O22: the fields of the word that fault entry records, the two flags, and the rest of the state, out of `ENC` and elsewhere. -/
theorem faultEntry : Obligations.FaultEntry := by
  intro inEnc cause sub ch info s t
  have hfault : t.fault = faultWord cause sub ch info := raiseFault_fault ..
  rw [hfault]
  refine ⟨faultCause_faultWord .., faultSub_faultWord .., faultChannel_faultWord .., reserved_faultWord .., faultInfo_faultWord ..,
    faulted_raiseFault .., ?_, ?_, reserved_status_raiseFault .., ?_⟩
  · rintro rfl
    exact ⟨rfl, rfl, outValid_raiseFault_enc cause sub ch info s⟩
  · rintro rfl
    exact ⟨rfl, rfl, outValid_raiseFault cause sub ch info s⟩
  · cases inEnc <;> rfl

/-! ### The clause that `VALIDATE` reports -/

/-- The clauses of the input contract in their order, each as what it asks for (R173). -/
theorem failedClause_eq (p : Params) (s : State) : failedClause p s =
    if ¬(isFinite (asF64 s.duration) = true ∧ fgt (asF64 s.duration) posZero = true) then some (.configuration, 1)
    else if ¬(isFinite (asF64 s.sampleRate) = true ∧ fgt (asF64 s.sampleRate) posZero = true) then some (.configuration, 2)
    else if ¬(isFinite (asF64 s.delay) = true ∧ fge (asF64 s.delay) posZero = true) then some (.configuration, 3)
    else if ¬(fge (asF64 s.volume) posZero = true ∧ fle (asF64 s.volume) one = true) then some (.configuration, 4)
    else if ¬(sweepLog s = true → ∀ x ∈ frequencies s, fgt x posZero = true) then some (.invalidFrequency, 0)
    else if ¬(∀ x ∈ frequencies s, isFinite x = true ∧ fgt x posZero = true) then some (.configuration, 5)
    else if ¬(feq (asF64 s.f0l) (asF64 s.f1l) = false ∧ feq (asF64 s.f0r) (asF64 s.f1r) = false) then some (.configuration, 6)
    else if ¬(fge (fmul (asF64 s.sampleRate) (asF64 s.duration)) (u2f ((sbDepth p : Int) + 1)) = false) then
      some (.configuration, 7)
    else none := by
  simp [failedClause, imp_iff_not_or]

/-- Past a clause that holds, the later ones decide. -/
theorem clause_passed {c : Prop} [Decidable c] {α : Type} {x rest r : α} (h : c) (hrest : rest = r) : (if ¬c then x else rest) = r :=
  (if_neg (not_not_intro h)).trans hrest

/-- No clause fails exactly where the input contract holds. -/
theorem failedClause_eq_none_iff {p : Params} {s : State} : failedClause p s = none ↔ InputContract p s := by
  refine ⟨inputContract_of_failedClause_eq_none, fun ⟨h1, h2, h3, h4, hlog, h5, h6, h7⟩ => ?_⟩
  rw [failedClause_eq]
  exact clause_passed h1 (clause_passed h2 (clause_passed h3 (clause_passed h4 (clause_passed hlog (clause_passed h5
    (clause_passed h6 (clause_passed h7 rfl)))))))

/-- `VALIDATE` alone, where a clause fails: the fault entry of that clause (R173, R180). -/
theorem exec_validate_of_failedClause {s : State} (cause : Cause) (sub : BitVec 8) {w : Word} (hw : faultWord cause sub .left 0 = w)
    (h : failedClause Config.params s = some (cause, sub)) :
    exec .validate s = .next { s with fault := w, status := s.status ||| 1 } := by
  rw [exec_validate, validate, h, ← hw]
  rfl

/-- `VALIDATE` alone, where the input contract holds. -/
theorem exec_validate_of_inputContract {s : State} (h : InputContract Config.params s) : exec .validate s = .next s := by
  rw [exec_validate, validate, failedClause_eq_none_iff.2 h]
  rfl

/-- Settles O23: the clauses before the first failure are passed in `failedClause`, and what it names is what `VALIDATE` records. -/
theorem validateRaisesFirstFailure : Obligations.ValidateRaisesFirstFailure := by
  intro s
  rw [asF64_posZero]
  have hraise := @exec_validate_of_failedClause s
  rw [failedClause_eq] at hraise
  exact ⟨fun h1 => hraise .configuration 1 rfl (if_pos h1),
    fun h1 h2 => hraise .configuration 2 rfl (clause_passed h1 (if_pos h2)),
    fun h1 h2 h3 => hraise .configuration 3 rfl (clause_passed h1 (clause_passed h2 (if_pos h3))),
    fun h1 h2 h3 h4 => hraise .configuration 4 rfl (clause_passed h1 (clause_passed h2 (clause_passed h3 (if_pos h4)))),
    fun h1 h2 h3 h4 hlog => hraise .invalidFrequency 0 rfl
      (clause_passed h1 (clause_passed h2 (clause_passed h3 (clause_passed h4 (if_pos hlog))))),
    fun h1 h2 h3 h4 hlog h5 => hraise .configuration 5 rfl
      (clause_passed h1 (clause_passed h2 (clause_passed h3 (clause_passed h4 (clause_passed hlog (if_pos h5)))))),
    fun h1 h2 h3 h4 hlog h5 h6 => hraise .configuration 6 rfl
      (clause_passed h1 (clause_passed h2 (clause_passed h3 (clause_passed h4 (clause_passed hlog (clause_passed h5 (if_pos h6))))))),
    fun h1 h2 h3 h4 hlog h5 h6 h7 => hraise .configuration 7 rfl
      (clause_passed h1 (clause_passed h2 (clause_passed h3 (clause_passed h4 (clause_passed hlog (clause_passed h5
        (clause_passed h6 (if_pos h7)))))))),
    fun h1 h2 h3 h4 hlog h5 h6 h7 => exec_validate_of_inputContract ⟨h1, h2, h3, h4, hlog, h5, h6, h7⟩,
    failedClause_eq_none_iff.trans
      ⟨fun h => ⟨h.duration, h.sampleRate, h.delay, h.volume, h.logFrequencies, h.frequencies, h.distinct, h.length⟩,
        fun ⟨h1, h2, h3, h4, hlog, h5, h6, h7⟩ => ⟨h1, h2, h3, h4, hlog, h5, h6, h7⟩⟩⟩

end Sys2Proof.Machine
end

section
/-! PROOFS. Where `ENC` faults (60_exceptions.md R174, R177, R178, R182): on the depth, then on the length, then at the first cell in stream order
that it cannot encode; the bytes it had appended until then are gone. -/

namespace Sys2Proof.Machine

/-- The state after a fault out of `ENC` that records the word `f` in `FAULT` (R180). -/
def encFaulted (s : State) (f : Word) (w : Work) (j : Nat) : State :=
  { s with
    work := w, draws := j, fault := f, out := [], outlen := 0, status := withoutOutValid (withFaulted s.status) }

theorem raiseFault_enc (cause : Cause) (sub : BitVec 8) (ch : Channel) (info : BitVec 32) (s : State) :
    raiseFault true cause sub ch info s = encFaulted s (faultWord cause sub ch info) s.work s.draws := rfl

/-- The flags after a fault out of `ENC`, which had cleared `OUTVALID` when it started (R180, 40_host_commands.md R98). -/
theorem status_of_enc_fault (w : Word) : withoutOutValid (withFaulted (withoutOutValid w)) = (w &&& ~~~2) ||| 1 := by
  rw [withoutOutValid, withFaulted, withoutOutValid, BitVec.and_or_distrib_right, BitVec.and_assoc, BitVec.and_self,
    show (1 : Word) &&& ~~~2 = 1 by decide]

/-- A fault of `ENC` as a command: the output it had emptied at the start stays empty, and the temporaries are idle. -/
theorem enc_of_raised {p : Params} {s : State} {f : Word} {w : Work} {j : Nat}
    (h : encBody p (emptyOut s) = .raised (encFaulted (emptyOut s) f w j)) :
    enc p s = { s with
      fault := f, status := (s.status &&& ~~~2) ||| 1, out := [], outlen := 0, work := Work.idle, draws := j } := by
  rw [enc, h, ← status_of_enc_fault]
  rfl

theorem legalDepth_iff {b : Nat} : legalDepth b = true ↔ b = 16 ∨ b = 24 ∨ b = 32 := by
  simp [legalDepth, or_assoc]

/-- An unsupported depth is found before anything else (R174, R182). -/
theorem encBody_of_illegal_depth (p : Params) {s : State} (h : legalDepth (bitDepth s) = false) :
    encBody p s = .raised (encFaulted s (faultWord .unsupportedBitDepth 0 .left 0) s.work s.draws) := by
  have hdepth : ¬(bitDepth s = 16 ∨ bitDepth s = 24 ∨ bitDepth s = 32) := fun hb =>
    absurd (h.symm.trans (legalDepth_iff.2 hb)) (by decide)
  simp only [encBody]
  rw [if_neg hdepth, raiseFault_enc]

/-- A length beyond the buffer is found before any cell is read (R177, R182). -/
theorem encBody_of_long {p : Params} {s : State} (hb : legalDepth (bitDepth s) = true) (h : sbDepth p < s.sblen.toNat) :
    encBody p s = .raised (encFaulted s (faultWord .bufferFault 1 .left 0) s.work s.draws) := by
  simp only [encBody]
  rw [if_pos (legalDepth_iff.1 hb), if_pos h, raiseFault_enc]

/-- Where both checks pass, `ENC` encodes the frames from 0 on (40_host_commands.md R98). -/
theorem encBody_of_legal {p : Params} {s : State} (hb : legalDepth (bitDepth s) = true) (h : s.sblen.toNat ≤ sbDepth p) :
    encBody p s = (encFrames p (bitDepth s) s.sblen.toNat { s with work := { s.work with n := 0 } }).bind
      fun t => .go (finishEnc (bitDepth s) t) := by
  simp only [encBody]
  rw [if_pos (legalDepth_iff.1 hb), if_neg (not_lt.2 h)]

/-- Settles O50, by the order of the two checks. -/
theorem encChecksDepthThenLength : Obligations.EncChecksDepthThenLength := by
  intro s hs
  rw [exec_enc_of_not_faulted hs]
  exact ⟨fun hdepth => congrArg _ (enc_of_raised (encBody_of_illegal_depth _ (s := emptyOut s) hdepth)),
    fun hdepth hlen => congrArg _ (enc_of_raised (encBody_of_long (s := emptyOut s) hdepth hlen))⟩

/-- A piece of `ENC` that raises the fault of cell `(n, ch)` and leaves no byte. -/
def RaisesCellFault (s : State) (n : Nat) (ch : Channel) (f : Flow) : Prop :=
  ∃ (w : Work) (j : Nat), f = .raised (encFaulted s (cellFault s n ch) w j)

/-- What follows a fault is not performed (R180). -/
theorem RaisesCellFault.bind {s : State} {n : Nat} {ch : Channel} {f : Flow} (h : RaisesCellFault s n ch f) (g : State → Flow) :
    RaisesCellFault s n ch (f.bind g) := by
  obtain ⟨w, j, rfl⟩ := h
  exact ⟨w, j, rfl⟩

/-- A fault after samples that were appended: the bytes are gone. -/
theorem Appends.bind_raises {p : Params} {b : Nat} {s : State} {a k m n : Nat} {ch : Channel} {f : Flow} {g : State → Flow}
    (hf : Appends p b s a k m f) (hg : ∀ t, t.work.n = m → t.sb = s.sb → RaisesCellFault t n ch (g t)) :
    RaisesCellFault s n ch (f.bind g) := by
  obtain ⟨w, j, bytes, hm, -, rfl⟩ := hf
  exact hg _ hm rfl

theorem encSample_raises (p : Params) {b : Nat} (hb : legalDepth b = true) {ch : Channel} {s : State} {n : Nat} (hn : s.work.n = n)
    (h : encodable s b n ch = false) : RaisesCellFault s n ch (encSample p b ch s) := by
  subst hn
  rcases encSample_cases p hb ch s with ⟨-, w, hraised⟩ | ⟨hgood, -⟩
  · exact ⟨w, s.draws, hraised⟩
  · exact absurd (h.symm.trans hgood) (by decide)

/-- In the frame of the bad cell: a bad left cell comes first, a bad right cell after the left one's bytes. -/
theorem encFrame_raises (p : Params) {b : Nat} (hb : legalDepth b = true) {ch : Channel} {s : State}
    (h : encodable s b s.work.n ch = false)
    (hbefore : ∀ ch', cellAddress s.work.n ch' < cellAddress s.work.n ch → encodable s b s.work.n ch' = true) :
    RaisesCellFault s s.work.n ch (encFrame p b s) := by
  cases ch with
  | left => exact (encSample_raises p hb rfl h).bind _
  | right =>
    have hleft := hbefore .left (by simp [cellAddress, channelIndex])
    exact (encSample_appends p hb hleft).bind_raises fun t hn hsb =>
      encSample_raises p hb hn (by rw [encodable_of_sb_eq hsb, h])

/-- Frames from the frame counter on, by induction on their number: those before the frame of the first bad cell append their bytes. -/
theorem encFrames_raises (p : Params) {b : Nat} (hb : legalDepth b = true) {n : Nat} {ch : Channel} (k : Nat) (s : State)
    (hle : s.work.n ≤ n) (hlt : n < s.work.n + k) (h : encodable s b n ch = false)
    (hbefore : ∀ n' ch', cellAddress n' ch' < cellAddress n ch → encodable s b n' ch' = true) :
    RaisesCellFault s n ch (encFrames p b k s) := by
  induction k generalizing s with
  | zero => omega
  | succ k ih =>
    rw [encFrames]
    rcases Nat.eq_or_lt_of_le hle with hn | hn
    · subst hn
      exact (encFrame_raises p hb h fun ch' => hbefore _ ch').bind _
    · have hgood : ∀ ch', encodable s b s.work.n ch' = true := fun ch' =>
        hbefore _ ch' ((cellAddress_lt ch' hn).trans_le (Nat.le_add_right _ _))
      refine (encFrame_appends p hb hgood).bind_raises fun t hcounter hsb => ?_
      have hnext : (nextFrame t).work.n = s.work.n + 1 := congrArg (· + 1) hcounter
      have hcells : ∀ n' ch', encodable (nextFrame t) b n' ch' = encodable s b n' ch' := encodable_of_sb_eq hsb b
      exact ih (nextFrame t) (by omega) (by omega) (by rw [hcells, h]) fun n' ch' hlt' => by rw [hcells, hbefore n' ch' hlt']

/-- `ENC` of a buffer with a bad cell records the fault of the first one in stream order (R177, R178, R182). -/
theorem enc_of_first_bad_cell {p : Params} {s : State} {n : Nat} {ch : Channel} (hb : legalDepth (bitDepth s) = true)
    (hlen : s.sblen.toNat ≤ sbDepth p) (hn : n < s.sblen.toNat) (h : encodable s (bitDepth s) n ch = false)
    (hbefore : ∀ n' ch', cellAddress n' ch' < cellAddress n ch → encodable s (bitDepth s) n' ch' = true) :
    ∃ j, enc p s = { s with
      fault := cellFault s n ch, status := (s.status &&& ~~~2) ||| 1, out := [], outlen := 0, work := Work.idle, draws := j } := by
  obtain ⟨w, j, hraised⟩ := (encFrames_raises p hb s.sblen.toNat { emptyOut s with work := { s.work with n := 0 } } n.zero_le
    (by simpa using hn) h hbefore).bind fun t => .go (finishEnc (bitDepth s) t)
  exact ⟨j, enc_of_raised ((encBody_of_legal (s := emptyOut s) hb hlen).trans hraised)⟩

/-- The word of a fault at a frame, as a number (10_state.md R25). -/
theorem faultWord_at_frame (cause : Cause) (sub : BitVec 8) (ch : Channel) (n : Nat) :
    faultWord cause sub ch (BitVec.ofNat 32 n) =
      BitVec.ofNat 64 (n * 2 ^ 32 + channelIndex ch * 2 ^ 16 + (sub.toNat * 2 ^ 8 + (causeCode cause).toNat)) := by
  have hchannel : (channelBit ch).toNat = channelIndex ch := by cases ch <;> rfl
  apply BitVec.eq_of_toNat_eq
  rw [faultWord_toNat, BitVec.toNat_ofNat, BitVec.toNat_ofNat, ← hchannel]
  omega

/-- Settles O51: which fault the first bad cell raises depends on whether it holds a value. -/
theorem encFaultsAtFirstBadCell : Obligations.EncFaultsAtFirstBadCell := by
  intro s n ch hs hb hlen hn h hbefore
  obtain ⟨j, henc⟩ := enc_of_first_bad_cell hb hlen hn h hbefore
  rw [exec_enc_of_not_faulted hs, henc, cellFault]
  refine ⟨fun hcell => ⟨j, ?_⟩, fun v hcell => ⟨j, ?_⟩⟩
  · rw [hcell, faultWord_at_frame .bufferFault 2 ch n]
    rfl
  · rw [hcell, faultWord_at_frame .quantizeNaN 0 ch n]
    rfl

end Sys2Proof.Machine
end

section
/-! PROOFS. The first transaction after reset (70_reset_and_hazards.md R192): the reset values pass no check of `GEN` or `ENC`, and there is
nothing to read. -/

namespace Sys2Proof.Machine

theorem faulted_reset : faulted State.reset = false := rfl

/-- The reset duration is zero, and so not above zero: the first clause of the input contract fails (R173). -/
theorem exec_validate_reset : exec .validate State.reset = .next { State.reset with fault := 0x103, status := 1 } := by
  have hduration : fgt (asF64 State.reset.duration) (asF64 0) = false := rfl
  obtain ⟨hraises, -⟩ := validateRaisesFirstFailure State.reset
  exact hraises fun ⟨_, habove⟩ => absurd (hduration.symm.trans habove) (by decide)

/-- The reset depth is 0, which no encoder has (R174). -/
theorem exec_enc_reset : exec .enc State.reset = .next { State.reset with fault := 0x2, status := 1 } := by
  have hdepth : legalDepth (bitDepth State.reset) = false := rfl
  obtain ⟨hraises, -⟩ := encChecksDepthThenLength State.reset faulted_reset
  exact hraises hdepth

/-- No cell can be read after reset: a frame of `SB` holds no value yet, and other frames do not exist (20_memory.md R59). -/
theorem exec_rsb_reset (n : Word) (ch : Channel) : ∃ r, exec (.rsb n ch) State.reset = .refused r := by
  rcases lt_or_ge n.toNat (sbDepth Config.params) with hn | hn
  · exact ⟨_, exec_rsb_of_none hn (readCell_reset n.toNat ch)⟩
  · exact ⟨_, exec_rsb_of_ge hn ch State.reset⟩

/-- Settles O12: `GEN` and `RUN` end at the first clause of `VALIDATE`, `ENC` at its depth check, and no cell and no byte is there to
be read. -/
theorem firstCommandAfterReset : Obligations.FirstCommandAfterReset := by
  obtain ⟨hgen, hrun⟩ := genFaultLeavesTheRest State.reset _ faulted_reset exec_validate_reset rfl
  exact ⟨exec_nop State.reset, exec_clr State.reset, hgen, exec_enc_reset, hrun, exec_rsb_reset,
    fun j => exec_rout_of_ge j.toNat.zero_le⟩

end Sys2Proof.Machine
end
